-- ==== Sys2Proof/Word.lean ====
section
/-! DEFINITION. Words and bytes of the MSP430 CPU (00_scope.md R5: 16-bit registers and addresses, 8-bit bytes). -/

namespace Sys2Proof

/-- A 16-bit register, instruction word, index word or address (R5, R20, R60). -/
abbrev Word := BitVec 16

/-- One byte of memory or one port register (R5, R60, R350). -/
abbrev Byte := BitVec 8

end Sys2Proof
end

