-- ==== Sys2Proof/Syntax.lean ====
section
/-! DEFINITION. The instructions of the MSP430 CPU: one constructor per row of spec/opcode_table.json. -/

namespace Sys2Proof

/-- The sixteen registers of 10_state.md R20: PC = R0, SP = R1, SR = R2, CG = R3, and `gp i` = R(4 + i) (R25). -/
inductive Reg where
  | pc
  | sp
  | sr
  | cg
  | gp (i : Fin 12)
  deriving DecidableEq, Repr

/-- The B/W bit: a word or a byte operation (30_encoding.md R97). -/
inductive Width where
  | word
  | byte
  deriving DecidableEq, Repr

/-- The number w of bits an operation works on (00_scope.md R9). -/
abbrev Width.bits : Width → Nat
  | .word => 16
  | .byte => 8

/-- The constants of the constant generator (30_encoding.md R100): 0, 1, 2, 4, 8 and -1. -/
inductive CgConst where
  | zero
  | one
  | two
  | four
  | eight
  | minusOne
  deriving DecidableEq, Repr

/-- A source operand, with the index word it takes (30_encoding.md R98). -/
inductive Src where
  /-- `Rn`, As = 00, n ≠ 3. -/
  | reg (r : Reg)
  /-- `x(Rn)`, As = 01, n ≠ 0, 2, 3. -/
  | indexed (r : Reg) (x : Word)
  /-- `LABEL`, As = 01, n = 0. -/
  | symbolic (x : Word)
  /-- `&LABEL`, As = 01, n = 2. -/
  | absolute (x : Word)
  /-- `@Rn`, As = 10, n ≠ 2, 3 (n = 0 by the uniform rule of R120, log 24). -/
  | indirect (r : Reg)
  /-- `@Rn+`, As = 11, n ≠ 0, 2, 3. -/
  | autoinc (r : Reg)
  /-- `#x` with an index word, As = 11, n = 0. -/
  | imm (v : Word)
  /-- A generated constant, no index word (R100). -/
  | const (c : CgConst)
  deriving DecidableEq, Repr

/-- A destination operand of Format I, with the index word it takes (30_encoding.md R99). -/
inductive Dst where
  /-- `Rn`, Ad = 0; R3 discards (10_state.md R24). -/
  | reg (r : Reg)
  /-- `x(Rn)`, Ad = 1, n ≠ 0, 2; n = 3 decodes and is refused when it runs (R99). -/
  | indexed (r : Reg) (x : Word)
  /-- `LABEL`, Ad = 1, n = 0. -/
  | symbolic (x : Word)
  /-- `&LABEL`, Ad = 1, n = 2. -/
  | absolute (x : Word)
  deriving DecidableEq, Repr

/-- The instructions. The first 27 constructors are the core instructions (30_encoding.md R94 to R96), the other 24 the
emulated ones (44_emulated.md R231 to R254), which no word decodes to (R107, R230). -/
inductive Instr where
  -- Format II (R95)
  | rrc (bw : Width) (src : Src)
  | swpb (src : Src)
  | rra (bw : Width) (src : Src)
  | sxt (src : Src)
  | push (bw : Width) (src : Src)
  | call (src : Src)
  | reti
  -- jumps (R96)
  | jne (off : BitVec 10)
  | jeq (off : BitVec 10)
  | jnc (off : BitVec 10)
  | jc (off : BitVec 10)
  | jn (off : BitVec 10)
  | jge (off : BitVec 10)
  | jl (off : BitVec 10)
  | jmp (off : BitVec 10)
  -- Format I (R94)
  | mov (bw : Width) (src : Src) (dst : Dst)
  | add (bw : Width) (src : Src) (dst : Dst)
  | addc (bw : Width) (src : Src) (dst : Dst)
  | subc (bw : Width) (src : Src) (dst : Dst)
  | sub (bw : Width) (src : Src) (dst : Dst)
  | cmp (bw : Width) (src : Src) (dst : Dst)
  | dadd (bw : Width) (src : Src) (dst : Dst)
  | bit (bw : Width) (src : Src) (dst : Dst)
  | bic (bw : Width) (src : Src) (dst : Dst)
  | bis (bw : Width) (src : Src) (dst : Dst)
  | xor (bw : Width) (src : Src) (dst : Dst)
  | and (bw : Width) (src : Src) (dst : Dst)
  -- emulated (R231 to R254)
  | adc (bw : Width) (dst : Dst)
  | dadc (bw : Width) (dst : Dst)
  | dec (bw : Width) (dst : Dst)
  | decd (bw : Width) (dst : Dst)
  | inc (bw : Width) (dst : Dst)
  | incd (bw : Width) (dst : Dst)
  | sbc (bw : Width) (dst : Dst)
  | inv (bw : Width) (dst : Dst)
  | rla (bw : Width) (dst : Dst)
  | rlc (bw : Width) (dst : Dst)
  | br (src : Src)
  | dint
  | eint
  | nop
  | ret
  | clr (bw : Width) (dst : Dst)
  | clrc
  | clrn
  | clrz
  | pop (bw : Width) (dst : Dst)
  | setc
  | setn
  | setz
  | tst (bw : Width) (dst : Dst)
  deriving DecidableEq, Repr

/-- The source operand that names the same cell as a destination, for RLA and RLC (44_emulated.md R239). -/
def Dst.asSrc : Dst → Src
  | .reg r => .reg r
  | .indexed r x => .indexed r x
  | .symbolic x => .symbolic x
  | .absolute x => .absolute x

/-- The destination operand of RLA and RLC when `asSrc` comes first in the instruction: the index word is repeated, a
symbolic one 2 less, since it lies 2 further on (44_emulated.md R239). -/
def Dst.again : Dst → Dst
  | .symbolic x => .symbolic (x - 2)
  | d => d

/-- The core instruction an instruction is a spelling of (44_emulated.md R230 to R254; a core instruction is its own). -/
def Instr.expand : Instr → Instr
  | .adc bw d => .addc bw (.const .zero) d
  | .dadc bw d => .dadd bw (.const .zero) d
  | .dec bw d => .sub bw (.const .one) d
  | .decd bw d => .sub bw (.const .two) d
  | .inc bw d => .add bw (.const .one) d
  | .incd bw d => .add bw (.const .two) d
  | .sbc bw d => .subc bw (.const .zero) d
  | .inv bw d => .xor bw (.const .minusOne) d
  | .rla bw d => .add bw d.asSrc d.again
  | .rlc bw d => .addc bw d.asSrc d.again
  | .br s => .mov .word s (.reg .pc)
  | .dint => .bic .word (.const .eight) (.reg .sr)
  | .eint => .bis .word (.const .eight) (.reg .sr)
  | .nop => .mov .word (.const .zero) (.reg .cg)
  | .ret => .mov .word (.autoinc .sp) (.reg .pc)
  | .clr bw d => .mov bw (.const .zero) d
  | .clrc => .bic .word (.const .one) (.reg .sr)
  | .clrn => .bic .word (.const .four) (.reg .sr)
  | .clrz => .bic .word (.const .two) (.reg .sr)
  | .pop bw d => .mov bw (.autoinc .sp) d
  | .setc => .bis .word (.const .one) (.reg .sr)
  | .setn => .bis .word (.const .four) (.reg .sr)
  | .setz => .bis .word (.const .two) (.reg .sr)
  | .tst bw d => .cmp bw (.const .zero) d
  | .rrc bw s => .rrc bw s
  | .swpb s => .swpb s
  | .rra bw s => .rra bw s
  | .sxt s => .sxt s
  | .push bw s => .push bw s
  | .call s => .call s
  | .reti => .reti
  | .jne o => .jne o
  | .jeq o => .jeq o
  | .jnc o => .jnc o
  | .jc o => .jc o
  | .jn o => .jn o
  | .jge o => .jge o
  | .jl o => .jl o
  | .jmp o => .jmp o
  | .mov bw s d => .mov bw s d
  | .add bw s d => .add bw s d
  | .addc bw s d => .addc bw s d
  | .subc bw s d => .subc bw s d
  | .sub bw s d => .sub bw s d
  | .cmp bw s d => .cmp bw s d
  | .dadd bw s d => .dadd bw s d
  | .bit bw s d => .bit bw s d
  | .bic bw s d => .bic bw s d
  | .bis bw s d => .bis bw s d
  | .xor bw s d => .xor bw s d
  | .and bw s d => .and bw s d

end Sys2Proof
end

