-- ==== Sys2Proof/WellFormed.lean ====
section
/-! DEFINITION. Which instruction terms stand for an encoding (30_encoding.md R98, R99; 44_emulated.md R230). -/

namespace Sys2Proof

/-- The register restrictions of the source modes (30_encoding.md R98; `@PC` is admitted, R120). -/
def Src.wellFormed : Src → Bool
  | .reg r => r != .cg
  | .indexed r _ => r != .pc && r != .sr && r != .cg
  | .symbolic _ => true
  | .absolute _ => true
  | .indirect r => r != .sr && r != .cg
  | .autoinc r => r != .pc && r != .sr && r != .cg
  | .imm _ => true
  | .const _ => true

/-- The register restrictions of the destination modes (30_encoding.md R99). -/
def Dst.wellFormed : Dst → Bool
  | .reg _ => true
  | .indexed r _ => r != .pc && r != .sr
  | .symbolic _ => true
  | .absolute _ => true

/-- An instruction whose operands its encoding admits. For RLA and RLC the operand is a destination and a source at
once (44_emulated.md R230 (3)). -/
def Instr.wellFormed : Instr → Bool
  | .rrc _ s => s.wellFormed
  | .swpb s => s.wellFormed
  | .rra _ s => s.wellFormed
  | .sxt s => s.wellFormed
  | .push _ s => s.wellFormed
  | .call s => s.wellFormed
  | .reti => true
  | .jne _ => true
  | .jeq _ => true
  | .jnc _ => true
  | .jc _ => true
  | .jn _ => true
  | .jge _ => true
  | .jl _ => true
  | .jmp _ => true
  | .mov _ s d => s.wellFormed && d.wellFormed
  | .add _ s d => s.wellFormed && d.wellFormed
  | .addc _ s d => s.wellFormed && d.wellFormed
  | .subc _ s d => s.wellFormed && d.wellFormed
  | .sub _ s d => s.wellFormed && d.wellFormed
  | .cmp _ s d => s.wellFormed && d.wellFormed
  | .dadd _ s d => s.wellFormed && d.wellFormed
  | .bit _ s d => s.wellFormed && d.wellFormed
  | .bic _ s d => s.wellFormed && d.wellFormed
  | .bis _ s d => s.wellFormed && d.wellFormed
  | .xor _ s d => s.wellFormed && d.wellFormed
  | .and _ s d => s.wellFormed && d.wellFormed
  | .adc _ d => d.wellFormed
  | .dadc _ d => d.wellFormed
  | .dec _ d => d.wellFormed
  | .decd _ d => d.wellFormed
  | .inc _ d => d.wellFormed
  | .incd _ d => d.wellFormed
  | .sbc _ d => d.wellFormed
  | .inv _ d => d.wellFormed
  | .rla _ d => d.asSrc.wellFormed && d.wellFormed
  | .rlc _ d => d.asSrc.wellFormed && d.wellFormed
  | .br s => s.wellFormed
  | .dint => true
  | .eint => true
  | .nop => true
  | .ret => true
  | .clr _ d => d.wellFormed
  | .clrc => true
  | .clrn => true
  | .clrz => true
  | .pop _ d => d.wellFormed
  | .setc => true
  | .setn => true
  | .setz => true
  | .tst _ d => d.wellFormed

end Sys2Proof
end

