-- ==== Sys2Proof/Decode.lean ====
section
/-! DEFINITION. Decoding and encoding (30_encoding.md R90 to R107, R118, R119), from the same field tables. -/

namespace Sys2Proof

/-- Why a decoding stops: the words are no instruction, or there are too few of them. -/
inductive DecodeError where
  /-- An unassigned word (30_encoding.md R118). -/
  | unassigned (iw : Word)
  /-- A Format II variant the table excludes (30_encoding.md R119). -/
  | excludedVariant (iw : Word)
  /-- The words end before the instruction does. -/
  | truncated
  deriving DecidableEq, Repr

/-- The register of a 4-bit field (10_state.md R20). -/
def Reg.ofField (n : Nat) : Reg :=
  match n with
  | 0 => .pc
  | 1 => .sp
  | 2 => .sr
  | 3 => .cg
  | k + 4 => .gp (Fin.ofNat 12 k)

/-- The 4-bit field of a register (10_state.md R20). -/
def Reg.field : Reg → Nat
  | .pc => 0
  | .sp => 1
  | .sr => 2
  | .cg => 3
  | .gp i => i.val + 4

/-- The width of a B/W bit (30_encoding.md R97). -/
def Width.ofField (n : Nat) : Width := if n = 0 then .word else .byte

/-- The B/W bit of a width (30_encoding.md R97). -/
def Width.field : Width → Nat
  | .word => 0
  | .byte => 1

/-- The 4-bit opcode, source register, destination register and the smaller fields of an instruction word, as
`iw[hi:lo]` (30_encoding.md R91, R92, R93). -/
def opField (iw : Word) : Nat := iw.toNat / 4096
def srcField (iw : Word) : Nat := iw.toNat / 256 % 16
def adField (iw : Word) : Nat := iw.toNat / 128 % 2
def bwField (iw : Word) : Nat := iw.toNat / 64 % 2
def asField (iw : Word) : Nat := iw.toNat / 16 % 4
def dstField (iw : Word) : Nat := iw.toNat % 16
def op2Field (iw : Word) : Nat := iw.toNat / 128 % 8
def condField (iw : Word) : Nat := iw.toNat / 1024 % 8
def offField (iw : Word) : BitVec 10 := BitVec.ofNat 10 iw.toNat

/-- Whether a source mode takes an index word: `SrcExt` of 30_encoding.md R102. -/
def srcExtWords (as n : Nat) : Nat := if (as = 1 ∧ n ≠ 3) ∨ (as = 3 ∧ n = 0) then 1 else 0

/-- The index words that follow an instruction word (30_encoding.md R102); 0 for a word that is no instruction: SWPB, SXT and
CALL, the odd opcodes of Format II, have no byte form, and opcode 111 is unassigned (R118, R119). -/
def extWords (iw : Word) : Nat :=
  if iw.toNat / 8192 = 1 then 0
  else if iw.toNat / 1024 = 4 then
    if op2Field iw < 6 ∧ (bwField iw = 0 ∨ op2Field iw % 2 = 0) then srcExtWords (asField iw) (dstField iw) else 0
  else if 4 ≤ opField iw then srcExtWords (asField iw) (srcField iw) + adField iw
  else 0

/-- The first index word of the rest, given to a continuation. -/
def takeIndex {α : Type} (ws : List Word) (k : Word → α) : Except DecodeError (α × List Word) :=
  match ws with
  | [] => .error .truncated
  | x :: rest => .ok (k x, rest)

/-- The source operand of As and a register, with its index word (30_encoding.md R98, R100). -/
def decodeSrc (as : Nat) (r : Reg) (ws : List Word) : Except DecodeError (Src × List Word) :=
  match as, r with
  | 0, .cg => .ok (.const .zero, ws)
  | 0, r => .ok (.reg r, ws)
  | 1, .cg => .ok (.const .one, ws)
  | 1, .sr => takeIndex ws .absolute
  | 1, .pc => takeIndex ws .symbolic
  | 1, r => takeIndex ws (.indexed r)
  | 2, .sr => .ok (.const .four, ws)
  | 2, .cg => .ok (.const .two, ws)
  | 2, r => .ok (.indirect r, ws)
  | _, .sr => .ok (.const .eight, ws)
  | _, .cg => .ok (.const .minusOne, ws)
  | _, .pc => takeIndex ws .imm
  | _, r => .ok (.autoinc r, ws)

/-- The destination operand of Ad and a register, with its index word (30_encoding.md R99). -/
def decodeDst (ad : Nat) (r : Reg) (ws : List Word) : Except DecodeError (Dst × List Word) :=
  match ad, r with
  | 0, r => .ok (.reg r, ws)
  | _, .pc => takeIndex ws .symbolic
  | _, .sr => takeIndex ws .absolute
  | _, r => takeIndex ws (.indexed r)

/-- The Format I instruction of an opcode (30_encoding.md R94). -/
def formatIOf (op : Nat) (bw : Width) (s : Src) (d : Dst) : Instr :=
  match op with
  | 4 => .mov bw s d
  | 5 => .add bw s d
  | 6 => .addc bw s d
  | 7 => .subc bw s d
  | 8 => .sub bw s d
  | 9 => .cmp bw s d
  | 10 => .dadd bw s d
  | 11 => .bit bw s d
  | 12 => .bic bw s d
  | 13 => .bis bw s d
  | 14 => .xor bw s d
  | _ => .and bw s d

/-- The jump of a condition (30_encoding.md R96). -/
def jumpOf (c : Nat) (off : BitVec 10) : Instr :=
  match c with
  | 0 => .jne off
  | 1 => .jeq off
  | 2 => .jnc off
  | 3 => .jc off
  | 4 => .jn off
  | 5 => .jge off
  | 6 => .jl off
  | _ => .jmp off

/-- Format I: the source operand and its index word first, then the destination's (30_encoding.md R91, R101). -/
def decodeFormatI (iw : Word) (ws : List Word) : Except DecodeError (Instr × List Word) :=
  match decodeSrc (asField iw) (Reg.ofField (srcField iw)) ws with
  | .error e => .error e
  | .ok (s, ws1) =>
    match decodeDst (adField iw) (Reg.ofField (dstField iw)) ws1 with
    | .error e => .error e
    | .ok (d, ws2) => .ok (formatIOf (opField iw) (Width.ofField (bwField iw)) s d, ws2)

/-- A Format II instruction of one operand (30_encoding.md R92). -/
def decodeOperand (iw : Word) (ws : List Word) (k : Src → Instr) : Except DecodeError (Instr × List Word) :=
  match decodeSrc (asField iw) (Reg.ofField (dstField iw)) ws with
  | .error e => .error e
  | .ok (s, ws1) => .ok (k s, ws1)

/-- Format II by its 3-bit opcode and B/W bit (30_encoding.md R95, R118, R119). -/
def decodeFormatII (iw : Word) (ws : List Word) : Except DecodeError (Instr × List Word) :=
  match op2Field iw, bwField iw with
  | 0, b => decodeOperand iw ws (.rrc (Width.ofField b))
  | 1, 0 => decodeOperand iw ws .swpb
  | 2, b => decodeOperand iw ws (.rra (Width.ofField b))
  | 3, 0 => decodeOperand iw ws .sxt
  | 4, b => decodeOperand iw ws (.push (Width.ofField b))
  | 5, 0 => decodeOperand iw ws .call
  | 6, _ => if iw = 0x1300 then .ok (.reti, ws) else .error (.excludedVariant iw)
  | 7, _ => .error (.unassigned iw)
  | _, _ => .error (.excludedVariant iw)

/-- One instruction off the front of a stream of words, with the words that follow it: total on every word
(30_encoding.md R107). -/
def decode (ws : List Word) : Except DecodeError (Instr × List Word) :=
  match ws with
  | [] => .error .truncated
  | iw :: rest =>
    if iw.toNat / 8192 = 1 then .ok (jumpOf (condField iw) (offField iw), rest)
    else if iw.toNat / 1024 = 4 then decodeFormatII iw rest
    else if 4 ≤ opField iw then decodeFormatI iw rest
    else .error (.unassigned iw)

/-- The words of a stream of bytes, low byte first (20_memory.md R63); an odd last byte is dropped. -/
def wordsOfBytes : List Byte → List Word
  | lo :: hi :: rest => (hi ++ lo) :: wordsOfBytes rest
  | _ => []

/-- Decoding of bytes as they lie in memory (20_memory.md R63, R65). -/
def decodeBytes (bs : List Byte) : Except DecodeError (Instr × List Word) := decode (wordsOfBytes bs)

/-- As, register field and index words of a source operand (30_encoding.md R98, R100). -/
def encodeSrc : Src → Nat × Reg × List Word
  | .reg r => (0, r, [])
  | .indexed r x => (1, r, [x])
  | .symbolic x => (1, .pc, [x])
  | .absolute x => (1, .sr, [x])
  | .indirect r => (2, r, [])
  | .autoinc r => (3, r, [])
  | .imm v => (3, .pc, [v])
  | .const .zero => (0, .cg, [])
  | .const .one => (1, .cg, [])
  | .const .two => (2, .cg, [])
  | .const .minusOne => (3, .cg, [])
  | .const .four => (2, .sr, [])
  | .const .eight => (3, .sr, [])

/-- Ad, register field and index words of a destination operand (30_encoding.md R99). -/
def encodeDst : Dst → Nat × Reg × List Word
  | .reg r => (0, r, [])
  | .indexed r x => (1, r, [x])
  | .symbolic x => (1, .pc, [x])
  | .absolute x => (1, .sr, [x])

/-- `op(4) | s(4) | Ad | bw | As(2) | d(4)` and its index words (30_encoding.md R91, R101). -/
def encodeFormatI (op : Nat) (bw : Width) (s : Src) (d : Dst) : List Word :=
  BitVec.ofNat 16 (op * 4096 + (encodeSrc s).2.1.field * 256 + (encodeDst d).1 * 128 + bw.field * 64 + (encodeSrc s).1 * 16 +
    (encodeDst d).2.1.field) :: ((encodeSrc s).2.2 ++ (encodeDst d).2.2)

/-- `000100 | op(3) | bw | As(2) | r(4)` and its index word (30_encoding.md R92). -/
def encodeFormatII (op : Nat) (bw : Width) (s : Src) : List Word :=
  BitVec.ofNat 16 (4096 + op * 128 + bw.field * 64 + (encodeSrc s).1 * 16 + (encodeSrc s).2.1.field) :: (encodeSrc s).2.2

/-- `001 | c(3) | offset(10)` (30_encoding.md R93). -/
def encodeJump (c : Nat) (off : BitVec 10) : List Word := [BitVec.ofNat 16 (8192 + c * 1024 + off.toNat)]

/-- The words of a core instruction; an emulated one has none of its own (30_encoding.md R94 to R96). -/
def encodeCore : Instr → List Word
  | .rrc bw s => encodeFormatII 0 bw s
  | .swpb s => encodeFormatII 1 .word s
  | .rra bw s => encodeFormatII 2 bw s
  | .sxt s => encodeFormatII 3 .word s
  | .push bw s => encodeFormatII 4 bw s
  | .call s => encodeFormatII 5 .word s
  | .reti => [0x1300]
  | .jne o => encodeJump 0 o
  | .jeq o => encodeJump 1 o
  | .jnc o => encodeJump 2 o
  | .jc o => encodeJump 3 o
  | .jn o => encodeJump 4 o
  | .jge o => encodeJump 5 o
  | .jl o => encodeJump 6 o
  | .jmp o => encodeJump 7 o
  | .mov bw s d => encodeFormatI 4 bw s d
  | .add bw s d => encodeFormatI 5 bw s d
  | .addc bw s d => encodeFormatI 6 bw s d
  | .subc bw s d => encodeFormatI 7 bw s d
  | .sub bw s d => encodeFormatI 8 bw s d
  | .cmp bw s d => encodeFormatI 9 bw s d
  | .dadd bw s d => encodeFormatI 10 bw s d
  | .bit bw s d => encodeFormatI 11 bw s d
  | .bic bw s d => encodeFormatI 12 bw s d
  | .bis bw s d => encodeFormatI 13 bw s d
  | .xor bw s d => encodeFormatI 14 bw s d
  | .and bw s d => encodeFormatI 15 bw s d
  | .adc _ _ => []
  | .dadc _ _ => []
  | .dec _ _ => []
  | .decd _ _ => []
  | .inc _ _ => []
  | .incd _ _ => []
  | .sbc _ _ => []
  | .inv _ _ => []
  | .rla _ _ => []
  | .rlc _ _ => []
  | .br _ => []
  | .dint => []
  | .eint => []
  | .nop => []
  | .ret => []
  | .clr _ _ => []
  | .clrc => []
  | .clrn => []
  | .clrz => []
  | .pop _ _ => []
  | .setc => []
  | .setn => []
  | .setz => []
  | .tst _ _ => []

/-- The words of an instruction: an emulated one is written as the core instruction it expands to (44_emulated.md R230). -/
def encode (i : Instr) : List Word := encodeCore i.expand

/-- The bytes of the low `nbits` bits of `w` over six bytes, the longest instruction: bit 0 of `w` is bit 0 of the first
word, and each word lies low byte first (20_memory.md R63). -/
def tableBytes (nbits w : Nat) : List Byte :=
  (List.range 6).map fun k => BitVec.ofNat 8 (w % 2 ^ nbits / 256 ^ k)

/-- The instruction the decoder reads from a word of the opcode table, the bits above `nbits` being 0. -/
def decodeTableWord (nbits w : Nat) : Option Instr :=
  match decodeBytes (tableBytes nbits w) with
  | .ok (i, _) => some i
  | .error _ => none

end Sys2Proof
end

