-- ==== Sys2Proof/Config.lean ====
section
/-! DEFINITION. What an implementation fixes (the types of the platform parameters of 00_scope.md R6) and the
free values: constants without a body, of which nothing can be proved. -/

namespace Sys2Proof

/-- The two ports with registers in the spec (60_exceptions.md R350). -/
inductive PortId where
  | p1
  | p2
  deriving DecidableEq, Repr

/-- The nine registers of a port (60_exceptions.md R351, R352). -/
inductive PortReg where
  | pxin
  | pxout
  | pxdir
  | pxifg
  | pxies
  | pxie
  | pxsel
  | pxsel2
  | pxren
  deriving DecidableEq, Repr

/-- The 16-bit registers of Timer_A (60_exceptions.md R370, R372). -/
inductive TimerReg where
  | tactl
  | tar
  | tacctl (x : Nat)
  | taccr (x : Nat)
  deriving DecidableEq, Repr

/-- What `MEM_MAP` says of an address (20_memory.md R71). A map cannot say that a peripheral register takes the other width,
which D29 leaves to it: DESIGN CHOICE, log 30. -/
inductive RegionKind where
  /-- Read and write memory. -/
  | ram
  /-- Read-only program memory. -/
  | rom
  /-- An 8-bit port register. -/
  | port (x : PortId) (r : PortReg)
  /-- A 16-bit timer register. -/
  | timer (r : TimerReg)
  /-- Nothing the spec describes. -/
  | unimplemented
  deriving DecidableEq, Repr

/-- `size` addresses from `base` on, all of one kind. -/
structure Region where
  base : Nat
  size : Nat
  kind : RegionKind
  deriving DecidableEq, Repr

/-- The interrupt sources the spec names (60_exceptions.md R301, R306). -/
inductive IrqSource where
  /-- TAIFG, enabled by TAIE. -/
  | taifg
  /-- CCIFG of capture/compare block `x`, enabled by its CCIE. -/
  | ccifg (x : Nat)
  /-- Bit `k` of PxIFG, enabled by bit `k` of PxIE. -/
  | port (x : PortId) (k : Fin 8)
  /-- A nonmaskable source of the platform. -/
  | nmi (k : Nat)
  deriving DecidableEq, Repr

/-- One entry of `VECTORS` (60_exceptions.md R304): where the vector word lies, its priority, its sources. -/
structure VectorEntry where
  address : Word
  priority : Nat
  sources : List IrqSource
  deriving DecidableEq, Repr

/-- The parameters of 00_scope.md R6 that the source leaves open and a model takes as arguments.
`memMap` is MEM_MAP with P2_ADDRESSES and TIMER_A_ADDRESSES in it: the first region that holds an address decides.
The record stands in State and no step changes it (log 27). -/
structure Platform where
  memMap : List Region
  vectors : List VectorEntry
  resetVector : Word
  nmiSources : List Nat
  /-- TIMER_A_CCR_COUNT (60_exceptions.md R370). -/
  ccrCount : Nat
  /-- MOV_READS_DST (43_two_operand.md R201): whether MOV reads a memory destination before writing it. Log 25. -/
  movReadsDst : Bool
  deriving DecidableEq, Repr

/-- The free bit of a draw: V after RRC (R161), V after DADD and all flags on a non-decimal digit (R144),
the slack of R303, the winner on OUTx (R376), which count a synchronised capture takes (R375), whether MOV to TACCRx counts as
a read of it (R201). Logs 9, 10, 12, 13, 25, 36. -/
opaque Config.freeBit : Nat → Bool

/-- The free word of a draw: DADD's result on a non-decimal digit (R144), a register after a reset event (R401).
Logs 10, 14. -/
opaque Config.freeWord : Nat → Word

/-- The free byte of a draw, by address: a RAM byte after a reset event (R401). Log 14. -/
opaque Config.freeByte : Nat → Nat → Byte

/-- The free byte of a draw that PxIN shows of the pins that are no digital I/O pins (60_exceptions.md R353, R359). Log 19. -/
opaque Config.freePins : Nat → Byte

/-- PUSH_SP_VALUE (41_single_operand.md R165): whether `PUSH SP` stores the old SP (true) or the old SP minus 2.
Log 11. -/
opaque Config.pushSpStoresOld : Bool

end Sys2Proof
end

