-- ==== Sys2Proof/Machine/Platform.lean ====
section
/-! DEFINITION. The default platform: the spec's default for every parameter of 00_scope.md R6 that it leaves open. -/

namespace Sys2Proof.Machine

/-- P1's registers at the addresses the source gives (60_exceptions.md R351). -/
def port1Map : List Region :=
  [⟨0x20, 1, .port .p1 .pxin⟩, ⟨0x21, 1, .port .p1 .pxout⟩, ⟨0x22, 1, .port .p1 .pxdir⟩,
   ⟨0x23, 1, .port .p1 .pxifg⟩, ⟨0x24, 1, .port .p1 .pxies⟩, ⟨0x25, 1, .port .p1 .pxie⟩,
   ⟨0x26, 1, .port .p1 .pxsel⟩, ⟨0x27, 1, .port .p1 .pxren⟩, ⟨0x41, 1, .port .p1 .pxsel2⟩]

/-- P2_ADDRESSES at its defaults (60_exceptions.md R352). PRESUMED, log 6. -/
def port2Map : List Region :=
  [⟨0x28, 1, .port .p2 .pxin⟩, ⟨0x29, 1, .port .p2 .pxout⟩, ⟨0x2A, 1, .port .p2 .pxdir⟩,
   ⟨0x2B, 1, .port .p2 .pxifg⟩, ⟨0x2C, 1, .port .p2 .pxies⟩, ⟨0x2D, 1, .port .p2 .pxie⟩,
   ⟨0x2E, 1, .port .p2 .pxsel⟩, ⟨0x2F, 1, .port .p2 .pxren⟩, ⟨0x42, 1, .port .p2 .pxsel2⟩]

/-- TIMER_A_ADDRESSES at its defaults (60_exceptions.md R372). PRESUMED, log 6. -/
def timerMap : List Region :=
  [⟨0x160, 2, .timer .tactl⟩, ⟨0x162, 2, .timer (.tacctl 0)⟩, ⟨0x164, 2, .timer (.tacctl 1)⟩,
   ⟨0x166, 2, .timer (.tacctl 2)⟩, ⟨0x170, 2, .timer .tar⟩, ⟨0x172, 2, .timer (.taccr 0)⟩,
   ⟨0x174, 2, .timer (.taccr 1)⟩, ⟨0x176, 2, .timer (.taccr 2)⟩]

/-- MEM_MAP at the model's default: the registers above, TAIV's word unimplemented (R372 leaves its behaviour out), and RAM
everywhere else. DESIGN CHOICE, unsafe, log 3. -/
def defaultMap : List Region :=
  port1Map ++ port2Map ++ timerMap ++ [⟨0x12E, 2, .unimplemented⟩, ⟨0, 0x10000, .ram⟩]

/-- The eight flags of a port, one vector (60_exceptions.md R362). -/
def portSources (x : PortId) : List IrqSource :=
  [.port x 0, .port x 1, .port x 2, .port x 3, .port x 4, .port x 5, .port x 6, .port x 7]

/-- VECTORS at the table of 60_exceptions.md R305, less the sources the spec does not describe. PRESUMED, log 7. -/
def defaultVectors : List VectorEntry :=
  [⟨0xFFF2, 25, [.ccifg 0]⟩, ⟨0xFFF0, 24, [.ccifg 1, .ccifg 2, .taifg]⟩,
   ⟨0xFFE6, 19, portSources .p2⟩, ⟨0xFFE4, 18, portSources .p1⟩]

/-- The platform State.reset holds: RESET_VECTOR 0FFFEh, NMI_SOURCES none, TIMER_A_CCR_COUNT 3 (00_scope.md R6). -/
def defaultPlatform : Platform where
  memMap := defaultMap
  vectors := defaultVectors
  resetVector := 0xFFFE
  nmiSources := []
  ccrCount := 3
  movReadsDst := false

end Sys2Proof.Machine
end

