-- ==== Sys2Proof/Machine/State.lean ====
section
/-! DEFINITION. The machine's state, its value after reset, and the reasons a step can stop. -/

namespace Sys2Proof.Machine

/-- One port (60_exceptions.md R353 to R360). `level` is the hidden level of each pin, read through PxIN (R363); `maySet`
is the mask of PxIFG bits that MaySetFlag may set, since the last CPU step wrote PxOUT, PxDIR or PxIES (R361, R363). -/
structure PortState where
  out : Byte
  dir : Byte
  ifg : Byte
  ies : Byte
  ie : Byte
  sel : Byte
  sel2 : Byte
  ren : Byte
  level : Byte
  maySet : Byte
  deriving DecidableEq, Repr

/-- One capture/compare block of Timer_A (60_exceptions.md R375, R376). `ctl` holds the writable bits of TACCTLx, with 0 in
bits 10, 9 and 3; `scci` is the latch read in bit 10; `inA` and `inB` are the input signals CCIxA and CCIxB; `outx` is
the output signal OUTx; `unread` says that TACCRx holds a captured value nothing has read (R375, COV); `waiting` that a
synchronised capture has had its edge and waits for the timer clock (R375, SCS; log 36). -/
structure CcBlock where
  ctl : Word
  ccr : Word
  scci : Bool
  inA : Bool
  inB : Bool
  outx : Bool
  unread : Bool
  waiting : Bool
  deriving DecidableEq, Repr

/-- Timer_A (60_exceptions.md R370 to R377). `tactl` holds TACTL with 0 in bit 2 (R374); `divider` is the phase of the
input divider and `down` the count direction, both reset by TACLR; `blocks` are the capture/compare blocks 0, 1, ... -/
structure TimerState where
  tactl : Word
  tar : Word
  divider : BitVec 3
  down : Bool
  blocks : List CcBlock
  deriving DecidableEq, Repr

/-- What an agent other than the CPU may do between two CPU steps. -/
inductive EnvAction where
  /-- The environment raises reset (70_reset_and_hazards.md R400, R401). -/
  | reset
  /-- `PinChange(x, k, new)` (60_exceptions.md R363). -/
  | pinChange (x : PortId) (k : Fin 8) (new : Bool)
  /-- `MaySetFlag(x, k)`: only directly after a covered CPU write (60_exceptions.md R361, R363). -/
  | maySetFlag (x : PortId) (k : Fin 8)
  /-- `TimerCount()`: one period of the selected, divided clock (60_exceptions.md R377). -/
  | timerCount
  /-- One period of the selected clock before the input divider (60_exceptions.md R373, IDx). -/
  | timerClock
  /-- The minimal abstraction of 60_exceptions.md R371: TAIFG becomes set. -/
  | timerSetTaifg
  /-- R371: CCIFG of block `x` becomes set. -/
  | timerSetCcifg (x : Nat)
  /-- R371: TAR changes. -/
  | timerSetTar (v : Word)
  /-- R371: COV of block `x` becomes `b`. -/
  | timerSetCov (x : Nat) (b : Bool)
  /-- R371: SCCI of block `x` becomes `b`. -/
  | timerSetScci (x : Nat) (b : Bool)
  /-- R371: the output signal OUTx of block `x` becomes `b`. -/
  | timerSetOut (x : Nat) (b : Bool)
  /-- R371: CCI of block `x` changes, with no capture: CCIxA (`second` false) or CCIxB (true) becomes `new`. -/
  | timerSetCci (x : Nat) (second : Bool) (new : Bool)
  /-- The input signal CCIxA (`second` false) or CCIxB (true) of block `x` becomes `new`; in capture mode the selected edge
  captures (60_exceptions.md R375, R377). -/
  | captureInput (x : Nat) (second : Bool) (new : Bool)
  /-- A nonmaskable source of the platform requests (60_exceptions.md R306). -/
  | nmiRequest (k : Nat)
  /-- A nonmaskable source withdraws its request. -/
  | nmiWithdraw (k : Nat)
  deriving DecidableEq, Repr

/-- Which agent moves: the CPU, or another one, between CPU steps only (20_memory.md R69, R76; logs 15, 38). -/
inductive Turn where
  | cpu
  | env (a : EnvAction)
  deriving DecidableEq, Repr

/-- The state of the machine (10_state.md R20 to R37). `gpr` holds R4 to R15; R3 has no cell (R24). `gieRose`, `draws` and
`agenda` are the model's own (logs 12, 31, 15); `platform` never changes (log 27). -/
structure State where
  pc : Word
  sp : Word
  sr : Word
  gpr : Vector Word 12
  mem : List Host.Cell
  p1 : PortState
  p2 : PortState
  timer : TimerState
  nmi : List Nat
  gieRose : Bool
  draws : Nat
  agenda : List Turn
  platform : Platform
  deriving DecidableEq, Repr

/-- Why an operand combination is refused: the reasons of `UnspecifiedOperand` (00_scope.md R10). -/
inductive OperandReason where
  /-- RRC, RRA, SWPB or SXT of a generated constant or an immediate (41_single_operand.md R160). -/
  | constantNotWritable
  /-- A byte instruction that stores into PC, SP or SR (40_operands.md R140). -/
  | byteStoreToSpecial
  /-- A flag-writing instruction that stores into SR (10_state.md R31). -/
  | flagsIntoSr
  /-- Source PC register direct together with a destination index word (40_operands.md R134). -/
  | pcSourceWithIndexWord
  /-- Destination Ad = 1 with R3 (10_state.md R24, 40_operands.md R133). -/
  | indexedR3
  deriving DecidableEq, Repr

/-- Why a step faults (00_scope.md R10). -/
inductive Fault where
  /-- Raised by fetching: the word at PC is no instruction (30_encoding.md R118, R119). Safe: the chip goes on somehow. -/
  | illegalEncoding (iw : Word)
  /-- Raised by a memory access that MEM_MAP does not admit, by a write to read-only memory, and by an access of the wrong
  width to a peripheral register (20_memory.md R72, R73). Safe: the model stops where the spec gives no effect. -/
  | unmappedAccess (a : Word)
  /-- Raised by a read of a memory byte that nothing has written since reset (10_state.md R37, D39). Safe: the chip reads
  some value. -/
  | uninitialisedRead (a : Word)
  deriving DecidableEq, Repr

/-- Why a step is refused. -/
inductive Refusal where
  /-- Raised by `exec` for an instruction that has no meaning yet; no arm does. Safe. -/
  | notModelled (mnemonic : String)
  /-- Raised by an instruction whose operand form the spec gives no meaning (00_scope.md R10, 30_encoding.md R120). Safe: the
  model stops where the chip does something no source tells. -/
  | unspecifiedOperand (reason : OperandReason)
  deriving DecidableEq, Repr

/-- A port after reset (10_state.md R36). PxOUT, PxIES and the pin levels have no value in the spec: DESIGN CHOICE 0, log 1. -/
def PortState.reset : PortState where
  out := 0
  dir := 0
  ifg := 0
  ies := 0
  ie := 0
  sel := 0
  sel2 := 0
  ren := 0
  level := 0
  maySet := 0

/-- A capture/compare block after reset (10_state.md R36, 60_exceptions.md R372): no capture has been made, and none waits.
Logs 1, 6, 36. -/
def CcBlock.reset : CcBlock where
  ctl := 0
  ccr := 0
  scci := false
  inA := false
  inB := false
  outx := false
  unread := false
  waiting := false

/-- Timer_A after reset (10_state.md R36, 60_exceptions.md R372): stopped, counting up, three blocks. Logs 1, 6. -/
def TimerState.reset : TimerState where
  tactl := 0
  tar := 0
  divider := 0
  down := false
  blocks := [CcBlock.reset, CcBlock.reset, CcBlock.reset]

/-- The machine right after reset (10_state.md R36, 70_reset_and_hazards.md R401, R402). SR is 0; no memory byte has a value; PC is
the word at RESET_VECTOR, which no byte of memory holds yet: DESIGN CHOICE 0, log 2. SP and R4 to R15 are unspecified: DESIGN
CHOICE 0, log 1. -/
def State.reset : State where
  pc := 0
  sp := 0
  sr := 0
  gpr := Vector.replicate 12 0
  mem := []
  p1 := PortState.reset
  p2 := PortState.reset
  timer := TimerState.reset
  nmi := []
  gieRose := false
  draws := 0
  agenda := []
  platform := defaultPlatform

end Sys2Proof.Machine
end

