-- ==== Sys2Proof/Machine/Flags.lean ====
section
/-! DEFINITION. The status register's bits (10_state.md R26 to R30) and every arithmetic and flag function of the spec
(40_operands.md R141 to R146). -/

namespace Sys2Proof.Machine

/-- The bits of SR (10_state.md R26). -/
def State.carry (s : State) : Bool := s.sr.getLsbD 0
def State.zero (s : State) : Bool := s.sr.getLsbD 1
def State.negative (s : State) : Bool := s.sr.getLsbD 2
def State.gie (s : State) : Bool := s.sr.getLsbD 3
def State.cpuOff (s : State) : Bool := s.sr.getLsbD 4
def State.oscOff (s : State) : Bool := s.sr.getLsbD 5
def State.scg0 (s : State) : Bool := s.sr.getLsbD 6
def State.scg1 (s : State) : Bool := s.sr.getLsbD 7
def State.overflow (s : State) : Bool := s.sr.getLsbD 8

/-- The operating modes of the table of 60_exceptions.md R330. -/
inductive PowerMode where
  | active
  | lpm0
  | lpm1
  | lpm2
  | lpm3
  | lpm4
  deriving DecidableEq, Repr

/-- The mode the four low-power bits select; none for the ten combinations outside the table (R330). -/
def State.powerMode (s : State) : Option PowerMode :=
  match s.scg1, s.scg0, s.oscOff, s.cpuOff with
  | false, false, false, false => some .active
  | false, false, false, true => some .lpm0
  | false, true, false, true => some .lpm1
  | true, false, false, true => some .lpm2
  | true, true, false, true => some .lpm3
  | true, true, true, true => some .lpm4
  | _, _, _, _ => none

/-- The four arithmetic flags an instruction computes. -/
structure Flags where
  v : Bool
  n : Bool
  z : Bool
  c : Bool
  deriving DecidableEq, Repr

/-- The flags at their places in SR: V bit 8, N bit 2, Z bit 1, C bit 0 (10_state.md R26). -/
def Flags.bits (f : Flags) : Word :=
  (if f.v then 0x0100 else 0) ||| (if f.n then 0x0004 else 0) ||| (if f.z then 0x0002 else 0) |||
    (if f.c then 0x0001 else 0)

/-- SR with the four flags replaced and every other bit kept (40_operands.md R146). -/
def Flags.into (f : Flags) (sr : Word) : Word := (sr &&& 0xFEF8) ||| f.bits

/-- What an operation computes: its result, the flags it writes if it writes any, and how many free values it drew. -/
structure Alu (w : Nat) where
  res : BitVec w
  flags : Option Flags
  draws : Nat

/-- `AddW(a, b, cin, w)` (40_operands.md R141). -/
def addW {w : Nat} (a b : BitVec w) (cin : Bool) : Alu w :=
  let full := a.toNat + b.toNat + cin.toNat
  let res := BitVec.ofNat w full
  { res := res
    flags := some { v := a.msb == b.msb && res.msb != a.msb, n := res.msb, z := res == 0, c := decide (2 ^ w ≤ full) }
    draws := 0 }

/-- `SubW(dst, src, cin, w)` (40_operands.md R142). -/
def subW {w : Nat} (dst src : BitVec w) (cin : Bool) : Alu w := addW dst (~~~src) cin

/-- `LogicFlags(res, w)` with the given V (40_operands.md R143). -/
def logicFlags {w : Nat} (res : BitVec w) (v : Bool) : Flags :=
  { v := v, n := res.msb, z := res == 0, c := res != 0 }

/-- AND and BIT: V = 0 (40_operands.md R143). -/
def andW {w : Nat} (src dst : BitVec w) : Alu w :=
  let res := src &&& dst
  { res := res, flags := some (logicFlags res false), draws := 0 }

/-- XOR: V is set when both operands are negative (40_operands.md R143). -/
def xorW {w : Nat} (src dst : BitVec w) : Alu w :=
  let res := src ^^^ dst
  { res := res, flags := some (logicFlags res (src.msb && dst.msb)), draws := 0 }

/-- BIC, without flags (43_two_operand.md R210). -/
def bicW {w : Nat} (src dst : BitVec w) : Alu w := { res := ~~~src &&& dst, flags := none, draws := 0 }

/-- BIS, without flags (43_two_operand.md R211). -/
def bisW {w : Nat} (src dst : BitVec w) : Alu w := { res := src ||| dst, flags := none, draws := 0 }

/-- MOV, without flags (43_two_operand.md R202). -/
def movW {w : Nat} (src : BitVec w) : Alu w := { res := src, flags := none, draws := 0 }

/-- Whether the `k` low digits of a number are decimal (40_operands.md R144). -/
def decimalDigits : Nat → Nat → Bool
  | 0, _ => true
  | k + 1, a => decide (a % 16 ≤ 9) && decimalDigits k (a / 16)

/-- The digit-serial sum of the `k` low digits, least significant first, with the carry out (40_operands.md R144). -/
def daddDigits : Nat → Nat → Nat → Bool → Nat × Bool
  | 0, _, _, carry => (0, carry)
  | k + 1, a, b, carry =>
    let t := a % 16 + b % 16 + carry.toNat
    let r := daddDigits k (a / 16) (b / 16) (decide (10 ≤ t))
    ((if 10 ≤ t then t - 10 else t) + 16 * r.1, r.2)

/-- `DaddW(a, b, cin, w)` (40_operands.md R144), `d` being the draws used so far. V is a free value; on a digit above 9
the result and all four flags are (DADD_INVALID; log 10). -/
def daddW {w : Nat} (a b : BitVec w) (cin : Bool) (d : Nat) : Alu w :=
  if decimalDigits (w / 4) a.toNat && decimalDigits (w / 4) b.toNat then
    let r := daddDigits (w / 4) a.toNat b.toNat cin
    let res := BitVec.ofNat w r.1
    { res := res, flags := some { v := Config.freeBit d, n := res.msb, z := res == 0, c := r.2 }, draws := 1 }
  else
    { res := (Config.freeWord d).setWidth w
      flags := some { v := Config.freeBit d, n := Config.freeBit (d + 1), z := Config.freeBit (d + 2),
                      c := Config.freeBit (d + 3) }
      draws := 4 }

/-- `RrcW(v, cin, w)` (40_operands.md R145, 41_single_operand.md R161): V is 0 unless the old carry is 1 and the operand is not
negative, where it is a free value (RRC_V_RULE; log 9). -/
def rrcW {w : Nat} (v : BitVec w) (cin : Bool) (d : Nat) : Alu w :=
  let res := (v >>> 1) ||| (if cin then BitVec.twoPow w (w - 1) else 0)
  let open_ := cin && !v.msb
  { res := res
    flags := some { v := open_ && Config.freeBit d, n := res.msb, z := res == 0, c := v.getLsbD 0 }
    draws := open_.toNat }

/-- `RraW(v, w)` (40_operands.md R145, 41_single_operand.md R163). -/
def rraW {w : Nat} (v : BitVec w) : Alu w :=
  let res := v.sshiftRight 1
  { res := res, flags := some { v := false, n := res.msb, z := res == 0, c := v.getLsbD 0 }, draws := 0 }

/-- SWPB, without flags (41_single_operand.md R162). -/
def swpbW (v : Word) : Alu 16 :=
  { res := v.extractLsb' 0 8 ++ v.extractLsb' 8 8, flags := none, draws := 0 }

/-- SXT (41_single_operand.md R164). -/
def sxtW (v : Word) : Alu 16 :=
  let res := (v.setWidth 8).signExtend 16
  { res := res, flags := some (logicFlags res false), draws := 0 }

end Sys2Proof.Machine
end

