-- ==== Sys2Proof/Machine/Memory.lean ====
section
/-! DEFINITION. Memory as a list of (address, byte) pairs with strictly rising addresses (20_memory.md R60, R62). -/

namespace Sys2Proof.Machine

/-- What an address that is not listed reads as: no value, since nothing has written it (10_state.md R37). Safe, log 4. -/
def Memory.unlisted : Option Byte := none

/-- The byte at an address (20_memory.md R62). -/
def Memory.read : List Host.Cell → Nat → Option Byte
  | [], _ => Memory.unlisted
  | c :: rest, a => if c.1 = a then some c.2 else Memory.read rest a

/-- Storing a byte at an address, and at no other (20_memory.md R62). -/
def Memory.write : List Host.Cell → Nat → Byte → List Host.Cell
  | [], a, v => [(a, v)]
  | c :: rest, a, v =>
    if a < c.1 then (a, v) :: c :: rest
    else if a = c.1 then (a, v) :: rest
    else c :: Memory.write rest a v

/-- The canonical form: addresses strictly rising, all of them in the address space (20_memory.md R60). No entry equals what
an unlisted address reads as, since that is no value. -/
abbrev Memory.wf (m : List Host.Cell) : Prop :=
  m.Pairwise (fun c d => c.1 < d.1) ∧ ∀ c ∈ m, c.1 < 65536

end Sys2Proof.Machine
end

