-- ==== Sys2Proof/Machine/Ports.lean ====
section
/-! DEFINITION. Ports P1 and P2: register reads and writes, the pin agent, the pins as outputs (60_exceptions.md R350 to R363). -/

namespace Sys2Proof.Machine

/-- `v` with bit `k` made `b`. -/
def setBit {w : Nat} (v : BitVec w) (k : Nat) (b : Bool) : BitVec w :=
  if b then v ||| BitVec.twoPow w k else v &&& ~~~(BitVec.twoPow w k)

/-- The pins given to another function than digital I/O: PxSEL.k or PxSEL2.k is 1 (R359). -/
def PortState.modulePins (p : PortState) : Byte := p.sel ||| p.sel2

/-- What PxIN reads: the level of each digital I/O pin, and a free bit of draw `d` for every other pin (R353, R359; log 19). -/
def PortState.input (p : PortState) (d : Nat) : Byte :=
  (p.level &&& ~~~p.modulePins) ||| (Config.freePins d &&& p.modulePins)

/-- The value a read of a port register gives, the `d`-th draw being the next one. -/
def PortState.read (p : PortState) (d : Nat) : PortReg → Byte
  | .pxin => p.input d
  | .pxout => p.out
  | .pxdir => p.dir
  | .pxifg => p.ifg
  | .pxies => p.ies
  | .pxie => p.ie
  | .pxsel => p.sel
  | .pxsel2 => p.sel2
  | .pxren => p.ren

/-- A write to a port register. PxIN stores nothing (R353). After a write to PxOUT or PxDIR the pin agent may set any flag of
the port, after one to PxIES the flags whose edge select changed (R361 (a), (b); log 20). -/
def PortState.write (p : PortState) (r : PortReg) (v : Byte) : PortState :=
  match r with
  | .pxin => p
  | .pxout => { p with out := v, maySet := 0xFF }
  | .pxdir => { p with dir := v, maySet := 0xFF }
  | .pxifg => { p with ifg := v }
  | .pxies => { p with ies := v, maySet := p.maySet ||| (p.ies ^^^ v) }
  | .pxie => { p with ie := v }
  | .pxsel => { p with sel := v }
  | .pxsel2 => { p with sel2 := v }
  | .pxren => { p with ren := v }

/-- Whether pin `k` is a digital I/O pin, PxSEL.k = PxSEL2.k = 0: the pins to which R353 to R358 apply (R359). -/
def PortState.isIo (p : PortState) (k : Fin 8) : Bool := !p.sel.getLsbD k && !p.sel2.getLsbD k

/-- What pin `k` is driven to from inside, seen from outside: bit `k` of PxOUT when PxDIR.k = 1 and the pin is digital I/O
(R354, R359). -/
def PortState.drives (p : PortState) (k : Fin 8) : Option Bool :=
  if p.dir.getLsbD k && p.isIo k then some (p.out.getLsbD k) else none

/-- `PinChange(x, k, new)` on the port (R363): the level changes, and a digital I/O pin's flag is set by the selected edge. -/
def PortState.pinChange (p : PortState) (k : Fin 8) (new : Bool) : PortState :=
  let old := p.level.getLsbD k
  let edge := if p.ies.getLsbD k then old && !new else !old && new
  { p with level := setBit p.level k new, ifg := if p.isIo k && edge then setBit p.ifg k true else p.ifg }

/-- `MaySetFlag(x, k)` on the port: only a flag the last CPU step's write put at risk (R361, R363), and only of a digital I/O pin:
not while PxSEL.k = 1 (R361 (c)), nor with the reserved function PxSEL2.k = 1, PxSEL.k = 0, to whose flag the pin agent does
nothing (93_implementation_defined.md row 18; log 33). -/
def PortState.maySetFlag (p : PortState) (k : Fin 8) : PortState :=
  if p.maySet.getLsbD k && p.isIo k then { p with ifg := setBit p.ifg k true } else p

/-- A port across a reset event: the registers marked 'Reset with PUC' become 0, PxOUT and PxIES keep their value, the pins
stay as the outside drives them (60_exceptions.md R351, 90_conflicts.md C7). -/
def PortState.puc (p : PortState) : PortState :=
  { p with dir := 0, ifg := 0, ie := 0, sel := 0, sel2 := 0, ren := 0, maySet := 0 }

/-- The port of a name. -/
def State.port (s : State) : PortId → PortState
  | .p1 => s.p1
  | .p2 => s.p2

/-- The state with a port replaced. -/
def State.setPort (s : State) (x : PortId) (p : PortState) : State :=
  match x with
  | .p1 => { s with p1 := p }
  | .p2 => { s with p2 := p }

end Sys2Proof.Machine
end

