-- ==== Sys2Proof/Machine/Timer.lean ====
section
/-! DEFINITION. Timer_A: register reads and writes, and the timer agent (60_exceptions.md R370 to R378). -/

namespace Sys2Proof.Machine

/-- Fields of TACTL (R373). -/
def TimerState.tassel (t : TimerState) : Nat := t.tactl.toNat / 256 % 4
def TimerState.divShift (t : TimerState) : Nat := t.tactl.toNat / 64 % 4
def TimerState.mode (t : TimerState) : Nat := t.tactl.toNat / 16 % 4
def TimerState.taie (t : TimerState) : Bool := t.tactl.getLsbD 1
def TimerState.taifg (t : TimerState) : Bool := t.tactl.getLsbD 0

/-- Fields of TACCTLx (R375). -/
def CcBlock.captureMode (b : CcBlock) : Nat := b.ctl.toNat / 16384 % 4
def CcBlock.inputSelect (b : CcBlock) : Nat := b.ctl.toNat / 4096 % 4
def CcBlock.scs (b : CcBlock) : Bool := b.ctl.getLsbD 11
def CcBlock.cap (b : CcBlock) : Bool := b.ctl.getLsbD 8
def CcBlock.outMode (b : CcBlock) : Nat := b.ctl.toNat / 32 % 8
def CcBlock.ccie (b : CcBlock) : Bool := b.ctl.getLsbD 4
def CcBlock.ccifg (b : CcBlock) : Bool := b.ctl.getLsbD 0

/-- CCI, the selected input signal: CCIxA, CCIxB, GND or VCC (R375, CCISx). -/
def CcBlock.cci (b : CcBlock) : Bool :=
  match b.inputSelect with
  | 0 => b.inA
  | 1 => b.inB
  | 2 => false
  | _ => true

/-- TACCTLx as read: the written bits, SCCI in bit 10, 0 in bit 9, CCI in bit 3 (R375). -/
def CcBlock.readCtl (b : CcBlock) : Word :=
  b.ctl ||| (if b.scci then 0x0400 else 0) ||| (if b.cci then 0x0008 else 0)

/-- A write to TACCTLx: bits 10, 9 and 3 are ignored (R375); in output mode 000 OUTx follows the OUT bit at once (R376). A capture
that waits goes on waiting, whatever CMx, CCISx, SCS or CAP become: DESIGN CHOICE, log 36. -/
def CcBlock.writeCtl (b : CcBlock) (v : Word) : CcBlock :=
  let b' := { b with ctl := v &&& 0xF9F7 }
  if b'.outMode = 0 then { b' with outx := v.getLsbD 2 } else b'

/-- The value a read of a timer register gives; none if the block does not exist. -/
def TimerState.read (t : TimerState) : TimerReg → Option Word
  | .tactl => some t.tactl
  | .tar => some t.tar
  | .tacctl x => t.blocks[x]?.map CcBlock.readCtl
  | .taccr x => t.blocks[x]?.map CcBlock.ccr

/-- A write to TACTL (R374): bit 2 stores nothing and, written 1, resets TAR, the divider and the direction. Unused bits are
stored as written (log 32). OUTx stays: that TACLR is not the 'reset of the timer' of output mode 001 (R376) is a DESIGN
CHOICE, log 35. -/
def TimerState.writeTactl (t : TimerState) (v : Word) : TimerState :=
  let t' := { t with tactl := v &&& 0xFFFB }
  if v.getLsbD 2 then { t' with tar := 0, divider := 0, down := false } else t'

/-- A write to a timer register; none if the block does not exist. -/
def TimerState.write (t : TimerState) (r : TimerReg) (v : Word) : Option TimerState :=
  match r with
  | .tactl => some (t.writeTactl v)
  | .tar => some { t with tar := v }
  | .tacctl x => t.blocks[x]?.map fun b => { t with blocks := t.blocks.set x (b.writeCtl v) }
  | .taccr x => t.blocks[x]?.map fun b => { t with blocks := t.blocks.set x { b with ccr := v } }

/-- The effect of EQUx on OUTx by output mode (R376). -/
def equxOut (mode : Nat) (out : Bool) : Bool :=
  match mode with
  | 1 => true
  | 2 => !out
  | 3 => true
  | 4 => !out
  | 5 => false
  | 6 => !out
  | 7 => false
  | _ => out

/-- The effect of EQU0 on OUTx by output mode (R376). -/
def equ0Out (mode : Nat) (out : Bool) : Bool :=
  match mode with
  | 2 => false
  | 3 => false
  | 6 => true
  | 7 => true
  | _ => out

/-- Whether the mode reacts to both events, so that their coincidence leaves OUTx open (R376). -/
def outModeUsesEqu0 (mode : Nat) : Bool := mode == 2 || mode == 3 || mode == 6 || mode == 7

/-- A capture of the count `tar` (R375, R377): TACCRx takes it, CCIFG is set, and COV if the previous capture was unread. -/
def CcBlock.capture (b : CcBlock) (tar : Word) : CcBlock :=
  { b with ccr := tar, ctl := b.ctl ||| (if b.unread then 3 else 1), unread := true, waiting := false }

/-- One block in capture mode at a count from `old` to `tar`: a capture that waits for the clock is made. Whether it takes the
count before or after is a free value, and it is one capture however many edges came (R375, SCS; DESIGN CHOICE, log 36). -/
def CcBlock.synchronised (b : CcBlock) (old tar : Word) (d : Nat) : CcBlock × Nat :=
  if b.waiting then (b.capture (if Config.freeBit d then old else tar), d + 1) else (b, d)

/-- One block when the counter has gone from `old` to `tar` (R376, R377), TACCR0 holding `tar0`: SCCI latches CCI on EQUx
(R375); in compare mode EQUx sets CCIFG and both events act on OUTx, and a waiting capture is dropped; in capture mode it is
made. Where both events act and coincide, OUTx is a free value (log 13). The draws used so far are the second component. -/
def CcBlock.counted (b : CcBlock) (old tar tar0 : Word) (d : Nat) : CcBlock × Nat :=
  let equx := tar == b.ccr
  let equ0 := tar == tar0
  let b1 := if equx then { b with scci := b.cci } else b
  if b.cap then b1.synchronised old tar d
  else
    let b2 := { b1 with ctl := if equx then b1.ctl ||| 1 else b1.ctl, waiting := false }
    if equx && equ0 && outModeUsesEqu0 b.outMode then ({ b2 with outx := Config.freeBit d }, d + 1)
    else if equx then ({ b2 with outx := equxOut b.outMode b.outx }, d)
    else if equ0 then ({ b2 with outx := equ0Out b.outMode b.outx }, d)
    else (b2, d)

/-- All blocks, in order. -/
def countedBlocks (old tar tar0 : Word) : List CcBlock → Nat → List CcBlock × Nat
  | [], d => ([], d)
  | b :: rest, d =>
    let (b', d1) := b.counted old tar tar0 d
    let (rest', d2) := countedBlocks old tar tar0 rest d1
    (b' :: rest', d2)

/-- TACCR0. -/
def TimerState.ccr0 (t : TimerState) : Word := (t.blocks[0]?.map CcBlock.ccr).getD 0

/-- TAR and the direction after one count, by mode (R373, R377). In up/down mode the direction is up whenever TAR becomes 0, also
where the turn at TACCR0 = 1 brings it there, which R377 read case by case leaves going down: DESIGN CHOICE, log 37. -/
def TimerState.nextTar (t : TimerState) : Word × Bool :=
  match t.mode with
  | 1 => (if t.tar = t.ccr0 then 0 else t.tar + 1, t.down)
  | 2 => (if t.tar = 0xFFFF then 0 else t.tar + 1, t.down)
  | 3 =>
    if t.down || t.tar == t.ccr0 then (t.tar - 1, t.tar - 1 != 0) else (t.tar + 1, false)
  | _ => (t.tar, t.down)

/-- `TimerCount()` (R377), with TAIFG set whenever TAR returns to 0 (R302, R374; logs 21, 37). Nothing while MCx = 00. -/
def TimerState.count (t : TimerState) (d : Nat) : TimerState × Nat :=
  if t.mode = 0 then (t, d)
  else
    let (tar, down) := t.nextTar
    let (blocks, d') := countedBlocks t.tar tar t.ccr0 t.blocks d
    ({ t with tar := tar, down := down, blocks := blocks,
              tactl := if tar = 0 then t.tactl ||| 1 else t.tactl }, d')

/-- One period of the undivided clock: the input divider passes one in 1, 2, 4 or 8 (R373, IDx). Nothing while MCx = 00.
Where IDx was changed and the phase is past the new divider, the next period passes: DESIGN CHOICE, log 35. -/
def TimerState.clock (t : TimerState) (d : Nat) : TimerState × Nat :=
  if t.mode = 0 then (t, d)
  else if 2 ^ t.divShift ≤ t.divider.toNat + 1 then TimerState.count { t with divider := 0 } d
  else ({ t with divider := t.divider + 1 }, d)

/-- A block changed, if it exists. -/
def TimerState.mapBlock (t : TimerState) (x : Nat) (f : CcBlock → CcBlock) : TimerState :=
  { t with blocks := t.blocks.modify x f }

/-- Whether a change of the selected input from `old` to `new` is an edge CMx selects (R375). -/
def captureEdge (cm : Nat) (old new : Bool) : Bool :=
  match cm with
  | 1 => !old && new
  | 2 => old && !new
  | 3 => old != new
  | _ => false

/-- The input signal CCIxA or CCIxB of a block becomes `new`, and nothing else (R371, R375). -/
def CcBlock.setInput (b : CcBlock) (second new : Bool) : CcBlock :=
  if second then { b with inB := new } else { b with inA := new }

/-- An input signal of a block changes (R375, R377): in capture mode the selected edge of the selected input captures TAR at
once, or with SCS = 1 at the next count; an edge that finds a capture waiting adds none and sets no COV (DESIGN CHOICE, log 36).
No capture while MCx = 00 (R371). -/
def CcBlock.inputChange (b : CcBlock) (tar : Word) (running second new : Bool) : CcBlock :=
  let b' := b.setInput second new
  if running && b.cap && captureEdge b.captureMode b.cci b'.cci then
    if b.scs then { b' with waiting := true } else b'.capture tar
  else b'

/-- An instruction has read TACCRx as a data operand: its captured value counts as read (R375, COV; log 36). -/
def TimerState.captureRead (t : TimerState) (x : Nat) : TimerState := t.mapBlock x fun b => { b with unread := false }

/-- A block across a reset event: TACCTLx and TACCRx are cleared, OUTx is 0 by mode 000; the inputs follow the outside
(10_state.md R36, 60_exceptions.md R372). No capture is unread or waits: DESIGN CHOICE, log 36. That the reset event is a
'reset of the timer' in the sense of output mode 001 (R376): log 35. -/
def CcBlock.puc (b : CcBlock) : CcBlock := { b with ctl := 0, ccr := 0, outx := false, unread := false, waiting := false }

/-- Timer_A across a reset event (10_state.md R36, 60_exceptions.md R372). The divider phase becomes 0 and the count direction up,
to which R36, R401 and R402 give no value: DESIGN CHOICE, log 1. -/
def TimerState.puc (t : TimerState) : TimerState where
  tactl := 0
  tar := 0
  divider := 0
  down := false
  blocks := t.blocks.map CcBlock.puc

end Sys2Proof.Machine
end

