-- ==== Sys2Proof/Machine/Ops.lean ====
section
/-! DEFINITION. The named operations over registers and memory, and the one operation each of taking an interrupt, returning
from one, and resetting. -/

namespace Sys2Proof.Machine

/-- How an operation can stop instead of giving a value. -/
inductive Stop where
  | fault (f : Fault)
  | refused (r : Refusal)
  deriving DecidableEq, Repr

/-- The outcome of a step from an operation's result. -/
def outcome : Except Stop State → Host.Outcome State Fault Refusal
  | .ok s => .next s
  | .error (.fault f) => .fault f
  | .error (.refused r) => .refused r

/-! Registers (10_state.md R20 to R25, R30). -/

/-- PC and SP are always even: a write clears bit 0 (10_state.md R22, R23). -/
def evenWord (v : Word) : Word := v &&& 0xFFFE

/-- SR bits 15 to 9 read as 0 and ignore writes (10_state.md R30). -/
def srWord (v : Word) : Word := v &&& 0x01FF

def State.setPc (s : State) (v : Word) : State := { s with pc := evenWord v }
def State.setSp (s : State) (v : Word) : State := { s with sp := evenWord v }
def State.setSr (s : State) (v : Word) : State := { s with sr := srWord v }
def State.setGpr (s : State) (i : Fin 12) (v : Word) : State := { s with gpr := s.gpr.set i v }
def State.setMem (s : State) (m : List Host.Cell) : State := { s with mem := m }
def State.setTimer (s : State) (t : TimerState) : State := { s with timer := t }
def State.setNmi (s : State) (l : List Nat) : State := { s with nmi := l }
def State.setDraws (s : State) (n : Nat) : State := { s with draws := n }
def State.setGieRose (s : State) (b : Bool) : State := { s with gieRose := b }
def State.setAgenda (s : State) (l : List Turn) : State := { s with agenda := l }

/-- `x[i]` (00_scope.md R9); R3 has no cell and reads as 0 (10_state.md R24). -/
def State.readReg (s : State) : Reg → Word
  | .pc => s.pc
  | .sp => s.sp
  | .sr => s.sr
  | .cg => 0
  | .gp i => s.gpr[i]

/-- `x[i] <- v` with the side conditions of 10_state.md R22, R23, R24 and R30. -/
def State.writeReg (s : State) (r : Reg) (v : Word) : State :=
  match r with
  | .pc => s.setPc v
  | .sp => s.setSp v
  | .sr => s.setSr v
  | .cg => s
  | .gp i => s.setGpr i v

/-- Writing the flags an operation computed, if it computes any (40_operands.md R146). -/
def State.setFlags (s : State) : Option Flags → State
  | none => s
  | some f => { s with sr := f.into s.sr }

/-! Memory (20_memory.md R60 to R73). -/

/-- The kind of an address in a map: the first region that holds it decides, and none is unimplemented (R71, R73). -/
def kindIn : List Region → Nat → RegionKind
  | [], _ => .unimplemented
  | r :: rest, a => if r.base ≤ a ∧ a < r.base + r.size then r.kind else kindIn rest a

/-- What MEM_MAP says of an address. -/
def State.kindAt (s : State) (a : Word) : RegionKind := kindIn s.platform.memMap a.toNat

/-- A byte of RAM or program memory; one that nothing has written faults (10_state.md R37). -/
def State.readCell (s : State) (a : Word) : Except Stop Byte :=
  match s.kindAt a with
  | .ram | .rom =>
    match Memory.read s.mem a.toNat with
    | some v => .ok v
    | none => .error (.fault (.uninitialisedRead a))
  | .port _ _ | .timer _ | .unimplemented => .error (.fault (.unmappedAccess a))

/-- `MemRead(a, 1)` (20_memory.md R62, R72, R73). At a timer register it faults on every platform: log 30. -/
def State.readByte (s : State) (a : Word) : Except Stop Byte :=
  match s.kindAt a with
  | .port x r => .ok ((s.port x).read s.draws r)
  | _ => s.readCell a

/-- Whether an address is RAM or program memory (20_memory.md R71). -/
def State.isMemory (s : State) (a : Word) : Bool := s.kindAt a == .ram || s.kindAt a == .rom

/-- `MemRead(a, 2)`: little-endian, bit 0 of the address ignored (20_memory.md R63, R64), timer registers as words (R72). A
port register read as a word faults on every platform: log 30. Where one of the two bytes admits no word access the fault names
the even address, as a write's does: DESIGN CHOICE, log 30. -/
def State.readWord (s : State) (a : Word) : Except Stop Word :=
  match s.kindAt (evenWord a) with
  | .timer r =>
    match s.timer.read r with
    | some v => .ok v
    | none => .error (.fault (.unmappedAccess (evenWord a)))
  | _ =>
    if s.isMemory (evenWord a) && s.isMemory (evenWord a + 1) then
      match s.readCell (evenWord a) with
      | .error e => .error e
      | .ok lo =>
        match s.readCell (evenWord a + 1) with
        | .error e => .error e
        | .ok hi => .ok (hi ++ lo)
    else .error (.fault (.unmappedAccess (evenWord a)))

/-- Whether an address is RAM, the only kind of memory a program may write (20_memory.md R71, R73). -/
def State.isRam (s : State) (a : Word) : Bool := s.kindAt a == .ram

/-- `MemWrite(a, 1, v)` (20_memory.md R62, R72, R73). At a timer register it faults on every platform: log 30. -/
def State.writeByte (s : State) (a : Word) (v : Byte) : Except Stop State :=
  match s.kindAt a with
  | .port x r => .ok (s.setPort x ((s.port x).write r v))
  | .ram => .ok (s.setMem (Memory.write s.mem a.toNat v))
  | .rom | .timer _ | .unimplemented => .error (.fault (.unmappedAccess a))

/-- `MemWrite(a, 2, v)` (20_memory.md R63, R64, R72, R73). A port register written as a word faults on every platform: log 30.
Where one of the two bytes is not RAM the fault names the even address: DESIGN CHOICE, log 30. -/
def State.writeWord (s : State) (a : Word) (v : Word) : Except Stop State :=
  match s.kindAt (evenWord a) with
  | .timer r =>
    match s.timer.write r v with
    | some t => .ok (s.setTimer t)
    | none => .error (.fault (.unmappedAccess (evenWord a)))
  | _ =>
    if s.isRam (evenWord a) && s.isRam (evenWord a + 1) then
      .ok (s.setMem (Memory.write (Memory.write s.mem (evenWord a).toNat (v.extractLsb' 0 8))
        (evenWord a + 1).toNat (v.extractLsb' 8 8)))
    else .error (.fault (.unmappedAccess (evenWord a)))

/-- `MemRead(a, w/8)` at the instruction's width. -/
def State.load (s : State) (bw : Width) (a : Word) : Except Stop (BitVec bw.bits) :=
  match bw with
  | .word => s.readWord a
  | .byte => s.readByte a

/-- How many free values a data read draws: one for PxIN, whose pins of other functions read as free bits (60_exceptions.md
R353, R359). -/
def State.loadDraws (s : State) (bw : Width) (a : Word) : Nat :=
  match bw, s.kindAt a with
  | .byte, .port _ .pxin => 1
  | _, _ => 0

/-- Timer_A after a data read: a captured value read from TACCRx counts as read (60_exceptions.md R375, COV; log 36). -/
def State.loadTimer (s : State) (bw : Width) (a : Word) : TimerState :=
  match bw, s.kindAt (evenWord a) with
  | .word, .timer (.taccr x) => s.timer.captureRead x
  | _, _ => s.timer

/-- What a data read leaves behind: the draws it took, and the note that a captured value was read. -/
def State.noteLoad (s : State) (bw : Width) (a : Word) : State :=
  { s with timer := s.loadTimer bw a, draws := s.draws + s.loadDraws bw a }

/-- `MemWrite(a, w/8, v)` at the instruction's width. -/
def State.store (s : State) (bw : Width) (a : Word) (v : BitVec bw.bits) : Except Stop State :=
  match bw, v with
  | .word, v => s.writeWord a v
  | .byte, v => s.writeByte a v

/-- A push: SP moves down by 2, then the value is stored at SP, at the instruction's width (20_memory.md R74,
41_single_operand.md R165). -/
def State.push (s : State) (bw : Width) (v : BitVec bw.bits) : Except Stop State :=
  (s.setSp (s.sp - 2)).store bw (evenWord (s.sp - 2)) v

/-- A pop of a word: a read at SP, then SP moves up by 2 (20_memory.md R74). -/
def State.pop (s : State) : Except Stop (Word × State) :=
  match s.readWord s.sp with
  | .error e => .error e
  | .ok v => .ok (v, (s.noteLoad .word s.sp).setSp (s.sp + 2))

/-! Interrupts (60_exceptions.md R301 to R315). -/

/-- The flag bit of a source (R301). -/
def State.irqFlag (s : State) : IrqSource → Bool
  | .taifg => s.timer.taifg
  | .ccifg x => (s.timer.blocks[x]?.map CcBlock.ccifg).getD false
  | .port x k => (s.port x).ifg.getLsbD k
  | .nmi k => s.nmi.contains k

/-- The enable bit of a source (R301); a nonmaskable source has none here (R306). -/
def State.irqEnable (s : State) : IrqSource → Bool
  | .taifg => s.timer.taie
  | .ccifg x => (s.timer.blocks[x]?.map CcBlock.ccie).getD false
  | .port x k => (s.port x).ie.getLsbD k
  | .nmi _ => true

/-- `Requesting(i)` (R302). -/
def State.requesting (s : State) (i : IrqSource) : Bool := s.irqFlag i && s.irqEnable i

/-- A source GIE does not gate (R306). -/
def irqNonmaskable : IrqSource → Bool
  | .nmi _ => true
  | _ => false

/-- Whether a vector has a request the CPU may accept: one of its sources requests, and GIE is set or the source is
nonmaskable (R302, R306). -/
def State.vectorPending (s : State) (gie : Bool) (v : VectorEntry) : Bool :=
  v.sources.any fun i => s.requesting i && (gie || irqNonmaskable i)

/-- The pending vector of highest priority, the earlier entry where two are equal (R304). -/
def State.selectVector (s : State) (gie : Bool) : List VectorEntry → Option VectorEntry
  | [] => none
  | v :: rest =>
    match s.selectVector gie rest with
    | none => if s.vectorPending gie v then some v else none
    | some u => if s.vectorPending gie v && decide (u.priority ≤ v.priority) then some v else some u

/-- The vector an interrupt entry in this state would use, if a request stands (R302 to R304, R306). -/
def State.acceptable (s : State) : Option VectorEntry := s.selectVector s.gie s.platform.vectors

/-- Clearing the flag bit of a source (R312). -/
def State.clearIrqFlag (s : State) : IrqSource → State
  | .taifg => s.setTimer { s.timer with tactl := s.timer.tactl &&& 0xFFFE }
  | .ccifg x => s.setTimer (s.timer.mapBlock x fun b => { b with ctl := b.ctl &&& 0xFFFE })
  | .port x k => s.setPort x { s.port x with ifg := setBit (s.port x).ifg k false }
  | .nmi k => s.setNmi (s.nmi.filter (· != k))

/-- The flag is cleared by the entry exactly when the vector lists one source (R312). -/
def State.clearSingleSource (s : State) (v : VectorEntry) : State :=
  match v.sources with
  | [i] => s.clearIrqFlag i
  | _ => s

/-- No flag is at risk of MaySetFlag any more: the next CPU step has begun (R363). -/
def State.settlePins (s : State) : State :=
  { s with p1 := { s.p1 with maySet := 0 }, p2 := { s.p2 with maySet := 0 } }

/-- The vector of an interrupt entry, selected after the two pushes (R310). Where they leave no request standing, R310 names no
vector, and the entry goes on through `v`, the one due at the step boundary: DESIGN CHOICE, log 16. -/
def State.entryVector (s : State) (v : VectorEntry) : VectorEntry := s.acceptable.getD v

/-- `InterruptEntry()` (R310), a request for vector `v` standing at the step boundary: push PC, push SR, select the vector, clear
a single-source flag, clear SR, load PC from the vector. One whole step. -/
def State.takeInterrupt (s : State) (v : VectorEntry) : Except Stop State :=
  match s.settlePins.push .word s.pc with
  | .error e => .error e
  | .ok s1 =>
    match s1.push .word s.sr with
    | .error e => .error e
    | .ok s2 =>
      let v' := s2.entryVector v
      let s3 := (s2.clearSingleSource v').setSr 0
      match s3.readWord v'.address with
      | .error e => .error e
      | .ok target => .ok ((s3.setPc target).setGieRose false)

/-- Return from interrupt: pop SR, then pop PC (41_single_operand.md R167, 60_exceptions.md R320). -/
def State.returnFromInterrupt (s : State) : Except Stop State :=
  match s.pop with
  | .error e => .error e
  | .ok (sr, s1) =>
    match (s1.setSr sr).pop with
    | .error e => .error e
    | .ok (pc, s2) => .ok (s2.setPc pc)

/-- RAM after a reset event holds unspecified values; program memory keeps its contents (10_state.md R36, R37). Log 14. -/
def resetMemory (map : List Region) (d : Nat) (m : List Host.Cell) : List Host.Cell :=
  m.map fun c => if kindIn map c.1 = .ram then (c.1, Config.freeByte d c.1) else c

/-- `Reset()` raised at a step boundary (70_reset_and_hazards.md R400 to R402): SR is 0, the peripheral registers take their reset
values, SP, R4 to R15 and RAM become free values (log 14), PC is loaded from the reset vector. The vector word is read after RAM
has lost its contents, so that in RAM it is a free value: DESIGN CHOICE, log 14. -/
def State.resetEvent (s : State) : Except Stop State :=
  let s1 : State :=
    { s with
      sp := evenWord (Config.freeWord s.draws)
      sr := 0
      gpr := Vector.ofFn fun i : Fin 12 => Config.freeWord (s.draws + 1 + i.val)
      mem := resetMemory s.platform.memMap s.draws s.mem
      p1 := s.p1.puc
      p2 := s.p2.puc
      timer := s.timer.puc
      nmi := []
      gieRose := false
      draws := s.draws + 13 }
  match s1.readWord s.platform.resetVector with
  | .error e => .error e
  | .ok v => .ok (s1.setPc v)

end Sys2Proof.Machine
end

