-- ==== Sys2Proof/Machine/Agents.lean ====
section
/-! DEFINITION. The agents other than the CPU: the pins, Timer_A, nonmaskable sources, reset (60_exceptions.md R306, R363, R371, R377,
70_reset_and_hazards.md R400). -/

namespace Sys2Proof.Machine

/-- Whether the mode table stops the timer's clock: SMCLK in LPM2 to LPM4, ACLK in LPM4 (60_exceptions.md R330). TACLK and INCLK
come from outside, and the combinations outside the table promise nothing (log 22). -/
def State.timerClockStopped (s : State) : Bool :=
  match s.timer.tassel, s.powerMode with
  | 2, some .lpm2 => true
  | 2, some .lpm3 => true
  | 2, some .lpm4 => true
  | 1, some .lpm4 => true
  | _, _ => false

/-- The timer agent acts only while MCx ≠ 00 (R371). -/
def State.timerChange (s : State) (f : TimerState → TimerState) : State :=
  if s.timer.mode = 0 then s else s.setTimer (f s.timer)

/-- A count or a clock period: nothing while the selected clock is stopped (R330). -/
def State.timerTick (s : State) (f : TimerState → Nat → TimerState × Nat) : State :=
  if s.timerClockStopped then s
  else (s.setTimer (f s.timer s.draws).1).setDraws (f s.timer s.draws).2

/-- A nonmaskable source of the platform requests (R306). Log 8. -/
def State.requestNmi (s : State) (k : Nat) : State :=
  if s.platform.nmiSources.contains k && !s.nmi.contains k then s.setNmi (k :: s.nmi) else s

/-- One action of an agent. -/
def envStep (a : EnvAction) (s : State) : Except Stop State :=
  match a with
  | .reset => s.resetEvent
  | .pinChange x k new => .ok (s.setPort x ((s.port x).pinChange k new))
  | .maySetFlag x k => .ok (s.setPort x ((s.port x).maySetFlag k))
  | .timerCount => .ok (s.timerTick TimerState.count)
  | .timerClock => .ok (s.timerTick TimerState.clock)
  | .timerSetTaifg => .ok (s.timerChange fun t => { t with tactl := t.tactl ||| 1 })
  | .timerSetCcifg x => .ok (s.timerChange fun t => t.mapBlock x fun b => { b with ctl := b.ctl ||| 1 })
  | .timerSetTar v => .ok (s.timerChange fun t => { t with tar := v })
  | .timerSetCov x b => .ok (s.timerChange fun t => t.mapBlock x fun c => { c with ctl := setBit c.ctl 1 b })
  | .timerSetScci x b => .ok (s.timerChange fun t => t.mapBlock x fun c => { c with scci := b })
  | .timerSetOut x b => .ok (s.timerChange fun t => t.mapBlock x fun c => { c with outx := b })
  | .timerSetCci x second new => .ok (s.timerChange fun t => t.mapBlock x fun c => c.setInput second new)
  | .captureInput x second new =>
    .ok (s.setTimer (s.timer.mapBlock x fun c => c.inputChange s.timer.tar (s.timer.mode != 0) second new))
  | .nmiRequest k => .ok (s.requestNmi k)
  | .nmiWithdraw k => .ok (s.setNmi (s.nmi.filter (· != k)))

end Sys2Proof.Machine
end

