-- ==== Sys2Proof/Machine/Operands.lean ====
section
/-! DEFINITION. Operand locations and the shared frames of the instruction formats (40_operands.md R131 to R140,
41_single_operand.md R160, 43_two_operand.md R200). An instruction's index words come decoded in its operands; taking one
advances PC past it and gives the address it lies at, as FetchWord does (R131). On entry PC is the address of the word
after the instruction word (R130). -/

namespace Sys2Proof.Machine

/-- Where an operand is (R132, R133). -/
inductive Loc where
  | reg (r : Reg)
  | mem (a : Word)
  | const (v : Word)
  | discard
  deriving DecidableEq, Repr

/-- The value of a generated constant (30_encoding.md R100). -/
def constValue : CgConst → Word
  | .zero => 0
  | .one => 1
  | .two => 2
  | .four => 4
  | .eight => 8
  | .minusOne => 0xFFFF

/-- `Inc(n, bw)` (R136). -/
def autoIncrement (r : Reg) (bw : Width) : Word :=
  match r, bw with
  | .pc, _ => 2
  | .sp, _ => 2
  | _, .word => 2
  | _, .byte => 1

/-- PC past one index word (R131). -/
def State.skipWord (s : State) : State := s.setPc (s.pc + 2)

/-- `SrcLoc(As, n, bw)` (R132, R135, R136). -/
def srcLoc (bw : Width) (src : Src) (s : State) : Loc × State :=
  match src with
  | .reg r => (.reg r, s)
  | .indexed r x => (.mem (s.readReg r + x), s.skipWord)
  | .symbolic x => (.mem (s.pc + x), s.skipWord)
  | .absolute x => (.mem x, s.skipWord)
  | .indirect r => (.mem (s.readReg r), s)
  | .autoinc r => (.mem (s.readReg r), s.writeReg r (s.readReg r + autoIncrement r bw))
  | .imm v => (.const v, s.skipWord)
  | .const c => (.const (constValue c), s)

/-- `DstLoc(Ad, n)` (R133, R135). -/
def dstLoc (dst : Dst) (s : State) : Loc × State :=
  match dst with
  | .reg .cg => (.discard, s)
  | .reg r => (.reg r, s)
  | .indexed r x => (.mem (s.readReg r + x), s.skipWord)
  | .symbolic x => (.mem (s.pc + x), s.skipWord)
  | .absolute x => (.mem x, s.skipWord)

/-- `ReadLoc(loc, bw)` (R132, R138). -/
def readLoc (bw : Width) (loc : Loc) (s : State) : Except Stop (BitVec bw.bits) :=
  match loc with
  | .reg r => .ok ((s.readReg r).setWidth bw.bits)
  | .mem a => s.load bw a
  | .const v => .ok (v.setWidth bw.bits)
  | .discard => .ok 0

/-- `WriteLoc(loc, bw, res)` (R139, R140): a byte result clears bits 15:8 of a register. The forms R140 and R160 refuse
never come here. -/
def writeLoc (bw : Width) (loc : Loc) (res : BitVec bw.bits) (s : State) : Except Stop State :=
  match loc with
  | .reg r => .ok (s.writeReg r (res.setWidth 16))
  | .mem a => s.store bw a res
  | .const _ => .error (.refused (.unspecifiedOperand .constantNotWritable))
  | .discard => .ok s

/-- What a read of an operand leaves behind (`State.noteLoad`): nothing, where the operand is not in memory. -/
def State.noteRead (s : State) (bw : Width) (loc : Loc) : State :=
  match loc with
  | .mem a => s.noteLoad bw a
  | .reg _ => s
  | .const _ => s
  | .discard => s

/-- The state after the source operand is located and read (R137, steps 1 and 2). -/
def srcState (bw : Width) (src : Src) (s : State) : State := (srcLoc bw src s).2.noteRead bw (srcLoc bw src s).1

/-- The source value of an operand and the state after its evaluation (R137, steps 1 and 2). -/
def evalSrc (bw : Width) (src : Src) (s : State) : Except Stop (BitVec bw.bits × State) :=
  match readLoc bw (srcLoc bw src s).1 (srcLoc bw src s).2 with
  | .error e => .error e
  | .ok v => .ok (v, srcState bw src s)

/-- How a Format I instruction uses its destination (43_two_operand.md R200, R201): CMP and BIT only read it, MOV writes it
without using its old value, having read it or not (`reads`), the others do both. -/
inductive DstUse where
  | write (reads : Bool)
  | readWrite
  | read
  deriving DecidableEq, Repr

/-- MOV's use of its destination, by MOV_READS_DST (43_two_operand.md R201, D31; log 25). -/
def State.movUse (s : State) : DstUse := .write s.platform.movReadsDst

/-- PC, SP and SR: the registers a byte result has no defined effect on (R140). -/
def specialReg : Reg → Bool
  | .pc => true
  | .sp => true
  | .sr => true
  | _ => false

/-- The Format I forms the spec gives no meaning (R133, R134, R140, 10_state.md R31), if this is one of them; `flags` says
whether the instruction writes flags. -/
def twoOperandRefusal (bw : Width) (src : Src) (dst : Dst) (use : DstUse) (flags : Bool) : Option OperandReason :=
  match dst with
  | .indexed .cg _ => some .indexedR3
  | .reg r =>
    if use = .read then none
    else if flags && r == .sr then some .flagsIntoSr
    else if bw = .byte ∧ specialReg r then some .byteStoreToSpecial
    else none
  | _ => if src = .reg .pc then some .pcSourceWithIndexWord else none

/-- The old destination value, where the instruction reads it (R137, step 4). -/
def readDst (bw : Width) (use : DstUse) (loc : Loc) (s : State) : Except Stop (BitVec bw.bits) :=
  match use with
  | .write reads => if reads then readLoc bw loc s else .ok 0
  | .readWrite => readLoc bw loc s
  | .read => readLoc bw loc s

/-- Timer_A after MOV has read its destination or not. Whether MOV to TACCRx counts as a read of it is unspecified, whatever
MOV_READS_DST says (43_two_operand.md R201): a free bit. Logs 25, 36. -/
def State.movTimer (s : State) (bw : Width) (a : Word) : TimerState :=
  match bw, s.kindAt (evenWord a) with
  | .word, .timer (.taccr x) => if Config.freeBit s.draws then s.timer.captureRead x else s.timer
  | _, _ => s.timer

/-- How many free values MOV's destination draws: one for TACCRx (`State.movTimer`), and those of a read where it is read. -/
def State.movDraws (s : State) (bw : Width) (reads : Bool) (a : Word) : Nat :=
  match bw, s.kindAt (evenWord a) with
  | .word, .timer (.taccr _) => 1
  | _, _ => if reads then s.loadDraws bw a else 0

/-- What MOV leaves behind of its destination before it writes it, having read it or not (43_two_operand.md R201). -/
def State.noteMov (s : State) (bw : Width) (reads : Bool) (loc : Loc) : State :=
  match loc with
  | .mem a => { s with timer := s.movTimer bw a, draws := s.draws + s.movDraws bw reads a }
  | .reg _ => s
  | .const _ => s
  | .discard => s

/-- The state after the old destination value is read, where it is. -/
def State.noteDst (s : State) (bw : Width) (use : DstUse) (loc : Loc) : State :=
  match use with
  | .write reads => s.noteMov bw reads loc
  | .readWrite => s.noteRead bw loc
  | .read => s.noteRead bw loc

/-- The flags and the count of draws of an operation, written (R137, step 6). -/
def State.applyAlu {w : Nat} (s : State) (r : Alu w) : State := (s.setFlags r.flags).setDraws (s.draws + r.draws)

/-- The frame of every Format I instruction (R137, 43_two_operand.md R200): `f` is given the source value, the old
destination value, C, and the count of draws. -/
def twoOperand (bw : Width) (src : Src) (dst : Dst) (use : DstUse) (flags : Bool)
    (f : BitVec bw.bits → BitVec bw.bits → Bool → Nat → Alu bw.bits) (s : State) : Except Stop State :=
  match twoOperandRefusal bw src dst use flags with
  | some reason => .error (.refused (.unspecifiedOperand reason))
  | none =>
    match evalSrc bw src s with
    | .error e => .error e
    | .ok (sv, s1) =>
      let loc := (dstLoc dst s1).1
      let s2 := (dstLoc dst s1).2
      match readDst bw use loc s2 with
      | .error e => .error e
      | .ok dv =>
        let s3 := s2.noteDst bw use loc
        let r := f sv dv s3.carry s3.draws
        match use with
        | .read => .ok (s3.applyAlu r)
        | _ => writeLoc bw loc r.res (s3.applyAlu r)

/-- The forms of RRC, RRA, SWPB and SXT the spec gives no meaning (41_single_operand.md R160 to R164), if this is one. -/
def modifyRefusal (bw : Width) (src : Src) (flags : Bool) : Option OperandReason :=
  match src with
  | .imm _ => some .constantNotWritable
  | .const _ => some .constantNotWritable
  | .reg r =>
    if flags && r == .sr then some .flagsIntoSr
    else if bw = .byte ∧ specialReg r then some .byteStoreToSpecial
    else none
  | _ => none

/-- The frame of RRC, RRA, SWPB and SXT (41_single_operand.md R160): read the operand, write it back at the same place; `f` is
given the value, C, and the count of draws. -/
def modifyOperand (bw : Width) (src : Src) (flags : Bool) (f : BitVec bw.bits → Bool → Nat → Alu bw.bits) (s : State) :
    Except Stop State :=
  match modifyRefusal bw src flags with
  | some reason => .error (.refused (.unspecifiedOperand reason))
  | none =>
    match evalSrc bw src s with
    | .error e => .error e
    | .ok (v, s1) =>
      writeLoc bw (srcLoc bw src s).1 (f v s1.carry s1.draws).res (s1.applyAlu (f v s1.carry s1.draws))

/-- What `PUSH SP` stores: the old SP or the old SP minus 2, by PUSH_SP_VALUE (41_single_operand.md R165; log 11). -/
def pushedSp (sp : Word) : Word := if Config.pushSpStoresOld then sp else sp - 2

/-- The value PUSH stores, and the state after evaluating its operand (41_single_operand.md R165). -/
def pushValue (bw : Width) (src : Src) (s : State) : Except Stop (BitVec bw.bits × State) :=
  match src with
  | .reg .sp => .ok ((pushedSp s.sp).setWidth bw.bits, s)
  | _ => evalSrc bw src s

/-- PUSH: the operand first, then SP, then the store (41_single_operand.md R165). -/
def pushOperand (bw : Width) (src : Src) (s : State) : Except Stop State :=
  match pushValue bw src s with
  | .error e => .error e
  | .ok (v, s1) => s1.push bw v

/-- CALL: the operand, then the push of PC, then the load of PC (41_single_operand.md R166). -/
def callOperand (src : Src) (s : State) : Except Stop State :=
  match evalSrc .word src s with
  | .error e => .error e
  | .ok (t, s1) =>
    match s1.push .word s1.pc with
    | .error e => .error e
    | .ok s2 => .ok (s2.setPc t)

/-- `PC <- PC + 2 * sext_16(offset)` if the condition holds (42_jumps.md R180). -/
def jumpIf (cond : Bool) (off : BitVec 10) (s : State) : State :=
  if cond then s.setPc (s.pc + 2 * off.signExtend 16) else s

end Sys2Proof.Machine
end

