-- ==== Sys2Proof/Machine/TwoOperand.lean ====
section
/-! DEFINITION. The twelve two-operand instructions (43_two_operand.md). -/

namespace Sys2Proof.Machine

/-- MOV, MOV.B (R202): no flags; the old destination value is not used, and read only if MOV_READS_DST says so (R201). -/
def execMov (bw : Width) (src : Src) (dst : Dst) (s : State) : Host.Outcome State Fault Refusal :=
  outcome (twoOperand bw src dst s.movUse false (fun sv _ _ _ => movW sv) s)

/-- ADD, ADD.B (R203). -/
def execAdd (bw : Width) (src : Src) (dst : Dst) (s : State) : Host.Outcome State Fault Refusal :=
  outcome (twoOperand bw src dst .readWrite true (fun sv dv _ _ => addW dv sv false) s)

/-- ADDC, ADDC.B (R204). -/
def execAddc (bw : Width) (src : Src) (dst : Dst) (s : State) : Host.Outcome State Fault Refusal :=
  outcome (twoOperand bw src dst .readWrite true (fun sv dv c _ => addW dv sv c) s)

/-- SUBC, SUBC.B (R205). -/
def execSubc (bw : Width) (src : Src) (dst : Dst) (s : State) : Host.Outcome State Fault Refusal :=
  outcome (twoOperand bw src dst .readWrite true (fun sv dv c _ => subW dv sv c) s)

/-- SUB, SUB.B (R206). -/
def execSub (bw : Width) (src : Src) (dst : Dst) (s : State) : Host.Outcome State Fault Refusal :=
  outcome (twoOperand bw src dst .readWrite true (fun sv dv _ _ => subW dv sv true) s)

/-- CMP, CMP.B (R207): nothing stored. -/
def execCmp (bw : Width) (src : Src) (dst : Dst) (s : State) : Host.Outcome State Fault Refusal :=
  outcome (twoOperand bw src dst .read true (fun sv dv _ _ => subW dv sv true) s)

/-- DADD, DADD.B (R208). -/
def execDadd (bw : Width) (src : Src) (dst : Dst) (s : State) : Host.Outcome State Fault Refusal :=
  outcome (twoOperand bw src dst .readWrite true (fun sv dv c d => daddW dv sv c d) s)

/-- BIT, BIT.B (R209): nothing stored. -/
def execBit (bw : Width) (src : Src) (dst : Dst) (s : State) : Host.Outcome State Fault Refusal :=
  outcome (twoOperand bw src dst .read true (fun sv dv _ _ => andW sv dv) s)

/-- BIC, BIC.B (R210): no flags. -/
def execBic (bw : Width) (src : Src) (dst : Dst) (s : State) : Host.Outcome State Fault Refusal :=
  outcome (twoOperand bw src dst .readWrite false (fun sv dv _ _ => bicW sv dv) s)

/-- BIS, BIS.B (R211): no flags. -/
def execBis (bw : Width) (src : Src) (dst : Dst) (s : State) : Host.Outcome State Fault Refusal :=
  outcome (twoOperand bw src dst .readWrite false (fun sv dv _ _ => bisW sv dv) s)

/-- XOR, XOR.B (R212). -/
def execXor (bw : Width) (src : Src) (dst : Dst) (s : State) : Host.Outcome State Fault Refusal :=
  outcome (twoOperand bw src dst .readWrite true (fun sv dv _ _ => xorW sv dv) s)

/-- AND, AND.B (R213). -/
def execAnd (bw : Width) (src : Src) (dst : Dst) (s : State) : Host.Outcome State Fault Refusal :=
  outcome (twoOperand bw src dst .readWrite true (fun sv dv _ _ => andW sv dv) s)

end Sys2Proof.Machine
end

