-- ==== Sys2Proof/Machine/Emulated.lean ====
section
/-! DEFINITION. The 24 emulated instructions: each means what the core instruction it expands to means (44_emulated.md R230). -/

namespace Sys2Proof.Machine

/-- ADC dst = ADDC #0,dst (R231). -/
def execAdc (bw : Width) (dst : Dst) (s : State) : Host.Outcome State Fault Refusal := execAddc bw (.const .zero) dst s

/-- DADC dst = DADD #0,dst (R232). -/
def execDadc (bw : Width) (dst : Dst) (s : State) : Host.Outcome State Fault Refusal := execDadd bw (.const .zero) dst s

/-- DEC dst = SUB #1,dst (R233). -/
def execDec (bw : Width) (dst : Dst) (s : State) : Host.Outcome State Fault Refusal := execSub bw (.const .one) dst s

/-- DECD dst = SUB #2,dst (R234). -/
def execDecd (bw : Width) (dst : Dst) (s : State) : Host.Outcome State Fault Refusal := execSub bw (.const .two) dst s

/-- INC dst = ADD #1,dst (R235). -/
def execInc (bw : Width) (dst : Dst) (s : State) : Host.Outcome State Fault Refusal := execAdd bw (.const .one) dst s

/-- INCD dst = ADD #2,dst (R236). -/
def execIncd (bw : Width) (dst : Dst) (s : State) : Host.Outcome State Fault Refusal := execAdd bw (.const .two) dst s

/-- SBC dst = SUBC #0,dst (R237). -/
def execSbc (bw : Width) (dst : Dst) (s : State) : Host.Outcome State Fault Refusal := execSubc bw (.const .zero) dst s

/-- INV dst = XOR #-1,dst (R238). -/
def execInv (bw : Width) (dst : Dst) (s : State) : Host.Outcome State Fault Refusal := execXor bw (.const .minusOne) dst s

/-- RLA dst = ADD dst,dst (R239). -/
def execRla (bw : Width) (dst : Dst) (s : State) : Host.Outcome State Fault Refusal := execAdd bw dst.asSrc dst.again s

/-- RLC dst = ADDC dst,dst (R240). -/
def execRlc (bw : Width) (dst : Dst) (s : State) : Host.Outcome State Fault Refusal := execAddc bw dst.asSrc dst.again s

/-- BR dst = MOV dst,PC (R241). -/
def execBr (src : Src) (s : State) : Host.Outcome State Fault Refusal := execMov .word src (.reg .pc) s

/-- DINT = BIC #8,SR (R242). -/
def execDint (s : State) : Host.Outcome State Fault Refusal := execBic .word (.const .eight) (.reg .sr) s

/-- EINT = BIS #8,SR (R243). -/
def execEint (s : State) : Host.Outcome State Fault Refusal := execBis .word (.const .eight) (.reg .sr) s

/-- NOP = MOV #0,R3 (R244). -/
def execNop (s : State) : Host.Outcome State Fault Refusal := execMov .word (.const .zero) (.reg .cg) s

/-- RET = MOV @SP+,PC (R245). -/
def execRet (s : State) : Host.Outcome State Fault Refusal := execMov .word (.autoinc .sp) (.reg .pc) s

/-- CLR dst = MOV #0,dst (R246). -/
def execClr (bw : Width) (dst : Dst) (s : State) : Host.Outcome State Fault Refusal := execMov bw (.const .zero) dst s

/-- CLRC = BIC #1,SR (R247). -/
def execClrc (s : State) : Host.Outcome State Fault Refusal := execBic .word (.const .one) (.reg .sr) s

/-- CLRN = BIC #4,SR (R248). -/
def execClrn (s : State) : Host.Outcome State Fault Refusal := execBic .word (.const .four) (.reg .sr) s

/-- CLRZ = BIC #2,SR (R249). -/
def execClrz (s : State) : Host.Outcome State Fault Refusal := execBic .word (.const .two) (.reg .sr) s

/-- POP dst = MOV @SP+,dst (R250, 90_conflicts.md C1). -/
def execPop (bw : Width) (dst : Dst) (s : State) : Host.Outcome State Fault Refusal := execMov bw (.autoinc .sp) dst s

/-- SETC = BIS #1,SR (R251). -/
def execSetc (s : State) : Host.Outcome State Fault Refusal := execBis .word (.const .one) (.reg .sr) s

/-- SETN = BIS #4,SR (R252). -/
def execSetn (s : State) : Host.Outcome State Fault Refusal := execBis .word (.const .four) (.reg .sr) s

/-- SETZ = BIS #2,SR (R253). -/
def execSetz (s : State) : Host.Outcome State Fault Refusal := execBis .word (.const .two) (.reg .sr) s

/-- TST dst = CMP #0,dst (R254). -/
def execTst (bw : Width) (dst : Dst) (s : State) : Host.Outcome State Fault Refusal := execCmp bw (.const .zero) dst s

end Sys2Proof.Machine
end

