-- ==== Sys2Proof/Machine/Jumps.lean ====
section
/-! DEFINITION. The eight relative jumps (42_jumps.md). -/

namespace Sys2Proof.Machine

/-- JNE, JNZ: if Z = 0 (R182). -/
def execJne (off : BitVec 10) (s : State) : Host.Outcome State Fault Refusal :=
  .next (jumpIf (!s.zero) off s)

/-- JEQ, JZ: if Z = 1 (R183). -/
def execJeq (off : BitVec 10) (s : State) : Host.Outcome State Fault Refusal :=
  .next (jumpIf s.zero off s)

/-- JNC, JLO: if C = 0 (R184). -/
def execJnc (off : BitVec 10) (s : State) : Host.Outcome State Fault Refusal :=
  .next (jumpIf (!s.carry) off s)

/-- JC, JHS: if C = 1 (R185). -/
def execJc (off : BitVec 10) (s : State) : Host.Outcome State Fault Refusal :=
  .next (jumpIf s.carry off s)

/-- JN: if N = 1 (R186). -/
def execJn (off : BitVec 10) (s : State) : Host.Outcome State Fault Refusal :=
  .next (jumpIf s.negative off s)

/-- JGE: if N = V (R181, R187). -/
def execJge (off : BitVec 10) (s : State) : Host.Outcome State Fault Refusal :=
  .next (jumpIf (s.negative == s.overflow) off s)

/-- JL: if N ≠ V (R181, R188). -/
def execJl (off : BitVec 10) (s : State) : Host.Outcome State Fault Refusal :=
  .next (jumpIf (s.negative != s.overflow) off s)

/-- JMP: always (R189). -/
def execJmp (off : BitVec 10) (s : State) : Host.Outcome State Fault Refusal :=
  .next (jumpIf true off s)

end Sys2Proof.Machine
end

