-- ==== Sys2Proof/Machine/SingleOperand.lean ====
section
/-! DEFINITION. The single-operand instructions RRC, SWPB, RRA, SXT, PUSH, CALL, RETI (41_single_operand.md). -/

namespace Sys2Proof.Machine

/-- RRC, RRC.B (R161). -/
def execRrc (bw : Width) (src : Src) (s : State) : Host.Outcome State Fault Refusal :=
  outcome (modifyOperand bw src true (fun v c d => rrcW v c d) s)

/-- SWPB (R162). -/
def execSwpb (src : Src) (s : State) : Host.Outcome State Fault Refusal :=
  outcome (modifyOperand .word src false (fun v _ _ => swpbW v) s)

/-- RRA, RRA.B (R163). -/
def execRra (bw : Width) (src : Src) (s : State) : Host.Outcome State Fault Refusal :=
  outcome (modifyOperand bw src true (fun v _ _ => rraW v) s)

/-- SXT (R164). -/
def execSxt (src : Src) (s : State) : Host.Outcome State Fault Refusal :=
  outcome (modifyOperand .word src true (fun v _ _ => sxtW v) s)

/-- PUSH, PUSH.B (R165). -/
def execPush (bw : Width) (src : Src) (s : State) : Host.Outcome State Fault Refusal :=
  outcome (pushOperand bw src s)

/-- CALL (R166). -/
def execCall (src : Src) (s : State) : Host.Outcome State Fault Refusal :=
  outcome (callOperand src s)

/-- RETI (R167). -/
def execReti (s : State) : Host.Outcome State Fault Refusal :=
  outcome s.returnFromInterrupt

end Sys2Proof.Machine
end

