-- ==== Sys2Proof/Machine/Dispatch.lean ====
section
/-! DEFINITION. The meaning of every instruction, one arm per constructor of Instr. -/

namespace Sys2Proof.Machine

def exec (i : Instr) (s : State) : Host.Outcome State Fault Refusal :=
  match i with
  | .rrc bw src => Sys2Proof.Machine.execRrc bw src s
  | .swpb src => Sys2Proof.Machine.execSwpb src s
  | .rra bw src => Sys2Proof.Machine.execRra bw src s
  | .sxt src => Sys2Proof.Machine.execSxt src s
  | .push bw src => Sys2Proof.Machine.execPush bw src s
  | .call src => Sys2Proof.Machine.execCall src s
  | .reti => Sys2Proof.Machine.execReti s
  | .jne off => Sys2Proof.Machine.execJne off s
  | .jeq off => Sys2Proof.Machine.execJeq off s
  | .jnc off => Sys2Proof.Machine.execJnc off s
  | .jc off => Sys2Proof.Machine.execJc off s
  | .jn off => Sys2Proof.Machine.execJn off s
  | .jge off => Sys2Proof.Machine.execJge off s
  | .jl off => Sys2Proof.Machine.execJl off s
  | .jmp off => Sys2Proof.Machine.execJmp off s
  | .mov bw src dst => Sys2Proof.Machine.execMov bw src dst s
  | .add bw src dst => Sys2Proof.Machine.execAdd bw src dst s
  | .addc bw src dst => Sys2Proof.Machine.execAddc bw src dst s
  | .subc bw src dst => Sys2Proof.Machine.execSubc bw src dst s
  | .sub bw src dst => Sys2Proof.Machine.execSub bw src dst s
  | .cmp bw src dst => Sys2Proof.Machine.execCmp bw src dst s
  | .dadd bw src dst => Sys2Proof.Machine.execDadd bw src dst s
  | .bit bw src dst => Sys2Proof.Machine.execBit bw src dst s
  | .bic bw src dst => Sys2Proof.Machine.execBic bw src dst s
  | .bis bw src dst => Sys2Proof.Machine.execBis bw src dst s
  | .xor bw src dst => Sys2Proof.Machine.execXor bw src dst s
  | .and bw src dst => Sys2Proof.Machine.execAnd bw src dst s
  | .adc bw dst => Sys2Proof.Machine.execAdc bw dst s
  | .dadc bw dst => Sys2Proof.Machine.execDadc bw dst s
  | .dec bw dst => Sys2Proof.Machine.execDec bw dst s
  | .decd bw dst => Sys2Proof.Machine.execDecd bw dst s
  | .inc bw dst => Sys2Proof.Machine.execInc bw dst s
  | .incd bw dst => Sys2Proof.Machine.execIncd bw dst s
  | .sbc bw dst => Sys2Proof.Machine.execSbc bw dst s
  | .inv bw dst => Sys2Proof.Machine.execInv bw dst s
  | .rla bw dst => Sys2Proof.Machine.execRla bw dst s
  | .rlc bw dst => Sys2Proof.Machine.execRlc bw dst s
  | .br src => Sys2Proof.Machine.execBr src s
  | .dint => Sys2Proof.Machine.execDint s
  | .eint => Sys2Proof.Machine.execEint s
  | .nop => Sys2Proof.Machine.execNop s
  | .ret => Sys2Proof.Machine.execRet s
  | .clr bw dst => Sys2Proof.Machine.execClr bw dst s
  | .clrc => Sys2Proof.Machine.execClrc s
  | .clrn => Sys2Proof.Machine.execClrn s
  | .clrz => Sys2Proof.Machine.execClrz s
  | .pop bw dst => Sys2Proof.Machine.execPop bw dst s
  | .setc => Sys2Proof.Machine.execSetc s
  | .setn => Sys2Proof.Machine.execSetn s
  | .setz => Sys2Proof.Machine.execSetz s
  | .tst bw dst => Sys2Proof.Machine.execTst bw dst s

end Sys2Proof.Machine
end

