-- ==== Sys2Proof/Machine/Cpu.lean ====
section
/-! DEFINITION. One step of the CPU: interrupt acceptance, fetch, execution (40_operands.md R130, R131, 60_exceptions.md R303), and whose turn
it is. -/

namespace Sys2Proof.Machine

/-- `n` words from an address on. -/
def State.readWords (s : State) (a : Word) : Nat → Except Stop (List Word)
  | 0 => .ok []
  | n + 1 =>
    match s.readWord a with
    | .error e => .error e
    | .ok w =>
      match s.readWords (a + 2) n with
      | .error e => .error e
      | .ok ws => .ok (w :: ws)

/-- The state an instruction starts in: PC past the instruction word (40_operands.md R130), no flag at risk from the write of an
earlier step (60_exceptions.md R363). -/
def State.startInstr (s : State) : State := s.settlePins.skipWord

/-- The stop of the source read, which comes before the fetch of a destination index word (20_memory.md R68, D32): the source
operand of a Format I word read in the state the instruction starts in, if its own index word can be had. Log 17. -/
def State.sourceStop (s : State) (iw : Word) : Option Stop :=
  if 4 ≤ opField iw then
    match s.readWords (s.pc + 2) (srcExtWords (asField iw) (srcField iw)) with
    | .error _ => none
    | .ok ws =>
      match decodeSrc (asField iw) (Reg.ofField (srcField iw)) ws with
      | .error _ => none
      | .ok (src, _) =>
        match evalSrc (Width.ofField (bwField iw)) src s.startInstr with
        | .error e => some e
        | .ok _ => none
  else none

/-- The words of the instruction at PC: the instruction word and the index words it takes (40_operands.md R131,
30_encoding.md R102). They are read before the operands; where an index word cannot be had, a stop of the source read that
R68 puts before it is the one named (log 17). -/
def State.fetchWords (s : State) : Except Stop (List Word) :=
  match s.readWord s.pc with
  | .error e => .error e
  | .ok iw =>
    match s.readWords (s.pc + 2) (extWords iw) with
    | .error e => .error ((s.sourceStop iw).getD e)
    | .ok ws => .ok (iw :: ws)

/-- The instruction at PC (40_operands.md R130, 30_encoding.md R107). -/
def State.fetch (s : State) : Except Stop Instr :=
  match s.fetchWords with
  | .error e => .error e
  | .ok ws =>
    match decode ws with
    | .ok (i, _) => .ok i
    | .error _ => .error (.fault (.illegalEncoding (ws.headD 0)))

/-- The state an instruction leaves, with note of whether it turned GIE from 0 to 1 (60_exceptions.md R303). -/
def State.finishInstr (before : State) (s : State) : State := s.setGieRose (!before.gie && s.gie)

/-- Fetching, decoding and executing one instruction (40_operands.md R130). -/
def executeOne (s : State) : Host.Outcome State Fault Refusal :=
  match s.fetch with
  | .error (.fault f) => .fault f
  | .error (.refused r) => .refused r
  | .ok i =>
    match exec i s.startInstr with
    | .next s' => .next (s.finishInstr s')
    | .fault f => .fault f
    | .refused r => .refused r

/-- Whether the slack of 60_exceptions.md R303 is open: the last instruction turned GIE on, the CPU is running, and no nonmaskable
request stands. -/
def State.slackOpen (s : State) : Bool :=
  s.gieRose && !s.cpuOff && (s.selectVector false s.platform.vectors).isNone

/-- `Step()` (40_operands.md R130): interrupt entry if a request is accepted, nothing while the CPU is off, one instruction
otherwise. Where the slack is open, a free value says whether one more instruction runs first (R303; log 12). -/
def cpuStep (s : State) : Host.Outcome State Fault Refusal :=
  match s.acceptable with
  | some v =>
    if s.slackOpen then
      if Config.freeBit s.draws then executeOne (s.setDraws (s.draws + 1))
      else outcome ((s.setDraws (s.draws + 1)).takeInterrupt v)
    else outcome (s.takeInterrupt v)
  | none => if s.cpuOff then .next s else executeOne s

/-- The step of whoever's turn it is: an empty agenda is the CPU's (20_memory.md R69, R76; log 15). An instruction is one atomic
step: no agent acts between its accesses, an assumption that errs toward proving (R69, D20): DESIGN CHOICE, log 38. -/
def stepTurn (s : State) : Host.Outcome State Fault Refusal :=
  match s.agenda with
  | [] => cpuStep s
  | .cpu :: rest => cpuStep (s.setAgenda rest)
  | .env a :: rest => outcome (envStep a (s.setAgenda rest))

/-- A byte list stored at consecutive addresses, wrapping at the top (20_memory.md R61). -/
def storeBytes (m : List Host.Cell) (a : Word) : List Byte → List Host.Cell
  | [] => m
  | b :: rest => storeBytes (Memory.write m a.toNat b) (a + 1) rest

/-- What keeps the next step from fetching is taken away, and nothing else: another agent's turn, a pending nonmaskable request,
a pending maskable one (GIE), the CPU being off. -/
def State.readyToFetch (s : State) : State :=
  let s1 := if s.agenda.isEmpty then s else s.setAgenda []
  let s2 := if (s1.selectVector false s1.platform.vectors).isSome then s1.setNmi [] else s1
  let s3 := if s2.acceptable.isSome then s2.setSr (s2.sr &&& 0xFFF7) else s2
  if s3.cpuOff then s3.setSr (s3.sr &&& 0xFFEF) else s3

/-- The state with an instruction of the opcode table stored where the next step fetches it: six bytes at PC (log 28). -/
def State.placeInstr (s : State) (nbits w : Nat) : State :=
  let s1 := s.readyToFetch
  s1.setMem (storeBytes s1.mem (evenWord s1.pc) (tableBytes nbits w))

end Sys2Proof.Machine
end

