-- ==== Sys2Proof/Machine/Step.lean ====
section
/-! DEFINITION. One step of the machine. -/

namespace Sys2Proof.Machine

/-- One step: the CPU's or another agent's (Machine/Cpu.lean). -/
def step (s : State) : Host.Outcome State Fault Refusal := stepTurn s

/-- The state in which the next step runs the given instruction of the opcode table (Machine/Cpu.lean, log 28). -/
def State.withFetchWord (s : State) (nbits w : Nat) : State := s.placeInstr nbits w

end Sys2Proof.Machine
end

