-- ==== Sys2Proof/Safety.lean ====
section
/-! DEFINITION. The terms statements about the machine use: the invariant of reachable states, what may be stored to, and what a
step leaves unchanged. -/

namespace Sys2Proof.Machine

/-- What holds of every state a run reaches: memory in canonical form (20_memory.md R60), PC and SP even (10_state.md R22, R23),
SR's reserved bits 0 (R30), TACTL's bit 2 (60_exceptions.md R374) and the read-only bits of every TACCTLx (R375) stored as 0, as
many capture/compare blocks as the platform has (R370). -/
structure State.Inv (s : State) : Prop where
  memWf : Memory.wf s.mem
  pcEven : s.pc[0] = false
  spEven : s.sp[0] = false
  srReserved : s.sr &&& 0xFE00#16 = 0#16
  taclrZero : s.timer.tactl[2] = false
  ctlReadOnly : ∀ b ∈ s.timer.blocks, b.ctl &&& 0x0608#16 = 0#16
  blockCount : s.timer.blocks.length = s.platform.ccrCount

/-- The memory bytes an access at an address covers: one, or the two of the even word (20_memory.md R62, R63, R64). -/
def cellsOf (bw : Width) (a : Word) : List Nat :=
  match bw with
  | .byte => [a.toNat]
  | .word => [(evenWord a).toNat, (evenWord a + 1).toNat]

/-- The width and address stored to when a result goes to a location (40_operands.md R139). -/
def storedAt (bw : Width) : Loc → Option (Width × Word)
  | .mem a => some (bw, a)
  | _ => none

/-- Whether a result of the given width can be stored at a location (20_memory.md R72, R73, 40_operands.md R139, R140). -/
def writableLoc (bw : Width) (loc : Loc) (s : State) : Bool :=
  match loc with
  | .reg _ => true
  | .discard => true
  | .const _ => false
  | .mem a =>
    match bw with
    | .byte =>
      match s.kindAt a with
      | .ram => true
      | .port _ _ => true
      | .rom | .timer _ | .unimplemented => false
    | .word =>
      match s.kindAt (evenWord a) with
      | .timer r => (s.timer.read r).isSome
      | _ => s.isRam (evenWord a) && s.isRam (evenWord a + 1)

/-- Where a Format I instruction stores: the destination's location in the state after the source operand
(40_operands.md R137). -/
def dstAfterSrc (bw : Width) (src : Src) (dst : Dst) (s : State) : Loc := (dstLoc dst (srcState bw src s)).1

/-- The state in which a Format I instruction reads its destination: after the source, with the destination located
(40_operands.md R137). -/
def dstLocated (bw : Width) (src : Src) (dst : Dst) (s : State) : State := (dstLoc dst (srcState bw src s)).2

/-- Timer_A with every captured value counted as read: all of it but the model's notes of unread captures (log 36). -/
def TimerState.allRead (t : TimerState) : TimerState :=
  { t with blocks := t.blocks.map fun b => { b with unread := false } }

/-- What a step from `s` to `t` leaves unchanged: every register but PC, SR and those `changed` names; the bits of SR in
`srKept`; every byte of memory outside the stored bytes; each port and the timer unless the store goes to one of their
registers, the timer but for captured values that an operand's read makes read (60_exceptions.md R375); the nonmaskable
requests, the agenda, the note of a risen GIE, the platform. The count of draws may change. -/
structure Framed (s t : State) (changed : Reg → Prop) (srKept : Word) (store : Option (Width × Word)) : Prop where
  regs : ∀ r, r ≠ .pc → r ≠ .sr → ¬changed r → t.readReg r = s.readReg r
  sr : t.sr &&& srKept = s.sr &&& srKept
  mem : ∀ n, (∀ bw a, store = some (bw, a) → n ∉ cellsOf bw a) → Memory.read t.mem n = Memory.read s.mem n
  ports : ∀ x, (∀ bw a r, store = some (bw, a) → s.kindAt a ≠ .port x r) → t.port x = s.port x
  timer : (∀ bw a r, store = some (bw, a) → s.kindAt (evenWord a) ≠ .timer r) → t.timer.allRead = s.timer.allRead
  unread : (∀ b ∈ s.timer.blocks, b.unread = false) → ∀ b ∈ t.timer.blocks, b.unread = false
  nmi : t.nmi = s.nmi
  gieRose : t.gieRose = s.gieRose
  agenda : t.agenda = s.agenda
  platform : t.platform = s.platform

/-- The registers a Format I instruction may change besides PC and SR: its register destination, and the register its source
autoincrements (40_operands.md R136, R140). -/
def changedBy (src : Src) (dst : Dst) (r : Reg) : Prop := dst = .reg r ∨ src = .autoinc r

/-- SR's bits that are not the four arithmetic flags (10_state.md R26, 40_operands.md R146). -/
def notFlags : Word := 0xFEF8#16

/-- The flags of a sum `res` of `a` and `b` with a given carry out (40_operands.md R141). -/
def sumFlags {w : Nat} (a b res : BitVec w) (carry : Bool) : Flags :=
  { v := a.msb == b.msb && res.msb != a.msb, n := res.msb, z := decide (res = 0), c := carry }

/-- The flags of a difference `res` of `dst` and `src`, C meaning no borrow; V is set when the operands differ in sign and
the result's sign is not the destination's (40_operands.md R142). -/
def differenceFlags {w : Nat} (dst src res : BitVec w) (noBorrow : Bool) : Flags :=
  { v := dst.msb != src.msb && res.msb != dst.msb, n := res.msb, z := decide (res = 0), c := noBorrow }

/-- The flags of a logical result (40_operands.md R143). -/
def resultFlags {w : Nat} (res : BitVec w) (v : Bool) : Flags :=
  { v := v, n := res.msb, z := decide (res = 0), c := decide (res ≠ 0) }

/-- What the output mode table says of OUTx, `old` before a count and `new` after it, by the output mode and the two equality
events of the count (60_exceptions.md R376). Nothing where both events come and the mode reacts to both. -/
def outputTable (mode : Nat) (equx equ0 old new : Bool) : Prop :=
  (equx = false → equ0 = false → new = old) ∧
    (equx = true → (equ0 = false ∨ mode ∈ [0, 1, 4, 5]) →
      (mode ∈ [1, 3] → new = true) ∧ (mode ∈ [2, 4, 6] → new = !old) ∧ (mode ∈ [5, 7] → new = false) ∧
      (mode = 0 → new = old)) ∧
    (equx = false → equ0 = true →
      (mode ∈ [2, 3] → new = false) ∧ (mode ∈ [6, 7] → new = true) ∧ (mode ∈ [0, 1, 4, 5] → new = old))

/-- Whether a change of the selected input from `old` to `now` is the edge CMx selects (60_exceptions.md R375). -/
def selectedEdge (cm : Nat) (old now : Bool) : Prop :=
  (cm = 1 ∧ old = false ∧ now = true) ∨ (cm = 2 ∧ old = true ∧ now = false) ∨ (cm = 3 ∧ old ≠ now)

/-- Timer_A with every interrupt flag taken as 0: all of it but TAIFG and the CCIFG bits. -/
def TimerState.noFlags (t : TimerState) : TimerState :=
  { t with tactl := t.tactl &&& 0xFFFE, blocks := t.blocks.map fun b => { b with ctl := b.ctl &&& 0xFFFE } }

/-- The number the `k` low decimal digits of a binary-coded number stand for (40_operands.md R144). -/
def decimalValue : Nat → Nat → Nat
  | 0, _ => 0
  | k + 1, a => a % 16 + 10 * decimalValue k (a / 16)

/-- The four bytes an interrupt entry pushes to are RAM (60_exceptions.md R311, R322 (6)). -/
def stackRoom (s : State) : Prop :=
  s.isRam (s.sp - 1) = true ∧ s.isRam (s.sp - 2) = true ∧ s.isRam (s.sp - 3) = true ∧ s.isRam (s.sp - 4) = true

/-- A word the opcode map leaves unassigned (30_encoding.md R118). -/
def unassignedWord (iw : Word) : Prop := iw.toNat < 0x1000 ∨ (0x1380 ≤ iw.toNat ∧ iw.toNat < 0x2000)

/-- A Format II variant the table excludes (30_encoding.md R119). -/
def excludedWord (iw : Word) : Prop :=
  (0x10C0 ≤ iw.toNat ∧ iw.toNat < 0x1100) ∨ (0x11C0 ≤ iw.toNat ∧ iw.toNat < 0x1200) ∨
    (0x12C0 ≤ iw.toNat ∧ iw.toNat < 0x1300) ∨ (0x1301 ≤ iw.toNat ∧ iw.toNat < 0x1380)

/-- The number of words of an instruction, from its first word (30_encoding.md R102). -/
def instructionLength (iw : Word) : Option Nat :=
  let srcExt (as n : Nat) : Nat := if (as = 1 ∧ n ≠ 3) ∨ (as = 3 ∧ n = 0) then 1 else 0
  if iw.extractLsb' 13 3 = 0b001#3 then some 1
  else if iw.extractLsb' 10 6 = 0b000100#6 then
    some (1 + srcExt (iw.extractLsb' 4 2).toNat (iw.extractLsb' 0 4).toNat)
  else if 4 ≤ (iw.extractLsb' 12 4).toNat then
    some (1 + srcExt (iw.extractLsb' 4 2).toNat (iw.extractLsb' 8 4).toNat + (iw.extractLsb' 7 1).toNat)
  else none

/-- Two bytes of RAM or program memory hold the word `w`, low byte first (20_memory.md R63). -/
structure State.HoldsWord (s : State) (a w : Word) : Prop where
  lowKind : s.kindAt (evenWord a) = .ram ∨ s.kindAt (evenWord a) = .rom
  highKind : s.kindAt (evenWord a + 1) = .ram ∨ s.kindAt (evenWord a + 1) = .rom
  low : Memory.read s.mem (evenWord a).toNat = some (w.extractLsb' 0 8)
  high : Memory.read s.mem (evenWord a + 1).toNat = some (w.extractLsb' 8 8)

/-- A source operand of a well-formed instruction that can be read: `v` is its value and `u` the state after it
(40_operands.md R137, steps 1 and 2). -/
def sourceReady (bw : Width) (src : Src) (s : State) (v : BitVec bw.bits) (u : State) : Prop :=
  src.wellFormed = true ∧ evalSrc bw src s = .ok (v, u)

/-- The operands of a Format I instruction: the form has a meaning, the source can be read (`sv`), so can the destination where
the instruction reads it (`dv`), the destination can be written where it is, and `u` is the state in which the result is
written (40_operands.md R137). -/
def operandsReady (bw : Width) (src : Src) (dst : Dst) (use : DstUse) (flags : Bool) (s : State) (sv dv : BitVec bw.bits)
    (u : State) : Prop :=
  src.wellFormed = true ∧ twoOperandRefusal bw src dst use flags = none ∧
    evalSrc bw src s = .ok (sv, srcState bw src s) ∧
    readDst bw use (dstAfterSrc bw src dst s) (dstLocated bw src dst s) = .ok dv ∧
    u = (dstLocated bw src dst s).noteDst bw use (dstAfterSrc bw src dst s) ∧
    (use ≠ .read → writableLoc bw (dstAfterSrc bw src dst s) u = true)

/-- The destination of an emulated instruction of one operand: its form has a meaning, it can be read (`dv`) and written, and
`u` is the state in which the result is written (44_emulated.md R230). -/
def destinationReady (bw : Width) (dst : Dst) (s : State) (dv : BitVec bw.bits) (u : State) : Prop :=
  operandsReady bw (.const .zero) dst .readWrite true s 0 dv u

/-- The operand of RRC, RRA, SWPB or SXT: its form has a meaning, it can be read (`v`) and written, and `u` is the state in which
the result is written (41_single_operand.md R160). -/
def modifyReady (bw : Width) (src : Src) (flags : Bool) (s : State) (v : BitVec bw.bits) (u : State) : Prop :=
  src.wellFormed = true ∧ modifyRefusal bw src flags = none ∧ evalSrc bw src s = .ok (v, u) ∧
    writableLoc bw (srcLoc bw src s).1 u = true

/-- Instruction `i` completes in `s`: in state `u` the flags `f` are written, then `res` goes to `loc` (40_operands.md R137). -/
def completesWith (i : Instr) (s : State) (bw : Width) (loc : Loc) (u : State) (res : BitVec bw.bits) (f : Option Flags) :
    Prop :=
  ∃ t, writeLoc bw loc res (u.setFlags f) = .ok t ∧ exec i s = .next t

/-- An interrupt entry is the next step: the CPU has its turn, vector `v` is selected, the slack is not open, PC, SP and SR are as
the hardware keeps them, and the stack has room (60_exceptions.md R303, R310, R311). -/
structure State.EntryReady (s : State) (v : VectorEntry) : Prop where
  turn : s.agenda = []
  request : s.acceptable = some v
  noSlack : s.slackOpen = false
  pcEven : s.pc[0] = false
  spEven : s.sp[0] = false
  srReserved : s.sr &&& 0xFE00#16 = 0#16
  room : stackRoom s

/-- The four bytes an interrupt entry pushes to (60_exceptions.md R311). -/
def entryCells (s : State) : List Nat := cellsOf .word (s.sp - 2) ++ cellsOf .word (s.sp - 4)

/-- What the CPU owns: registers and memory (20_memory.md R76). -/
def sameCpu (s t : State) : Prop :=
  t.pc = s.pc ∧ t.sp = s.sp ∧ t.sr = s.sr ∧ t.gpr = s.gpr ∧ t.mem = s.mem

end Sys2Proof.Machine
end

