-- ==== Sys2Proof/Certificates/Slice0/Obligations.lean ====
section
/-! DEFINITION. The statements for the provers, as OBLIGATIONS.json lists them. -/

open Sys2Proof Sys2Proof.Machine

/-- For every well-formed instruction i and whatever words follow, decode of encode i followed by them answers
i.expand (i itself for a core instruction) and exactly the words that follow. -/
def Obligations.DecodeOfEncode : Prop :=
  ∀ (i : Instr) (rest : List Word), i.wellFormed = true → decode (encode i ++ rest) = .ok (i.expand, rest)

/-- If decode of a word list answers instruction i and a rest, then i is well-formed, i is its own expansion, and
encode i followed by the rest is the word list. -/
def Obligations.EncodeOfDecode : Prop :=
  ∀ (ws rest : List Word) (i : Instr), decode ws = .ok (i, rest) → i.wellFormed = true ∧ i.expand = i ∧ encode i ++ rest = ws

/-- Words 0000h-0FFFh, 1380h-1FFFh are refused by the decoder as unassigned; 10C0h-10FFh, 11C0h-11FFh, 12C0h-12FFh,
1301h-137Fh as excluded variants. A CPU step that reads such a word at PC, with no request to accept and the CPU on,
is the fault IllegalEncoding of that word. Every other word decodes, given its index words. That a model refuses these
words, and the outcome IllegalEncoding, are the spec's own decisions (R118, R119, R10; D13, D33); that the opcode map
has no other holes is R106, R107. -/
def Obligations.IllegalWords : Prop :=
  ∀ (iw : Word) (rest : List Word),
    (unassignedWord iw → decode (iw :: rest) = .error (.unassigned iw)) ∧
    (excludedWord iw → decode (iw :: rest) = .error (.excludedVariant iw)) ∧
    (¬unassignedWord iw → ¬excludedWord iw → extWords iw ≤ rest.length →
      ∃ i, decode (iw :: rest) = .ok (i, rest.drop (extWords iw))) ∧
    (unassignedWord iw ∨ excludedWord iw → ∀ s : State, s.agenda = [] → s.acceptable = none → s.cpuOff = false →
      s.readWord s.pc = .ok iw → step s = .fault (.illegalEncoding iw))

/-- If decode answers an instruction and a rest for iw followed by more words, then instructionLength iw is some n,
the formula of R102 over the bits of iw, and the rest is the word list less its first n words, all of which exist.
RETI (1300h) has length 1, and a Format I word with Ad = 1 and destination R3 still counts its index word. R102 marks
the formula as derived from R101. -/
def Obligations.InstructionLengthFromFirstWord : Prop :=
  (∀ (iw : Word) (more rest : List Word) (i : Instr), decode (iw :: more) = .ok (i, rest) →
      ∃ n, instructionLength iw = some n ∧ n ≤ (iw :: more).length ∧ rest = (iw :: more).drop n) ∧
    instructionLength 0x1300#16 = some 1 ∧ instructionLength 0x4083#16 = some 2

/-- 104Ah is RRC.B R10; 12B0h C100h is CALL #0C100h; 1300h is RETI; 23FDh is JNE with offset 3FDh; 9D88h 0002h is CMP
R13,2(R8); C8D8h 0002h 0000h is BIC.B 2(R8),0(R8); E33Ah is XOR #-1,R10. -/
def Obligations.SampleWordsDecode : Prop :=
  decode [0x104A] = .ok (.rrc .byte (.reg (.gp 6)), []) ∧
    decode [0x12B0, 0xC100] = .ok (.call (.imm 0xC100), []) ∧
    decode [0x1300] = .ok (.reti, []) ∧
    decode [0x23FD] = .ok (.jne 0x3FD, []) ∧
    decode [0x9D88, 0x0002] = .ok (.cmp .word (.reg (.gp 9)) (.indexed (.gp 4) 2), []) ∧
    decode [0xC8D8, 0x0002, 0x0000] = .ok (.bic .byte (.indexed (.gp 4) 2) (.indexed (.gp 4) 0), []) ∧
    decode [0xE33A] = .ok (.xor .word (.const .minusOne) (.reg (.gp 6)), [])

/-- With the turn the CPU's, no request to accept and the CPU on: if n words can be read from PC on and they decode to
i, then step is exec of i on the state with PC 2 further and no PxIFG bit at risk; a next state is noted with whether
GIE rose, a fault or a refusal is passed on. The note that GIE rose is the model's (log 12), and so is when the
permission for PxIFG bits ends (log 20). -/
def Obligations.StepRunsTheDecodedInstruction : Prop :=
  ∀ (s : State) (n : Nat) (ws rest : List Word) (i : Instr), s.agenda = [] → s.acceptable = none → s.cpuOff = false →
    s.readWords s.pc n = .ok ws → decode ws = .ok (i, rest) →
    step s = match exec i (s.settlePins.setPc (s.pc + 2)) with
      | .next t => .next (t.setGieRose (!s.gie && t.gie))
      | .fault f => .fault f
      | .refused r => .refused r

/-- For every state that meets State.Inv, whatever agent moves, a next state meets it too: memory in canonical form
within 2^16 addresses, PC and SP even, SR bits 15:9 zero, TACTL bit 2 and TACCTLx bits 10, 9 and 3 stored as zero, and
as many capture/compare blocks as the platform says. -/
def Obligations.StepKeepsInvariant : Prop := ∀ s t : State, s.Inv → step s = .next t → t.Inv

/-- State.reset meets State.Inv. -/
def Obligations.ResetMeetsInvariant : Prop := State.reset.Inv

/-- In State.reset SR is 0; P1DIR, P1IFG, P1IE, P1SEL, P1SEL2 and P1REN are 0; TACTL reads 0 and every TACCTLx stores
0; no source requests. Nothing is claimed of PC, SP, R4-R15, P1OUT, P1IES, TAR, TACCRx or memory, whose values are the
model's (logs 1, 2, 6). SR = 0 (R36, R401) the spec marks as general knowledge. -/
def Obligations.ResetValues : Prop :=
  State.reset.sr = 0 ∧
    (∀ r ∈ [PortReg.pxdir, .pxifg, .pxie, .pxsel, .pxsel2, .pxren], ∀ d, State.reset.p1.read d r = 0) ∧
    State.reset.timer.read .tactl = some 0 ∧ (∀ b ∈ State.reset.timer.blocks, b.ctl = 0) ∧
    ∀ i, State.reset.requesting i = false

/-- When the environment raises reset and the reset vector's word w lies in program memory: the next state has SR 0
and PC w with bit 0 cleared; P1DIR, P1IFG, P1IE, P1SEL, P1SEL2, P1REN read 0 and so do P2's; PxOUT and PxIES are
unchanged; PxIN reads the levels the pins had; TACTL is 0; TACCTLx reads 0 apart from SCCI and CCI, and OUTx is 0; no
maskable source requests. Nothing is claimed of SP, R4-R15 and RAM. That reset does this to SR and PC (R401) and to P2
(R402) the spec marks as general knowledge; that pins and inputs are not touched is log 14. -/
def Obligations.ResetEventEffect : Prop :=
  ∀ (s : State) (rest : List Turn) (w : Word), s.agenda = .env .reset :: rest →
    s.HoldsWord s.platform.resetVector w →
    s.kindAt (evenWord s.platform.resetVector) = .rom → s.kindAt (evenWord s.platform.resetVector + 1) = .rom →
    ∃ t, step s = .next t ∧ t.sr = 0 ∧ t.pc = evenWord w ∧
      (∀ x d, ∀ r ∈ [PortReg.pxdir, .pxifg, .pxie, .pxsel, .pxsel2, .pxren], (t.port x).read d r = 0) ∧
      (∀ x d, ∀ r ∈ [PortReg.pxout, .pxies], (t.port x).read d r = (s.port x).read d r) ∧
      (∀ x d, (t.port x).read d .pxin = (s.port x).level) ∧
      t.timer.tactl = 0 ∧
      (∀ b ∈ t.timer.blocks, b.readCtl &&& 0xFBF7#16 = 0#16 ∧ b.outx = false ∧ b.cap = false ∧ b.ccie = false) ∧
      (∀ i, irqNonmaskable i = false → t.requesting i = false) ∧ t.agenda = rest

/-- Whatever agent moves, a next state has the same memory map, vectors, reset vector, nonmaskable sources and number
of capture/compare blocks. -/
def Obligations.PlatformNeverChanges : Prop := ∀ s t : State, step s = .next t → t.platform = s.platform

/-- With the turn the CPU's, CPUOFF = 1 and no acceptable request, the step answers the same state. If a step leads
from a state with CPUOFF = 1 to one with CPUOFF = 0, then a request was acceptable on the CPU's turn, or the agent
that moved raised reset. -/
def Obligations.OnlyInterruptOrResetWakes : Prop :=
  (∀ s : State, s.agenda = [] → s.cpuOff = true → s.acceptable = none → step s = .next s) ∧
    ∀ s t : State, s.cpuOff = true → step s = .next t → t.cpuOff = false →
      (∃ rest, s.agenda = .env .reset :: rest) ∨
      ((s.agenda = [] ∨ ∃ rest, s.agenda = .cpu :: rest) ∧ ∃ v, s.acceptable = some v)

/-- From a state with CPUOFF = 1, GIE = 0, no nonmaskable source on the platform, none requesting, and no reset event
in the agenda, every run of k steps answers a next state, with PC, SP, SR, R4-R15 and memory as at the start. -/
def Obligations.StoppedForGood : Prop :=
  ∀ (k : Nat) (s : State), s.cpuOff = true → s.gie = false → s.platform.nmiSources = [] → s.nmi = [] →
    Turn.env .reset ∉ s.agenda → ∃ t : State, Host.Core.run Sys2Proof.core k s = .next t ∧ sameCpu s t

/-- acceptable answers a vector if and only if some entry of VECTORS lists a source whose flag and enable are 1 and
that is nonmaskable or finds GIE = 1. -/
def Obligations.AcceptanceCondition : Prop :=
  ∀ s : State, (∃ v, s.acceptable = some v) ↔
    ∃ v ∈ s.platform.vectors, ∃ i ∈ v.sources,
      s.irqFlag i = true ∧ s.irqEnable i = true ∧ (s.gie = true ∨ ∃ k, i = .nmi k)

/-- If acceptable answers v, then v is in VECTORS and has a source that requests and may be accepted, and every vector
with such a source has a priority no higher than v's. The order itself is the platform's VECTORS; the state is that of
the step boundary when acceptance is decided, and that after the two pushes when an entry selects its vector (R304,
R310; log 16). -/
def Obligations.HighestPriorityIsSelected : Prop :=
  ∀ (s : State) (v : VectorEntry), s.acceptable = some v →
    let pending (u : VectorEntry) : Prop :=
      ∃ i ∈ u.sources, s.irqFlag i = true ∧ s.irqEnable i = true ∧ (s.gie = true ∨ ∃ k, i = .nmi k)
    v ∈ s.platform.vectors ∧ pending v ∧ ∀ u ∈ s.platform.vectors, pending u → u.priority ≤ v.priority

/-- With an entry ready on vector v, whose word w lies in memory outside the four pushed bytes: the step answers a
next state with SP 4 less, the old PC at old SP - 2, the old SR at old SP - 4, where SP points, SR 0, PC w with bit 0
cleared, R4-R15, the port registers but PxIFG, Timer_A but its interrupt flags, the platform and every other byte of
memory unchanged. Which flag changes is EntryClearsSingleSourceFlag. The stack picture is R311, the rest R310; that
PC's bit 0 is cleared (R22, D16) the spec marks as general knowledge. -/
def Obligations.InterruptEntryEffect : Prop :=
  ∀ (s : State) (v : VectorEntry) (w : Word), s.EntryReady v → s.HoldsWord v.address w →
    (∀ n ∈ cellsOf .word v.address, n ∉ entryCells s) →
    ∃ t, step s = .next t ∧ t.sp = s.sp - 4 ∧ t.readWord (s.sp - 2) = .ok s.pc ∧ t.readWord t.sp = .ok s.sr ∧
      t.sr = 0 ∧ t.pc = evenWord w ∧ t.gpr = s.gpr ∧ t.platform = s.platform ∧ t.agenda = [] ∧
      (∀ x d, ∀ r ∈ [PortReg.pxin, .pxout, .pxdir, .pxies, .pxie, .pxsel, .pxsel2, .pxren],
        (t.port x).read d r = (s.port x).read d r) ∧
      t.timer.noFlags = s.timer.noFlags ∧ ∀ n, n ∉ entryCells s → Memory.read t.mem n = Memory.read s.mem n

/-- If an entry is ready on v and the step answers t: where v lists exactly one source i, i's flag is 0 in t and every
other flag is as before; where it lists more or none, every flag is as before. -/
def Obligations.EntryClearsSingleSourceFlag : Prop :=
  ∀ (s t : State) (v : VectorEntry), s.EntryReady v → step s = .next t →
    (∀ i, v.sources = [i] → t.irqFlag i = false ∧ ∀ j, j ≠ i → t.irqFlag j = s.irqFlag j) ∧
    ((∀ i, v.sources ≠ [i]) → ∀ j, t.irqFlag j = s.irqFlag j)

/-- If an entry is ready and the step answers t, then in every state u on the same platform with SP where t has it and
the four pushed bytes as t has them, RETI completes with the PC, the SR (flags, GIE and low-power bits) and the SP
that were there before the entry. -/
def Obligations.RetiUndoesInterruptEntry : Prop :=
  ∀ (s t u : State) (v : VectorEntry), s.EntryReady v → step s = .next t → u.platform = s.platform → u.sp = t.sp →
    (∀ n ∈ entryCells s, Memory.read u.mem n = Memory.read t.mem n) →
    ∃ r, exec .reti u = .next r ∧ r.pc = s.pc ∧ r.sr = s.sr ∧ r.sp = s.sp

/-- With the slack open (the last instruction turned GIE on, the CPU is on, no nonmaskable request) and a request
acceptable, the next free bit decides: where it is 1 the step is the instruction at PC, where it is 0 the entry, in
both cases with one draw counted. That a free value decides is the model's reading of the allowance (log 12). -/
def Obligations.SlackAllowsEitherBehaviour : Prop :=
  ∀ (s : State) (v : VectorEntry), s.agenda = [] → s.acceptable = some v → s.slackOpen = true →
    step s = if Config.freeBit s.draws then executeOne (s.setDraws (s.draws + 1))
      else outcome ((s.setDraws (s.draws + 1)).takeInterrupt v)

/-- After writing v to a register, PC and SP read v with bit 0 cleared, SR reads v with bits 15:9 cleared, R3 reads 0
and the state is unchanged, R4 to R15 read v; every other register reads as before. That bit 0 of PC and SP and bits
15:9 of SR read 0, and that R3 discards, the spec marks as general knowledge (R22, R23, R24, R30). -/
def Obligations.RegisterReadAfterWrite : Prop :=
  ∀ (s : State) (v : Word),
    (s.writeReg .pc v).readReg .pc = v &&& 0xFFFE ∧ (s.writeReg .sp v).readReg .sp = v &&& 0xFFFE ∧
    (s.writeReg .sr v).readReg .sr = v &&& 0x01FF ∧ s.writeReg .cg v = s ∧ s.readReg .cg = 0 ∧
    (∀ i, (s.writeReg (.gp i) v).readReg (.gp i) = v) ∧
    ∀ r q, q ≠ r → (s.writeReg r v).readReg q = s.readReg q

/-- Writing a byte result to R4 to R15 leaves the byte, zero-extended; with R3 as destination (Ad = 0) the location
discards and the state is unchanged, in both widths. The spec marks both as general knowledge (R140, R24). -/
def Obligations.ByteResultClearsHighByte : Prop :=
  (∀ (i : Fin 12) (v : Byte) (s : State), ∃ t, writeLoc .byte (.reg (.gp i)) v s = .ok t ∧
      t.readReg (.gp i) = v.setWidth 16 ∧ ∀ q, q ≠ .gp i → t.readReg q = s.readReg q) ∧
    (∀ (bw : Width) (v : BitVec bw.bits) (s : State), (dstLoc (.reg .cg) s) = (.discard, s) ∧
      readLoc bw .discard s = .ok 0 ∧ writeLoc bw .discard v s = .ok s)

/-- Where MEM_MAP says RAM at a, MemWrite(a, 1, v) succeeds, MemRead(a, 1) then gives v, and every other address reads
as before, as a byte access and in the list of cells. Formalises R62. -/
def Obligations.ByteMemoryReadAfterWrite : Prop :=
  ∀ (s : State) (a : Word) (v : Byte), s.kindAt a = .ram → ∃ t, s.writeByte a v = .ok t ∧ t.readByte a = .ok v ∧
    (∀ b, b ≠ a → t.readByte b = s.readByte b) ∧ ∀ n, n ≠ a.toNat → Memory.read t.mem n = Memory.read s.mem n

/-- MemRead(a, 2) and MemWrite(a, 2, v) ignore bit 0 of a. In RAM a stored word reads back; its bits 7:0 lie at the
even address and its bits 15:8 one above, as byte reads see. A word read is the two bytes read, the upper one first in
significance. The spec marks the byte order (R63) and the ignored bit 0 (R64; log 5) as general knowledge. -/
def Obligations.WordsAreLittleEndian : Prop :=
  (∀ (s : State) (a v : Word), s.readWord a = s.readWord (a &&& 0xFFFE) ∧ s.writeWord a v = s.writeWord (a &&& 0xFFFE) v) ∧
    (∀ (s : State) (a v : Word), s.isRam (a &&& 0xFFFE) = true → s.isRam ((a &&& 0xFFFE) + 1) = true →
      ∃ t, s.writeWord a v = .ok t ∧ t.readWord a = .ok v ∧ t.readByte (a &&& 0xFFFE) = .ok (v.extractLsb' 0 8) ∧
        t.readByte ((a &&& 0xFFFE) + 1) = .ok (v.extractLsb' 8 8)) ∧
    (∀ (s : State) (a : Word) (lo hi : Byte), s.isRam (a &&& 0xFFFE) = true → s.isRam ((a &&& 0xFFFE) + 1) = true →
      s.readByte (a &&& 0xFFFE) = .ok lo → s.readByte ((a &&& 0xFFFE) + 1) = .ok hi →
      ∃ w, s.readWord a = .ok w ∧ w.toNat = hi.toNat * 256 + lo.toNat)

/-- A word access of which either byte is a port register or unimplemented, a byte access at a timer register or an
unimplemented address, and a write to read-only program memory are UnmappedAccess; that a word access names the even
address whichever byte is at fault is the model's choice (log 30). A byte access at a port register and a word access
at an existing timer register answer. R72 marks the width of timer accesses as general knowledge, and R72 and R73 are
the spec's own decision of what a model does. -/
def Obligations.UnmappedAccesses : Prop :=
  ∀ (s : State) (a v : Word) (b : Byte),
    (∀ x r, s.kindAt (evenWord a) = .port x r →
      s.readWord a = .error (.fault (.unmappedAccess (evenWord a))) ∧
      s.writeWord a v = .error (.fault (.unmappedAccess (evenWord a)))) ∧
    (∀ r, s.kindAt a = .timer r →
      s.readByte a = .error (.fault (.unmappedAccess a)) ∧ s.writeByte a b = .error (.fault (.unmappedAccess a))) ∧
    (s.kindAt a = .unimplemented →
      s.readByte a = .error (.fault (.unmappedAccess a)) ∧ s.writeByte a b = .error (.fault (.unmappedAccess a))) ∧
    (s.kindAt (evenWord a) = .unimplemented →
      s.readWord a = .error (.fault (.unmappedAccess (evenWord a))) ∧
      s.writeWord a v = .error (.fault (.unmappedAccess (evenWord a)))) ∧
    ((∃ x r, s.kindAt (evenWord a + 1) = .port x r) ∨ s.kindAt (evenWord a + 1) = .unimplemented →
      (∀ r, s.kindAt (evenWord a) ≠ .timer r) →
      s.readWord a = .error (.fault (.unmappedAccess (evenWord a))) ∧
      s.writeWord a v = .error (.fault (.unmappedAccess (evenWord a)))) ∧
    (s.kindAt a = .rom → s.writeByte a b = .error (.fault (.unmappedAccess a))) ∧
    (s.kindAt (evenWord a) = .rom → s.writeWord a v = .error (.fault (.unmappedAccess (evenWord a)))) ∧
    (∀ x r, s.kindAt a = .port x r → s.readByte a = .ok ((s.port x).read s.draws r) ∧ ∃ t, s.writeByte a b = .ok t) ∧
    (∀ r w, s.kindAt (evenWord a) = .timer r → s.timer.read r = some w →
      s.readWord a = .ok w ∧ ∃ t, s.writeWord a v = .ok t)

/-- A byte read of RAM or program memory at an address with no byte is the fault UninitialisedRead of that address.
That it faults, rather than giving a drawn value, is the model's choice among the two the spec allows (log 4). -/
def Obligations.UnwrittenMemoryFaults : Prop :=
  ∀ (s : State) (a : Word), s.kindAt a = .ram ∨ s.kindAt a = .rom → Memory.read s.mem a.toNat = none →
    s.readByte a = .error (.fault (.uninitialisedRead a))

/-- A byte write at a port register's address succeeds; the register then reads the byte, or, for PxIN, the state is
unchanged; every other register of that port, the pin levels, the other port, memory and the timer are unchanged. PxIN
reads the level of each digital I/O pin; a write to PxSEL or PxSEL2 changes which pins are, and of the other pins'
bits nothing is claimed (R353, R359). -/
def Obligations.PortRegisterAccess : Prop :=
  ∀ (s : State) (a : Word) (x : PortId) (r : PortReg) (v : Byte), s.kindAt a = .port x r →
    ∃ t, s.writeByte a v = .ok t ∧ (r ≠ .pxin → t.readByte a = .ok v) ∧ (r = .pxin → t = s) ∧
      (∀ q d, q ≠ r → (q = .pxin → r ≠ .pxsel ∧ r ≠ .pxsel2) → (t.port x).read d q = (s.port x).read d q) ∧
      (t.port x).level = (s.port x).level ∧ (∀ y, y ≠ x → t.port y = s.port y) ∧ t.mem = s.mem ∧ t.timer = s.timer ∧
      ∀ (d : Nat) (k : Fin 8), (t.port x).sel.getLsbD k = false → (t.port x).sel2.getLsbD k = false →
        ((t.port x).read d .pxin).getLsbD k = (t.port x).level.getLsbD k

/-- On the platform of the reset state, P1IN, P1OUT, P1DIR, P1IFG, P1IES, P1IE, P1SEL, P1REN and P1SEL2 lie at 20h,
21h, 22h, 23h, 24h, 25h, 26h, 27h and 41h. -/
def Obligations.P1RegisterAddresses : Prop :=
  [0x20, 0x21, 0x22, 0x23, 0x24, 0x25, 0x26, 0x27, 0x41].map State.reset.kindAt =
    [PortReg.pxin, .pxout, .pxdir, .pxifg, .pxies, .pxie, .pxsel, .pxren, .pxsel2].map (RegionKind.port .p1)

/-- A word write at TACTL's address succeeds; TACTL then reads the word with bit 2 zero. If bit 2 was 1, TAR and the
divider are 0 and the direction is up; otherwise they are unchanged. The capture/compare blocks are unchanged. That
the unused bits 15:10 and 3 store what is written is the model's choice (log 32), and so is that OUTx stays on TACLR
(log 35). A word written to TAR, or to TACCRx of a block that exists, succeeds and is read back, and the rest of the
timer is unchanged. TACCRx read as an operand gives its value, and the captured value then counts as read and nothing
else of the timer changes; that this is what COV asks is the model's reading (log 36). -/
def Obligations.TimerRegisterWrites : Prop :=
  (∀ (s : State) (a v : Word), s.kindAt (evenWord a) = .timer .tactl →
      ∃ t, s.writeWord a v = .ok t ∧ t.readWord a = .ok (v &&& 0xFFFB) ∧ t.timer.blocks = s.timer.blocks ∧
        (v.getLsbD 2 = true → t.timer.tar = 0 ∧ t.timer.divider = 0 ∧ t.timer.down = false) ∧
        (v.getLsbD 2 = false →
          t.timer.tar = s.timer.tar ∧ t.timer.divider = s.timer.divider ∧ t.timer.down = s.timer.down)) ∧
    (∀ (s : State) (a v : Word), s.kindAt (evenWord a) = .timer .tar →
      ∃ t, s.writeWord a v = .ok t ∧ t.readWord a = .ok v ∧ t.timer = { s.timer with tar := v }) ∧
    (∀ (s : State) (a v : Word) (x : Nat) (b : CcBlock), s.kindAt (evenWord a) = .timer (.taccr x) →
      s.timer.blocks[x]? = some b →
      ∃ t, s.writeWord a v = .ok t ∧ t.readWord a = .ok v ∧
        t.timer = { s.timer with blocks := s.timer.blocks.set x { b with ccr := v } }) ∧
    ∀ (s : State) (a : Word) (x : Nat) (b : CcBlock), s.kindAt (evenWord a) = .timer (.taccr x) →
      s.timer.blocks[x]? = some b →
      ∃ u, evalSrc .word (.absolute a) s = .ok (b.ccr, u) ∧
        u.timer = { s.timer with blocks := s.timer.blocks.set x { b with unread := false } }

/-- A word write at TACCTLx's address succeeds for a block that exists; it then reads the word with bit 10 the SCCI
latch, bit 9 zero and bit 3 the selected input; in output mode 000 OUTx becomes bit 2 of the word, in another mode it
is unchanged; every other block, TACTL and TAR are unchanged. -/
def Obligations.TacctlWrite : Prop :=
  ∀ (s : State) (a v : Word) (x : Nat) (b : CcBlock), s.kindAt (evenWord a) = .timer (.tacctl x) → s.timer.blocks[x]? = some b →
    ∃ t c, s.writeWord a v = .ok t ∧ t.timer.blocks[x]? = some c ∧ t.readWord a = .ok c.readCtl ∧
      (∀ i < 16, i ≠ 10 → i ≠ 9 → i ≠ 3 → c.readCtl.getLsbD i = v.getLsbD i) ∧
      c.readCtl.getLsbD 10 = b.scci ∧ c.readCtl.getLsbD 9 = false ∧ c.readCtl.getLsbD 3 = c.cci ∧
      c.outx = (if v.extractLsb' 5 3 = 0 then v.getLsbD 2 else b.outx) ∧
      (∀ y, y ≠ x → t.timer.blocks[y]? = s.timer.blocks[y]?) ∧ t.timer.tactl = s.timer.tactl ∧ t.timer.tar = s.timer.tar

/-- After PinChange(x, k, new) the level of pin k is new; its flag is set if it was set or the pin is digital I/O
(PxSEL.k = PxSEL2.k = 0) and the change is the edge PxIES.k selects; every other level and flag of the port, the other
port and the CPU are unchanged. -/
def Obligations.PinChangeSetsFlagOnEdge : Prop :=
  ∀ (s : State) (x : PortId) (k : Fin 8) (new : Bool), ∃ t, envStep (.pinChange x k new) s = .ok t ∧ sameCpu s t ∧
    (t.port x).level.getLsbD k = new ∧
    (t.port x).ifg.getLsbD k = ((s.port x).ifg.getLsbD k ||
      (!(s.port x).sel.getLsbD k && !(s.port x).sel2.getLsbD k &&
        (if (s.port x).ies.getLsbD k then (s.port x).level.getLsbD k && !new else !(s.port x).level.getLsbD k && new))) ∧
    (∀ j : Fin 8, j ≠ k → (t.port x).level.getLsbD j = (s.port x).level.getLsbD j ∧
      (t.port x).ifg.getLsbD j = (s.port x).ifg.getLsbD j) ∧
    (∀ y, y ≠ x → t.port y = s.port y) ∧ t.timer = s.timer

/-- Every action of an agent other than a reset event or the withdrawal of a nonmaskable request leaves every
interrupt flag that was set, set. -/
def Obligations.AgentsNeverClearFlags : Prop :=
  ∀ (a : EnvAction) (s t : State) (i : IrqSource), a ≠ .reset → (∀ k, a ≠ .nmiWithdraw k) → envStep a s = .ok t →
    s.irqFlag i = true → t.irqFlag i = true

/-- Every action other than a reset event answers a state with PC, SP, SR, R4-R15, memory, the platform and the agenda
unchanged. -/
def Obligations.AgentsLeaveTheCpuAlone : Prop :=
  ∀ (a : EnvAction) (s : State), a ≠ .reset → ∃ t, envStep a s = .ok t ∧ sameCpu s t ∧ t.platform = s.platform ∧
    t.agenda = s.agenda

/-- While MCx is not 00 and the selected clock runs: up mode goes to 0 from TACCR0 and else one up; continuous mode
one up, from 0FFFFh to 0; up/down mode one down if counting down or at TACCR0, else one up, the direction becoming
down at TACCR0 and up when TAR becomes 0, also from TACCR0 = 1 where R377 read case by case goes on down (log 37).
TAIFG becomes set if TAR becomes 0 (logs 21, 37). A compare block's CCIFG becomes set if TAR becomes TACCRx, and its
OUTx follows the output mode table; SCCI latches the selected input when TAR becomes TACCRx. A capture block keeps
TACCRx, OUTx and its flags, unless a synchronised capture waits. While MCx is 00 nothing changes. When an input signal
changes: in capture mode, MCx not 00, on the selected edge of the selected input, with SCS = 0 TACCRx takes TAR, CCIFG
is set, and COV if the previous capture was unread; otherwise, but for the input, the block is unchanged. With SCS = 1
the capture waits for the next count, and takes TAR as before or after it; that is the model's reading of SCS (log
36). R377 marks the count-level details as general knowledge. -/
def Obligations.TimerCountEffect : Prop :=
  (∀ s : State, s.timerClockStopped = false → ∃ t, envStep .timerCount s = .ok t ∧
      (s.timer.mode = 0 → t.timer = s.timer) ∧
      (s.timer.mode = 1 → t.timer.tar = (if s.timer.tar = s.timer.ccr0 then 0 else s.timer.tar + 1) ∧
        t.timer.down = s.timer.down) ∧
      (s.timer.mode = 2 → t.timer.tar = s.timer.tar + 1 ∧ t.timer.down = s.timer.down) ∧
      (s.timer.mode = 3 → if s.timer.down = true ∨ s.timer.tar = s.timer.ccr0
        then t.timer.tar = s.timer.tar - 1 ∧ t.timer.down = decide (t.timer.tar ≠ 0)
        else t.timer.tar = s.timer.tar + 1 ∧ t.timer.down = false) ∧
      (s.timer.mode ≠ 0 → t.timer.taifg = (s.timer.taifg || t.timer.tar == 0) ∧
        ∀ (x : Nat) (b : CcBlock), s.timer.blocks[x]? = some b → ∃ c : CcBlock, t.timer.blocks[x]? = some c ∧
          c.scci = (if t.timer.tar = b.ccr then b.cci else b.scci) ∧
          (b.cap = false → c.ccr = b.ccr ∧ c.ccifg = (b.ccifg || t.timer.tar == b.ccr) ∧
            outputTable b.outMode (t.timer.tar == b.ccr) (t.timer.tar == s.timer.ccr0) b.outx c.outx) ∧
          (b.cap = true → c.outx = b.outx ∧
            (b.waiting = false → c.ccr = b.ccr ∧ c.ctl = b.ctl) ∧
            (b.waiting = true → (c.ccr = s.timer.tar ∨ c.ccr = t.timer.tar) ∧ c.ccifg = true ∧
              c.ctl.getLsbD 1 = (b.ctl.getLsbD 1 || b.unread) ∧ c.unread = true)))) ∧
    ∀ (s : State) (x : Nat) (second new : Bool) (b : CcBlock), s.timer.blocks[x]? = some b →
      ∃ t c, envStep (.captureInput x second new) s = .ok t ∧ t.timer.blocks[x]? = some c ∧
        (∀ y, y ≠ x → t.timer.blocks[y]? = s.timer.blocks[y]?) ∧ t.timer.tar = s.timer.tar ∧
        let b' := b.setInput second new
        (b'.inA = (if second = true then b.inA else new) ∧ b'.inB = (if second = true then new else b.inB)) ∧
        (s.timer.mode ≠ 0 ∧ b.cap = true ∧ selectedEdge b.captureMode b.cci b'.cci →
          (b.scs = false → c.ccr = s.timer.tar ∧ c.ccifg = true ∧
            c.ctl.getLsbD 1 = (b.ctl.getLsbD 1 || b.unread) ∧ c.unread = true) ∧
          (b.scs = true → c = { b' with waiting := true })) ∧
        (¬(s.timer.mode ≠ 0 ∧ b.cap = true ∧ selectedEdge b.captureMode b.cci b'.cci) → c = b')

/-- For a compare block, when the count reaches TACCRx alone: modes 1, 3 set OUTx, 2, 4, 6 toggle it, 5, 7 reset it.
When it reaches TACCR0 alone: 2, 3 reset it, 6, 7 set it. When it reaches neither, OUTx stays. When both coincide,
modes 1, 4, 5 act as on TACCRx; of modes 2, 3, 6, 7 nothing is claimed. In mode 000 counting leaves OUTx, and a write
of TACCTLx sets OUTx to its OUT bit at once. R376 marks the table read as a function of the two events as derived. -/
def Obligations.OutputModeTable : Prop :=
  (∀ (b : CcBlock) (old tar tar0 : Word) (d : Nat), b.cap = false →
      outputTable b.outMode (tar == b.ccr) (tar == tar0) b.outx (b.counted old tar tar0 d).1.outx) ∧
    ∀ (b : CcBlock) (v : Word), v.extractLsb' 5 3 = 0 → (b.writeCtl v).outx = v.getLsbD 2

/-- Indexed: register plus index; symbolic: the index word's own address plus index; absolute: the index; indirect:
the register's value; immediate and constants: the value. The first three and immediate move PC by 2, register,
indirect and constants leave the state alone. That the indirect mode takes PC like any register is the model's choice
among the two R120 admits (log 24). That a symbolic address counts from the index word itself, R135 marks as general
knowledge. -/
def Obligations.SourceAddressing : Prop :=
  ∀ (bw : Width) (r : Reg) (x : Word) (s : State),
    srcLoc bw (.reg r) s = (.reg r, s) ∧
    srcLoc bw (.indexed r x) s = (.mem (s.readReg r + x), s.setPc (s.pc + 2)) ∧
    srcLoc bw (.symbolic x) s = (.mem (s.pc + x), s.setPc (s.pc + 2)) ∧
    srcLoc bw (.absolute x) s = (.mem x, s.setPc (s.pc + 2)) ∧
    srcLoc bw (.indirect r) s = (.mem (s.readReg r), s) ∧
    srcLoc bw (.imm x) s = (.const x, s.setPc (s.pc + 2)) ∧
    [CgConst.zero, .one, .two, .four, .eight, .minusOne].map (fun c => srcLoc bw (.const c) s) =
      [0#16, 1#16, 2#16, 4#16, 8#16, 0xFFFF#16].map (fun v => (Loc.const v, s))

/-- @Rn+ locates the operand at the old register value and adds 2 in a word instruction, 2 for SP also in a byte
instruction, and 1 for R4 to R15 in a byte instruction; an immediate moves PC by 2 in both widths. That a byte
instruction adds 1 to R4-R15, R136 marks as general knowledge. -/
def Obligations.AutoIncrementAmount : Prop :=
  ∀ s : State,
    (∀ i, srcLoc .word (.autoinc (.gp i)) s = (.mem (s.readReg (.gp i)), s.writeReg (.gp i) (s.readReg (.gp i) + 2))) ∧
    (∀ i, srcLoc .byte (.autoinc (.gp i)) s = (.mem (s.readReg (.gp i)), s.writeReg (.gp i) (s.readReg (.gp i) + 1))) ∧
    (∀ bw, srcLoc bw (.autoinc .sp) s = (.mem s.sp, s.setSp (s.sp + 2))) ∧
    (∀ bw v, srcLoc bw (.imm v) s = (.const v, s.setPc (s.pc + 2)))

/-- With both operands readable and the destination writable, each completes. ADD: dst + src; ADDC: dst + src + C;
SUB: dst - src; SUBC: dst - src - 1 + C; in the instruction's width. C is the carry out of the sum; for a difference
it is 1 exactly when there is no borrow. N and Z are the result's, V is the two's-complement overflow; all other SR
bits stay. The rule for V (R141) and C as no borrow (R142) the spec marks as general knowledge. -/
def Obligations.AddSubResults : Prop :=
  ∀ (bw : Width) (src : Src) (dst : Dst) (s u : State) (sv dv : BitVec bw.bits),
    operandsReady bw src dst .readWrite true s sv dv u →
    let loc := dstAfterSrc bw src dst s
    let c := s.carry.toNat
    completesWith (.add bw src dst) s bw loc u (dv + sv)
      (some (sumFlags dv sv (dv + sv) (decide (2 ^ bw.bits ≤ dv.toNat + sv.toNat)))) ∧
    completesWith (.addc bw src dst) s bw loc u (dv + sv + BitVec.ofNat bw.bits c)
      (some (sumFlags dv sv (dv + sv + BitVec.ofNat bw.bits c) (decide (2 ^ bw.bits ≤ dv.toNat + sv.toNat + c)))) ∧
    completesWith (.sub bw src dst) s bw loc u (dv - sv)
      (some (differenceFlags dv sv (dv - sv) (decide (sv.toNat ≤ dv.toNat)))) ∧
    completesWith (.subc bw src dst) s bw loc u (dv - sv - BitVec.ofNat bw.bits (1 - c))
      (some (differenceFlags dv sv (dv - sv - BitVec.ofNat bw.bits (1 - c)) (decide (sv.toNat + (1 - c) ≤ dv.toNat))))

/-- With both operands readable and the destination writable: AND gives src and dst, V = 0; XOR gives src xor dst, V =
1 exactly when both operands are negative; both with N and Z of the result and C = not Z. BIC gives dst with the bits
of src cleared, BIS dst with them set; both leave SR alone, unless SR is the destination, which then takes the result.
C = not Z and XOR's V the spec marks as general knowledge (R143). -/
def Obligations.LogicResults : Prop :=
  (∀ (bw : Width) (src : Src) (dst : Dst) (s u : State) (sv dv : BitVec bw.bits),
      operandsReady bw src dst .readWrite true s sv dv u →
      let loc := dstAfterSrc bw src dst s
      completesWith (.and bw src dst) s bw loc u (sv &&& dv) (some (resultFlags (sv &&& dv) false)) ∧
      completesWith (.xor bw src dst) s bw loc u (sv ^^^ dv) (some (resultFlags (sv ^^^ dv) (sv.msb && dv.msb)))) ∧
    ∀ (bw : Width) (src : Src) (dst : Dst) (s u : State) (sv dv : BitVec bw.bits),
      operandsReady bw src dst .readWrite false s sv dv u →
      let loc := dstAfterSrc bw src dst s
      completesWith (.bic bw src dst) s bw loc u (dv &&& ~~~sv) none ∧
      completesWith (.bis bw src dst) s bw loc u (dv ||| sv) none

/-- With both operands readable, CMP completes in the state after operand evaluation with the flags of dst - src and
nothing stored, BIT with those of src and dst (V = 0, C = not Z). -/
def Obligations.CompareAndTestResults : Prop :=
  ∀ (bw : Width) (src : Src) (dst : Dst) (s u : State) (sv dv : BitVec bw.bits),
    operandsReady bw src dst .read true s sv dv u →
    exec (.cmp bw src dst) s =
      .next (u.setFlags (some (differenceFlags dv sv (dv - sv) (decide (sv.toNat ≤ dv.toNat))))) ∧
    exec (.bit bw src dst) s = .next (u.setFlags (some (resultFlags (sv &&& dv) false)))

/-- If CMP completes with operand values sv and dv, then in the state t it leaves, and for every offset: JEQ jumps
exactly when dv = sv and JNE otherwise, JC exactly when dv >= sv unsigned and JNC otherwise, JGE exactly when dv >= sv
signed and JL otherwise, JN exactly when the sign of dv - sv is 1. What JGE and JL test (R181) the spec marks as
general knowledge. -/
def Obligations.CompareThenJump : Prop :=
  ∀ (bw : Width) (src : Src) (dst : Dst) (s u : State) (sv dv : BitVec bw.bits) (off : BitVec 10),
    operandsReady bw src dst .read true s sv dv u →
    ∃ t, exec (.cmp bw src dst) s = .next t ∧
      let jump : State := t.setPc (t.pc + 2 * off.signExtend 16)
      exec (.jeq off) t = .next (if dv = sv then jump else t) ∧
      exec (.jne off) t = .next (if dv = sv then t else jump) ∧
      exec (.jc off) t = .next (if sv.toNat ≤ dv.toNat then jump else t) ∧
      exec (.jnc off) t = .next (if sv.toNat ≤ dv.toNat then t else jump) ∧
      exec (.jge off) t = .next (if sv.toInt ≤ dv.toInt then jump else t) ∧
      exec (.jl off) t = .next (if sv.toInt ≤ dv.toInt then t else jump) ∧
      exec (.jn off) t = .next (if (dv - sv).msb = true then jump else t)

/-- With a readable source and a writable destination of a form that has a meaning, MOV completes with the source
value written, the destination located after the source is evaluated. Where MOV_READS_DST is false (the default) the
destination need hold no readable value; where it is true, the destination must be readable. That MOV_READS_DST (R201,
D31) stands in the platform, and that a free bit says whether MOV to TACCRx counts as a read of it, is log 25. -/
def Obligations.MoveResult : Prop :=
  ∀ (bw : Width) (src : Src) (dst : Dst) (s u : State) (sv dv : BitVec bw.bits),
    operandsReady bw src dst (.write s.platform.movReadsDst) false s sv dv u →
    completesWith (.mov bw src dst) s bw (dstAfterSrc bw src dst s) u sv none

/-- With operands whose every digit is decimal, DADD completes with a result whose digits are decimal and whose
decimal value is (dst + src + C) modulo 10^4 (10^2 in byte form); C is 1 exactly when that sum reaches 10^4 (10^2); N
and Z are the result's. V has some value, of which nothing is claimed (log 10). DADC is the same with source 0. With a
digit above 9 in an operand both complete with some result and some flags, of which nothing is claimed. The algorithm,
C, N and Z the spec marks as general knowledge (R144). -/
def Obligations.DecimalAddResult : Prop :=
  (∀ (bw : Width) (src : Src) (dst : Dst) (s u : State) (sv dv : BitVec bw.bits),
      let k := bw.bits / 4
      let sum := decimalValue k dv.toNat + decimalValue k sv.toNat + s.carry.toNat
      operandsReady bw src dst .readWrite true s sv dv u →
      decimalDigits k sv.toNat = true → decimalDigits k dv.toNat = true →
      ∃ (res : BitVec bw.bits) (v : Bool), decimalDigits k res.toNat = true ∧
        decimalValue k res.toNat = sum % 10 ^ k ∧
        completesWith (.dadd bw src dst) s bw (dstAfterSrc bw src dst s) (u.setDraws (u.draws + 1)) res
          (some { v := v, n := res.msb, z := decide (res = 0), c := decide (10 ^ k ≤ sum) })) ∧
    (∀ (bw : Width) (dst : Dst) (s u : State) (dv : BitVec bw.bits),
      let k := bw.bits / 4
      let sum := decimalValue k dv.toNat + s.carry.toNat
      destinationReady bw dst s dv u → decimalDigits k dv.toNat = true →
      ∃ (res : BitVec bw.bits) (v : Bool), decimalDigits k res.toNat = true ∧
        decimalValue k res.toNat = sum % 10 ^ k ∧
        completesWith (.dadc bw dst) s bw (dstLoc dst s).1 (u.setDraws (u.draws + 1)) res
          (some { v := v, n := res.msb, z := decide (res = 0), c := decide (10 ^ k ≤ sum) })) ∧
    (∀ (bw : Width) (src : Src) (dst : Dst) (s u : State) (sv dv : BitVec bw.bits),
      operandsReady bw src dst .readWrite true s sv dv u →
      decimalDigits (bw.bits / 4) sv.toNat = false ∨ decimalDigits (bw.bits / 4) dv.toNat = false →
      ∃ (res : BitVec bw.bits) (f : Flags) (n : Nat),
        completesWith (.dadd bw src dst) s bw (dstAfterSrc bw src dst s) (u.setDraws n) res (some f)) ∧
    ∀ (bw : Width) (dst : Dst) (s u : State) (dv : BitVec bw.bits), destinationReady bw dst s dv u →
      decimalDigits (bw.bits / 4) dv.toNat = false →
      ∃ (res : BitVec bw.bits) (f : Flags) (n : Nat),
        completesWith (.dadc bw dst) s bw (dstLoc dst s).1 (u.setDraws n) res (some f)

/-- With the operand readable and writable, RRC completes with bit i of the result bit i + 1 of the operand and the
top bit the old C; RRA with the top bit kept. C is the old bit 0, N and Z are the result's. RRA writes V = 0; RRC
writes V = 0 where the old C is 0 or the operand is negative, and some V otherwise (log 9). -/
def Obligations.RotateRightResults : Prop :=
  ∀ (bw : Width) (src : Src) (s u : State) (v : BitVec bw.bits), modifyReady bw src true s v u →
    let loc := (srcLoc bw src s).1
    (∃ (res : BitVec bw.bits) (vbit : Bool) (n : Nat), (∀ i, i + 1 < bw.bits → res.getLsbD i = v.getLsbD (i + 1)) ∧
      res.msb = s.carry ∧ (s.carry = false ∨ v.msb = true → vbit = false) ∧
      completesWith (.rrc bw src) s bw loc (u.setDraws n) res
        (some { v := vbit, n := s.carry, z := decide (res = 0), c := v.getLsbD 0 })) ∧
    ∃ res : BitVec bw.bits, (∀ i, i + 1 < bw.bits → res.getLsbD i = v.getLsbD (i + 1)) ∧ res.msb = v.msb ∧
      completesWith (.rra bw src) s bw loc u res (some { v := false, n := v.msb, z := decide (res = 0), c := v.getLsbD 0 })

/-- With the operand readable and writable, SWPB completes with the low byte of the result the operand's high byte and
the other way round; SXT with bits 7:0 kept and bits 15:8 copies of bit 7, V = 0, N and Z of the result, C = not Z.
SXT's C the spec marks as general knowledge (R164). -/
def Obligations.SwapAndExtendResults : Prop :=
  (∀ (src : Src) (s u : State) (v : Word), modifyReady .word src false s v u →
      ∃ res : Word, res.extractLsb' 0 8 = v.extractLsb' 8 8 ∧ res.extractLsb' 8 8 = v.extractLsb' 0 8 ∧
        completesWith (.swpb src) s .word (srcLoc .word src s).1 u res none) ∧
    ∀ (src : Src) (s u : State) (v : Word), modifyReady .word src true s v u →
      ∃ res : Word, (∀ i < 8, res.getLsbD i = v.getLsbD i) ∧ (∀ i < 16, 8 ≤ i → res.getLsbD i = v.getLsbD 7) ∧
        completesWith (.sxt src) s .word (srcLoc .word src s).1 u res (some (resultFlags res false))

/-- With a readable operand v and RAM at the new top of the stack, PUSH completes: SP is 2 less than after the
operand's evaluation, the top of the stack reads v in the instruction's width, SR is unchanged. PUSH SP completes too,
storing one of the two values the spec admits; which is not claimed (log 11). That the operand is evaluated before SP
moves the spec marks as general knowledge (R165). -/
def Obligations.PushResult : Prop :=
  (∀ (bw : Width) (src : Src) (s u : State) (v : BitVec bw.bits), s.sp[0] = false → src ≠ .reg .sp →
      sourceReady bw src s v u → u.isRam (u.sp - 2) = true → u.isRam (u.sp - 1) = true →
      ∃ t, exec (.push bw src) s = .next t ∧ t.sp = u.sp - 2 ∧ t.load bw (u.sp - 2) = .ok v ∧ t.pc = u.pc ∧ t.sr = s.sr) ∧
    ∀ (bw : Width) (s : State), s.sp[0] = false → s.isRam (s.sp - 2) = true → s.isRam (s.sp - 1) = true →
      ∃ t v, (v = s.sp ∨ v = s.sp - 2) ∧ exec (.push bw (.reg .sp)) s = .next t ∧ t.sp = s.sp - 2 ∧
        t.load bw (s.sp - 2) = .ok (v.setWidth bw.bits)

/-- With a readable operand v and RAM at the new top of the stack, CALL completes: SP is 2 less than after the
operand's evaluation, the top of the stack reads the PC the evaluation left (the address after the CALL), PC is v with
bit 0 cleared, SR is unchanged. The order operand, push, load the spec marks as general knowledge (R166). -/
def Obligations.CallResult : Prop :=
  ∀ (src : Src) (s u : State) (v : Word), s.sp[0] = false → sourceReady .word src s v u →
    u.isRam (u.sp - 2) = true → u.isRam (u.sp - 1) = true →
    ∃ t, exec (.call src) s = .next t ∧ t.sp = u.sp - 2 ∧ t.readWord (u.sp - 2) = .ok u.pc ∧ t.pc = evenWord v ∧
      t.sr = s.sr

/-- If CALL completes with RAM at the new top of the stack, then in every state w on the same platform with SP where
the CALL left it and those two bytes unchanged, RET completes with PC the address after the CALL and SP as it was
before the push; SR and R4-R15 are w's. -/
def Obligations.RetUndoesCall : Prop :=
  ∀ (src : Src) (s u t w : State) (v : Word), s.sp[0] = false → s.pc[0] = false → sourceReady .word src s v u →
    u.isRam (u.sp - 2) = true → u.isRam (u.sp - 1) = true → exec (.call src) s = .next t →
    w.platform = s.platform → w.sp = t.sp → (∀ n ∈ cellsOf .word t.sp, Memory.read w.mem n = Memory.read t.mem n) →
    ∃ r, exec .ret w = .next r ∧ r.pc = u.pc ∧ r.sp = u.sp ∧ r.sr = w.sr ∧ r.gpr = w.gpr

/-- RETI is the word 1300h; 1301h-137Fh are illegal. With both words readable, RETI completes: SR takes the word at SP
with bits 15:9 cleared, PC the word at SP + 2 with bit 0 cleared, SP is 4 more, nothing else changes but that a TACCRx
among the two words then counts as read: that clause is the model's choice (log 36). R22 and R30 the spec marks as
general knowledge, R119 as its own decision. -/
def Obligations.RetiResult : Prop :=
  encode .reti = [0x1300] ∧
    (∀ iw : Word, 0x1301 ≤ iw.toNat → iw.toNat < 0x1380 → ∀ rest, decode (iw :: rest) = .error (.excludedVariant iw)) ∧
    ∀ (s : State) (a b : Word), s.sp[0] = false → s.readWord s.sp = .ok a → s.readWord (s.sp + 2) = .ok b →
    exec .reti s = .next (((((s.noteLoad .word s.sp).noteLoad .word (s.sp + 2)).setSr a).setSp (s.sp + 4)).setPc b)

/-- The words are 2000h, 2400h, 2800h, 2C00h, 3000h, 3400h, 3800h, 3C00h plus the offset for JNE, JEQ, JNC, JC, JN,
JGE, JL, JMP. On entry PC is the address after the jump; each adds 2 * offset to it if Z = 0, Z = 1, C = 0, C = 1, N =
1, N = V, N differs from V, always; otherwise, and apart from PC, the state is unchanged. That PC is the address of
the next instruction (R180) and what JGE and JL test (R181) the spec marks as general knowledge. -/
def Obligations.JumpResults : Prop :=
  ∀ (off : BitVec 10) (s : State),
    let jump : State := s.setPc (s.pc + 2 * off.signExtend 16)
    encode (.jne off) = [0x2000#16 + off.setWidth 16] ∧ exec (.jne off) s = .next (if s.zero = false then jump else s) ∧
    encode (.jeq off) = [0x2400#16 + off.setWidth 16] ∧ exec (.jeq off) s = .next (if s.zero = true then jump else s) ∧
    encode (.jnc off) = [0x2800#16 + off.setWidth 16] ∧ exec (.jnc off) s = .next (if s.carry = false then jump else s) ∧
    encode (.jc off) = [0x2C00#16 + off.setWidth 16] ∧ exec (.jc off) s = .next (if s.carry = true then jump else s) ∧
    encode (.jn off) = [0x3000#16 + off.setWidth 16] ∧ exec (.jn off) s = .next (if s.negative = true then jump else s) ∧
    encode (.jge off) = [0x3400#16 + off.setWidth 16] ∧
      exec (.jge off) s = .next (if s.negative = s.overflow then jump else s) ∧
    encode (.jl off) = [0x3800#16 + off.setWidth 16] ∧
      exec (.jl off) s = .next (if s.negative = s.overflow then s else jump) ∧
    encode (.jmp off) = [0x3C00#16 + off.setWidth 16] ∧ exec (.jmp off) s = .next jump

/-- For every instruction and every state, exec of it is exec of its expansion, and the expansion is a core
instruction. -/
def Obligations.EmulatedMeansExpansion : Prop := ∀ (i : Instr) (s : State), exec i s = exec i.expand s ∧ i.expand.expand = i.expand

/-- With the destination readable (and, but for TST, writable): ADC gives dst + C, SBC dst - 1 + C, INC dst + 1, INCD
dst + 2, DEC dst - 1, DECD dst - 2, INV the complement of dst. C is set by ADC, INC and INCD on a carry out, by SBC,
DEC and DECD when there is no borrow, by INV when the result is not 0; V is the signed overflow, for INV it is dst's
sign. TST stores nothing and writes V = 0, C = 1, N and Z of dst. -/
def Obligations.EmulatedArithmeticResults : Prop :=
  (∀ (bw : Width) (dst : Dst) (s u : State) (dv : BitVec bw.bits), destinationReady bw dst s dv u →
      let loc := (dstLoc dst s).1
      let w := bw.bits
      let c := s.carry.toNat
      completesWith (.adc bw dst) s bw loc u (dv + BitVec.ofNat w c)
        (some (sumFlags dv 0 (dv + BitVec.ofNat w c) (decide (2 ^ w ≤ dv.toNat + c)))) ∧
      completesWith (.inc bw dst) s bw loc u (dv + 1) (some (sumFlags dv 1 (dv + 1) (decide (dv.toNat + 1 = 2 ^ w)))) ∧
      completesWith (.incd bw dst) s bw loc u (dv + 2) (some (sumFlags dv 2 (dv + 2) (decide (2 ^ w ≤ dv.toNat + 2)))) ∧
      completesWith (.sbc bw dst) s bw loc u (dv - BitVec.ofNat w (1 - c))
        (some (differenceFlags dv 0 (dv - BitVec.ofNat w (1 - c)) (decide (1 - c ≤ dv.toNat)))) ∧
      completesWith (.dec bw dst) s bw loc u (dv - 1) (some (differenceFlags dv 1 (dv - 1) (decide (dv ≠ 0)))) ∧
      completesWith (.decd bw dst) s bw loc u (dv - 2) (some (differenceFlags dv 2 (dv - 2) (decide (2 ≤ dv.toNat)))) ∧
      completesWith (.inv bw dst) s bw loc u (~~~dv) (some (resultFlags (~~~dv) dv.msb))) ∧
    ∀ (bw : Width) (dst : Dst) (s u : State) (dv : BitVec bw.bits), operandsReady bw (.const .zero) dst .read true s 0 dv u →
      exec (.tst bw dst) s = .next (u.setFlags (some { v := false, n := dv.msb, z := decide (dv = 0), c := true }))

/-- With the operand readable and writable and PC even, RLA completes with 2 * dst, RLC with 2 * dst + C, at the place
the operand was read from; C is the old top bit, V is set when the sign changes, N and Z are the result's. The operand
is read twice, as source and as destination; both reads give the same value, as they do everywhere but at PxIN of a
pin that is no digital I/O pin. -/
def Obligations.RotateLeftResults : Prop :=
  ∀ (bw : Width) (dst : Dst) (s u : State) (v : BitVec bw.bits), s.pc[0] = false →
    (dst.asSrc.wellFormed && dst.wellFormed) = true → operandsReady bw dst.asSrc dst.again .readWrite true s v v u →
    let loc := (srcLoc bw dst.asSrc s).1
    let flags (res : BitVec bw.bits) : Flags := { v := res.msb != v.msb, n := res.msb, z := decide (res = 0), c := v.msb }
    completesWith (.rla bw dst) s bw loc u (v <<< 1) (some (flags (v <<< 1))) ∧
    completesWith (.rlc bw dst) s bw loc u (v <<< 1 ||| BitVec.ofNat bw.bits s.carry.toNat)
      (some (flags (v <<< 1 ||| BitVec.ofNat bw.bits s.carry.toNat)))

/-- Each has the word and the core form the spec gives (CLRC C312h = BIC #1,SR; SETC D312h = BIS #1,SR; SETN D222h =
BIS #4,SR; SETZ D322h = BIS #2,SR), completes in every state, and changes SR to SR with that bit cleared or set (bits
15:9 stay zero), and nothing else. Formalises R247, R251, R252, R253. -/
def Obligations.FlagBitInstructions : Prop :=
  (Instr.clrc.expand = .bic .word (.const .one) (.reg .sr) ∧ encode .clrc = [0xC312] ∧
      Instr.setc.expand = .bis .word (.const .one) (.reg .sr) ∧ encode .setc = [0xD312] ∧
      Instr.setn.expand = .bis .word (.const .four) (.reg .sr) ∧ encode .setn = [0xD222] ∧
      Instr.setz.expand = .bis .word (.const .two) (.reg .sr) ∧ encode .setz = [0xD322]) ∧
    ∀ s : State, exec .clrc s = .next (s.setSr (s.sr &&& ~~~1)) ∧ exec .setc s = .next (s.setSr (s.sr ||| 1)) ∧
      exec .setn s = .next (s.setSr (s.sr ||| 4)) ∧ exec .setz s = .next (s.setSr (s.sr ||| 2))

/-- CLRN (C222h = BIC #4,SR) completes in every state with SR's bit 2 cleared, CLRZ (C322h = BIC #2,SR) with bit 1
cleared, DINT (C232h) with bit 3 cleared, EINT (D232h) with it set, and nothing else changed; NOP (4303h) completes
with no change at all (PC is already past it). The core forms of CLRN and CLRZ the spec marks as derived from SETN and
SETZ (R248, R249). -/
def Obligations.ClrnClrzDintEintNop : Prop :=
  (Instr.clrn.expand = .bic .word (.const .four) (.reg .sr) ∧ encode .clrn = [0xC222] ∧
      Instr.clrz.expand = .bic .word (.const .two) (.reg .sr) ∧ encode .clrz = [0xC322] ∧
      encode .dint = [0xC232] ∧ encode .eint = [0xD232] ∧ encode .nop = [0x4303]) ∧
    ∀ s : State, exec .clrn s = .next (s.setSr (s.sr &&& ~~~4)) ∧ exec .clrz s = .next (s.setSr (s.sr &&& ~~~2)) ∧
      exec .dint s = .next (s.setSr (s.sr &&& ~~~8)) ∧ exec .eint s = .next (s.setSr (s.sr ||| 8)) ∧
      exec .nop s = .next s

/-- BR completes with PC the operand's value, bit 0 cleared; RET with PC the word at SP and SP 2 more; POP with the
value at the old SP, in its width, written to the destination as located after SP moved by 2; CLR with 0 written.
Forms: those with a meaning whose operand can be read and whose destination can be written and, if MOV_READS_DST is
true (log 25), read. Whether POP or CLR to TACCRx also counts as a read of it is a free bit (R201; logs 25, 36). -/
def Obligations.BranchReturnPopClear : Prop :=
  (∀ (src : Src) (s u : State) (v : Word), sourceReady .word src s v u → exec (.br src) s = .next (u.setPc v)) ∧
    (∀ (s : State) (v : Word), s.readWord s.sp = .ok v →
      exec .ret s = .next (((s.setSp (s.sp + 2)).noteLoad .word s.sp).setPc v)) ∧
    (∀ (bw : Width) (dst : Dst) (s : State) (v dv : BitVec bw.bits),
      let use : DstUse := .write s.platform.movReadsDst
      let p := (s.setSp (s.sp + 2)).noteLoad bw s.sp
      let loc := (dstLoc dst p).1
      let q := (dstLoc dst p).2
      s.load bw s.sp = .ok v → twoOperandRefusal bw (.autoinc .sp) dst use false = none → readDst bw use loc q = .ok dv →
      writableLoc bw loc q = true → completesWith (.pop bw dst) s bw loc (q.noteDst bw use loc) v none) ∧
    ∀ (bw : Width) (dst : Dst) (s : State) (dv : BitVec bw.bits),
      let use : DstUse := .write s.platform.movReadsDst
      let loc := (dstLoc dst s).1
      let q := (dstLoc dst s).2
      twoOperandRefusal bw (.const .zero) dst use false = none → readDst bw use loc q = .ok dv →
      writableLoc bw loc q = true → completesWith (.clr bw dst) s bw loc (q.noteDst bw use loc) 0 none

/-- Flag-writing instructions that store into SR, byte instructions that store into PC, SP or SR, source PC register
direct with a destination index word, Ad = 1 with R3, and RRC, RRA, SWPB, SXT of a constant or an immediate are
UnspecifiedOperand with the reason; CMP and BIT may name PC, SP and SR. That a form is refused in every state, before
an operand is read, and the order of the reasons where two apply, are the model's choice (log 18). -/
def Obligations.RefusedForms : Prop :=
  ∀ (bw : Width) (src : Src) (x : Word) (s : State),
    (∀ i ∈ [Instr.add bw src (.reg .sr), .addc bw src (.reg .sr), .sub bw src (.reg .sr), .subc bw src (.reg .sr),
        .dadd bw src (.reg .sr), .xor bw src (.reg .sr), .and bw src (.reg .sr), .rrc bw (.reg .sr), .rra bw (.reg .sr),
        .sxt (.reg .sr)],
      exec i s = .refused (.unspecifiedOperand .flagsIntoSr)) ∧
    (∀ r ∈ [Reg.pc, .sp], ∀ i ∈ [Instr.add .byte src (.reg r), .addc .byte src (.reg r), .sub .byte src (.reg r),
        .subc .byte src (.reg r), .dadd .byte src (.reg r), .xor .byte src (.reg r), .and .byte src (.reg r),
        .rrc .byte (.reg r), .rra .byte (.reg r)],
      exec i s = .refused (.unspecifiedOperand .byteStoreToSpecial)) ∧
    (∀ r ∈ [Reg.pc, .sp, .sr], ∀ i ∈ [Instr.mov .byte src (.reg r), .bic .byte src (.reg r), .bis .byte src (.reg r)],
      exec i s = .refused (.unspecifiedOperand .byteStoreToSpecial)) ∧
    (∀ d : Dst, (∀ r, d ≠ .reg r) → (∀ y, d ≠ .indexed .cg y) → ∀ i ∈ [Instr.mov bw (.reg .pc) d, .add bw (.reg .pc) d, .addc bw (.reg .pc) d,
        .sub bw (.reg .pc) d, .subc bw (.reg .pc) d, .cmp bw (.reg .pc) d, .dadd bw (.reg .pc) d, .bit bw (.reg .pc) d,
        .bic bw (.reg .pc) d, .bis bw (.reg .pc) d, .xor bw (.reg .pc) d, .and bw (.reg .pc) d],
      exec i s = .refused (.unspecifiedOperand .pcSourceWithIndexWord)) ∧
    (∀ i ∈ [Instr.mov bw src (.indexed .cg x), .add bw src (.indexed .cg x), .addc bw src (.indexed .cg x),
        .sub bw src (.indexed .cg x), .subc bw src (.indexed .cg x), .cmp bw src (.indexed .cg x),
        .dadd bw src (.indexed .cg x), .bit bw src (.indexed .cg x), .bic bw src (.indexed .cg x),
        .bis bw src (.indexed .cg x), .xor bw src (.indexed .cg x), .and bw src (.indexed .cg x)],
      exec i s = .refused (.unspecifiedOperand .indexedR3)) ∧
    (∀ c : Src, (c = .imm x ∨ ∃ k, c = .const k) → ∀ i ∈ [Instr.rrc bw c, .rra bw c, .swpb c, .sxt c],
      exec i s = .refused (.unspecifiedOperand .constantNotWritable)) ∧
    ∀ r, twoOperandRefusal bw src (.reg r) .read true = none

/-- When ADD, ADDC, SUB, SUBC, DADD, XOR or AND, well-formed, gives a next state: every register but PC, SR, the
register destination and an autoincremented source register is unchanged; so is every bit of SR but V, N, Z, C; every
byte of memory outside the bytes of the destination's address, as located after the source is evaluated; the ports and
the timer unless the store is to one of their registers (but that a TACCRx read as an operand counts as read, log 36);
the rest of State but the draw count. The same for ADC, DADC, SBC, INC, INCD, DEC, DECD, INV with their one operand,
and for RLA and RLC. -/
def Obligations.FlagWritingFrame : Prop :=
  (∀ (bw : Width) (src : Src) (dst : Dst) (s t : State), src.wellFormed = true →
      ∀ i ∈ [Instr.add bw src dst, .addc bw src dst, .sub bw src dst, .subc bw src dst, .dadd bw src dst, .xor bw src dst,
        .and bw src dst],
      exec i s = .next t → Framed s t (changedBy src dst) notFlags (storedAt bw (dstAfterSrc bw src dst s))) ∧
    (∀ (bw : Width) (dst : Dst) (s t : State),
      ∀ i ∈ [Instr.adc bw dst, .dadc bw dst, .sbc bw dst, .inc bw dst, .incd bw dst, .dec bw dst, .decd bw dst, .inv bw dst],
      exec i s = .next t → Framed s t (fun r => dst = .reg r) notFlags (storedAt bw (dstLoc dst s).1)) ∧
    ∀ (bw : Width) (dst : Dst) (s t : State), dst.asSrc.wellFormed = true → ∀ i ∈ [Instr.rla bw dst, .rlc bw dst],
      exec i s = .next t →
      Framed s t (fun r => dst = .reg r) notFlags (storedAt bw (dstAfterSrc bw dst.asSrc dst.again s))

/-- When CMP or BIT, well-formed, gives a next state, every register but PC, SR and an autoincremented source
register, every SR bit but the four flags, every byte of memory, the ports, the timer (but that a TACCRx read as an
operand counts as read, log 36) and the rest of State but the draw count are unchanged; the same for TST. -/
def Obligations.CompareFrame : Prop :=
  (∀ (bw : Width) (src : Src) (dst : Dst) (s t : State), src.wellFormed = true →
      ∀ i ∈ [Instr.cmp bw src dst, .bit bw src dst],
      exec i s = .next t → Framed s t (fun r => src = .autoinc r) notFlags none) ∧
    ∀ (bw : Width) (dst : Dst) (s t : State), exec (.tst bw dst) s = .next t → Framed s t (fun _ => False) notFlags none

/-- When MOV, BIC or BIS, well-formed, gives a next state: every register but PC, SR, the register destination and an
autoincremented source register, all of SR unless SR is the destination, every byte of memory outside those of the
destination's address as located after the source, the ports and the timer unless the store is to one of their
registers (but that a TACCRx read as an operand counts as read, log 36), and the rest of State but the draw count are
unchanged. The same for BR, CLR, and for POP and RET, which also change SP. -/
def Obligations.MoveFrame : Prop :=
  (∀ (bw : Width) (src : Src) (dst : Dst) (s t : State), src.wellFormed = true →
      ∀ i ∈ [Instr.mov bw src dst, .bic bw src dst, .bis bw src dst],
      exec i s = .next t → Framed s t (changedBy src dst) (if dst = .reg .sr then 0 else 0xFFFF)
        (storedAt bw (dstAfterSrc bw src dst s))) ∧
    (∀ (src : Src) (s t : State), src.wellFormed = true → exec (.br src) s = .next t →
      Framed s t (fun r => src = .autoinc r) 0xFFFF none) ∧
    (∀ s t : State, exec .ret s = .next t → Framed s t (· = .sp) 0xFFFF none) ∧
    (∀ (bw : Width) (dst : Dst) (s t : State), exec (.pop bw dst) s = .next t →
      Framed s t (fun r => r = .sp ∨ dst = .reg r) (if dst = .reg .sr then 0 else 0xFFFF)
        (storedAt bw (dstLoc dst (s.setSp (s.sp + 2))).1)) ∧
    ∀ (bw : Width) (dst : Dst) (s t : State), exec (.clr bw dst) s = .next t →
      Framed s t (fun r => dst = .reg r) (if dst = .reg .sr then 0 else 0xFFFF) (storedAt bw (dstLoc dst s).1)

/-- When RRC, RRA or SXT, well-formed, gives a next state: every register but PC, SR, the operand's register and an
autoincremented one, every SR bit but the four flags, every byte of memory outside those of the operand's address are
unchanged, with the ports, the timer and the rest of State as in the other frames; SWPB the same, with all of SR kept
unless SR is the operand. PUSH and CALL change SP, an autoincremented register, and the bytes at the new top of the
stack; RETI changes SP and SR and stores nothing. -/
def Obligations.SingleOperandFrame : Prop :=
  (∀ (bw : Width) (src : Src) (s t : State), src.wellFormed = true → ∀ i ∈ [Instr.rrc bw src, .rra bw src],
      exec i s = .next t →
      Framed s t (fun r => src = .reg r ∨ src = .autoinc r) notFlags (storedAt bw (srcLoc bw src s).1)) ∧
    (∀ (src : Src) (s t : State), src.wellFormed = true → exec (.sxt src) s = .next t →
      Framed s t (fun r => src = .reg r ∨ src = .autoinc r) notFlags (storedAt .word (srcLoc .word src s).1)) ∧
    (∀ (src : Src) (s t : State), src.wellFormed = true → exec (.swpb src) s = .next t →
      Framed s t (fun r => src = .reg r ∨ src = .autoinc r) (if src = .reg .sr then 0 else 0xFFFF)
        (storedAt .word (srcLoc .word src s).1)) ∧
    (∀ (bw : Width) (src : Src) (s t : State), src.wellFormed = true → exec (.push bw src) s = .next t →
      Framed s t (fun r => r = .sp ∨ src = .autoinc r) 0xFFFF
        (some (bw, evenWord ((srcLoc bw src s).2.sp - 2)))) ∧
    (∀ (src : Src) (s t : State), src.wellFormed = true → exec (.call src) s = .next t →
      Framed s t (fun r => r = .sp ∨ src = .autoinc r) 0xFFFF
        (some (.word, evenWord ((srcLoc .word src s).2.sp - 2)))) ∧
    ∀ s t : State, exec .reti s = .next t → Framed s t (· = .sp) 0 none
end

