-- ==== Sys2Proof/Laws/State.lean ====
section
/-! SUPPORT. What each update of the state does to each field, so that no later proof unfolds a record update. -/

namespace Sys2Proof.Machine

/-! `setPc` -/

@[simp] theorem State.setPc_pc (s : State) (v : Word) : (s.setPc v).pc = evenWord v := rfl
@[simp] theorem State.setPc_sp (s : State) (v : Word) : (s.setPc v).sp = s.sp := rfl
@[simp] theorem State.setPc_sr (s : State) (v : Word) : (s.setPc v).sr = s.sr := rfl
@[simp] theorem State.setPc_gpr (s : State) (v : Word) : (s.setPc v).gpr = s.gpr := rfl
@[simp] theorem State.setPc_mem (s : State) (v : Word) : (s.setPc v).mem = s.mem := rfl
@[simp] theorem State.setPc_p1 (s : State) (v : Word) : (s.setPc v).p1 = s.p1 := rfl
@[simp] theorem State.setPc_p2 (s : State) (v : Word) : (s.setPc v).p2 = s.p2 := rfl
@[simp] theorem State.setPc_timer (s : State) (v : Word) : (s.setPc v).timer = s.timer := rfl
@[simp] theorem State.setPc_nmi (s : State) (v : Word) : (s.setPc v).nmi = s.nmi := rfl
@[simp] theorem State.setPc_gieRose (s : State) (v : Word) : (s.setPc v).gieRose = s.gieRose := rfl
@[simp] theorem State.setPc_draws (s : State) (v : Word) : (s.setPc v).draws = s.draws := rfl
@[simp] theorem State.setPc_agenda (s : State) (v : Word) : (s.setPc v).agenda = s.agenda := rfl
@[simp] theorem State.setPc_platform (s : State) (v : Word) : (s.setPc v).platform = s.platform := rfl
@[simp] theorem State.setPc_port (s : State) (v : Word) (x : PortId) : (s.setPc v).port x = s.port x := by cases x <;> rfl

/-! `setSp` -/

@[simp] theorem State.setSp_pc (s : State) (v : Word) : (s.setSp v).pc = s.pc := rfl
@[simp] theorem State.setSp_sp (s : State) (v : Word) : (s.setSp v).sp = evenWord v := rfl
@[simp] theorem State.setSp_sr (s : State) (v : Word) : (s.setSp v).sr = s.sr := rfl
@[simp] theorem State.setSp_gpr (s : State) (v : Word) : (s.setSp v).gpr = s.gpr := rfl
@[simp] theorem State.setSp_mem (s : State) (v : Word) : (s.setSp v).mem = s.mem := rfl
@[simp] theorem State.setSp_p1 (s : State) (v : Word) : (s.setSp v).p1 = s.p1 := rfl
@[simp] theorem State.setSp_p2 (s : State) (v : Word) : (s.setSp v).p2 = s.p2 := rfl
@[simp] theorem State.setSp_timer (s : State) (v : Word) : (s.setSp v).timer = s.timer := rfl
@[simp] theorem State.setSp_nmi (s : State) (v : Word) : (s.setSp v).nmi = s.nmi := rfl
@[simp] theorem State.setSp_gieRose (s : State) (v : Word) : (s.setSp v).gieRose = s.gieRose := rfl
@[simp] theorem State.setSp_draws (s : State) (v : Word) : (s.setSp v).draws = s.draws := rfl
@[simp] theorem State.setSp_agenda (s : State) (v : Word) : (s.setSp v).agenda = s.agenda := rfl
@[simp] theorem State.setSp_platform (s : State) (v : Word) : (s.setSp v).platform = s.platform := rfl
@[simp] theorem State.setSp_port (s : State) (v : Word) (x : PortId) : (s.setSp v).port x = s.port x := by cases x <;> rfl

/-! `setSr` -/

@[simp] theorem State.setSr_pc (s : State) (v : Word) : (s.setSr v).pc = s.pc := rfl
@[simp] theorem State.setSr_sp (s : State) (v : Word) : (s.setSr v).sp = s.sp := rfl
@[simp] theorem State.setSr_sr (s : State) (v : Word) : (s.setSr v).sr = srWord v := rfl
@[simp] theorem State.setSr_gpr (s : State) (v : Word) : (s.setSr v).gpr = s.gpr := rfl
@[simp] theorem State.setSr_mem (s : State) (v : Word) : (s.setSr v).mem = s.mem := rfl
@[simp] theorem State.setSr_p1 (s : State) (v : Word) : (s.setSr v).p1 = s.p1 := rfl
@[simp] theorem State.setSr_p2 (s : State) (v : Word) : (s.setSr v).p2 = s.p2 := rfl
@[simp] theorem State.setSr_timer (s : State) (v : Word) : (s.setSr v).timer = s.timer := rfl
@[simp] theorem State.setSr_nmi (s : State) (v : Word) : (s.setSr v).nmi = s.nmi := rfl
@[simp] theorem State.setSr_gieRose (s : State) (v : Word) : (s.setSr v).gieRose = s.gieRose := rfl
@[simp] theorem State.setSr_draws (s : State) (v : Word) : (s.setSr v).draws = s.draws := rfl
@[simp] theorem State.setSr_agenda (s : State) (v : Word) : (s.setSr v).agenda = s.agenda := rfl
@[simp] theorem State.setSr_platform (s : State) (v : Word) : (s.setSr v).platform = s.platform := rfl
@[simp] theorem State.setSr_port (s : State) (v : Word) (x : PortId) : (s.setSr v).port x = s.port x := by cases x <;> rfl

/-! `setGpr` -/

@[simp] theorem State.setGpr_pc (s : State) (i : Fin 12) (v : Word) : (s.setGpr i v).pc = s.pc := rfl
@[simp] theorem State.setGpr_sp (s : State) (i : Fin 12) (v : Word) : (s.setGpr i v).sp = s.sp := rfl
@[simp] theorem State.setGpr_sr (s : State) (i : Fin 12) (v : Word) : (s.setGpr i v).sr = s.sr := rfl
@[simp] theorem State.setGpr_gpr (s : State) (i : Fin 12) (v : Word) : (s.setGpr i v).gpr = s.gpr.set i v := rfl
@[simp] theorem State.setGpr_mem (s : State) (i : Fin 12) (v : Word) : (s.setGpr i v).mem = s.mem := rfl
@[simp] theorem State.setGpr_p1 (s : State) (i : Fin 12) (v : Word) : (s.setGpr i v).p1 = s.p1 := rfl
@[simp] theorem State.setGpr_p2 (s : State) (i : Fin 12) (v : Word) : (s.setGpr i v).p2 = s.p2 := rfl
@[simp] theorem State.setGpr_timer (s : State) (i : Fin 12) (v : Word) : (s.setGpr i v).timer = s.timer := rfl
@[simp] theorem State.setGpr_nmi (s : State) (i : Fin 12) (v : Word) : (s.setGpr i v).nmi = s.nmi := rfl
@[simp] theorem State.setGpr_gieRose (s : State) (i : Fin 12) (v : Word) : (s.setGpr i v).gieRose = s.gieRose := rfl
@[simp] theorem State.setGpr_draws (s : State) (i : Fin 12) (v : Word) : (s.setGpr i v).draws = s.draws := rfl
@[simp] theorem State.setGpr_agenda (s : State) (i : Fin 12) (v : Word) : (s.setGpr i v).agenda = s.agenda := rfl
@[simp] theorem State.setGpr_platform (s : State) (i : Fin 12) (v : Word) : (s.setGpr i v).platform = s.platform := rfl
@[simp] theorem State.setGpr_port (s : State) (i : Fin 12) (v : Word) (x : PortId) : (s.setGpr i v).port x = s.port x := by cases x <;> rfl

/-! `setMem` -/

@[simp] theorem State.setMem_pc (s : State) (m : List Host.Cell) : (s.setMem m).pc = s.pc := rfl
@[simp] theorem State.setMem_sp (s : State) (m : List Host.Cell) : (s.setMem m).sp = s.sp := rfl
@[simp] theorem State.setMem_sr (s : State) (m : List Host.Cell) : (s.setMem m).sr = s.sr := rfl
@[simp] theorem State.setMem_gpr (s : State) (m : List Host.Cell) : (s.setMem m).gpr = s.gpr := rfl
@[simp] theorem State.setMem_mem (s : State) (m : List Host.Cell) : (s.setMem m).mem = m := rfl
@[simp] theorem State.setMem_p1 (s : State) (m : List Host.Cell) : (s.setMem m).p1 = s.p1 := rfl
@[simp] theorem State.setMem_p2 (s : State) (m : List Host.Cell) : (s.setMem m).p2 = s.p2 := rfl
@[simp] theorem State.setMem_timer (s : State) (m : List Host.Cell) : (s.setMem m).timer = s.timer := rfl
@[simp] theorem State.setMem_nmi (s : State) (m : List Host.Cell) : (s.setMem m).nmi = s.nmi := rfl
@[simp] theorem State.setMem_gieRose (s : State) (m : List Host.Cell) : (s.setMem m).gieRose = s.gieRose := rfl
@[simp] theorem State.setMem_draws (s : State) (m : List Host.Cell) : (s.setMem m).draws = s.draws := rfl
@[simp] theorem State.setMem_agenda (s : State) (m : List Host.Cell) : (s.setMem m).agenda = s.agenda := rfl
@[simp] theorem State.setMem_platform (s : State) (m : List Host.Cell) : (s.setMem m).platform = s.platform := rfl
@[simp] theorem State.setMem_port (s : State) (m : List Host.Cell) (x : PortId) : (s.setMem m).port x = s.port x := by cases x <;> rfl

/-! `setTimer` -/

@[simp] theorem State.setTimer_pc (s : State) (t : TimerState) : (s.setTimer t).pc = s.pc := rfl
@[simp] theorem State.setTimer_sp (s : State) (t : TimerState) : (s.setTimer t).sp = s.sp := rfl
@[simp] theorem State.setTimer_sr (s : State) (t : TimerState) : (s.setTimer t).sr = s.sr := rfl
@[simp] theorem State.setTimer_gpr (s : State) (t : TimerState) : (s.setTimer t).gpr = s.gpr := rfl
@[simp] theorem State.setTimer_mem (s : State) (t : TimerState) : (s.setTimer t).mem = s.mem := rfl
@[simp] theorem State.setTimer_p1 (s : State) (t : TimerState) : (s.setTimer t).p1 = s.p1 := rfl
@[simp] theorem State.setTimer_p2 (s : State) (t : TimerState) : (s.setTimer t).p2 = s.p2 := rfl
@[simp] theorem State.setTimer_timer (s : State) (t : TimerState) : (s.setTimer t).timer = t := rfl
@[simp] theorem State.setTimer_nmi (s : State) (t : TimerState) : (s.setTimer t).nmi = s.nmi := rfl
@[simp] theorem State.setTimer_gieRose (s : State) (t : TimerState) : (s.setTimer t).gieRose = s.gieRose := rfl
@[simp] theorem State.setTimer_draws (s : State) (t : TimerState) : (s.setTimer t).draws = s.draws := rfl
@[simp] theorem State.setTimer_agenda (s : State) (t : TimerState) : (s.setTimer t).agenda = s.agenda := rfl
@[simp] theorem State.setTimer_platform (s : State) (t : TimerState) : (s.setTimer t).platform = s.platform := rfl
@[simp] theorem State.setTimer_port (s : State) (t : TimerState) (x : PortId) : (s.setTimer t).port x = s.port x := by cases x <;> rfl

/-! `setNmi` -/

@[simp] theorem State.setNmi_pc (s : State) (l : List Nat) : (s.setNmi l).pc = s.pc := rfl
@[simp] theorem State.setNmi_sp (s : State) (l : List Nat) : (s.setNmi l).sp = s.sp := rfl
@[simp] theorem State.setNmi_sr (s : State) (l : List Nat) : (s.setNmi l).sr = s.sr := rfl
@[simp] theorem State.setNmi_gpr (s : State) (l : List Nat) : (s.setNmi l).gpr = s.gpr := rfl
@[simp] theorem State.setNmi_mem (s : State) (l : List Nat) : (s.setNmi l).mem = s.mem := rfl
@[simp] theorem State.setNmi_p1 (s : State) (l : List Nat) : (s.setNmi l).p1 = s.p1 := rfl
@[simp] theorem State.setNmi_p2 (s : State) (l : List Nat) : (s.setNmi l).p2 = s.p2 := rfl
@[simp] theorem State.setNmi_timer (s : State) (l : List Nat) : (s.setNmi l).timer = s.timer := rfl
@[simp] theorem State.setNmi_nmi (s : State) (l : List Nat) : (s.setNmi l).nmi = l := rfl
@[simp] theorem State.setNmi_gieRose (s : State) (l : List Nat) : (s.setNmi l).gieRose = s.gieRose := rfl
@[simp] theorem State.setNmi_draws (s : State) (l : List Nat) : (s.setNmi l).draws = s.draws := rfl
@[simp] theorem State.setNmi_agenda (s : State) (l : List Nat) : (s.setNmi l).agenda = s.agenda := rfl
@[simp] theorem State.setNmi_platform (s : State) (l : List Nat) : (s.setNmi l).platform = s.platform := rfl
@[simp] theorem State.setNmi_port (s : State) (l : List Nat) (x : PortId) : (s.setNmi l).port x = s.port x := by cases x <;> rfl

/-! `setDraws` -/

@[simp] theorem State.setDraws_pc (s : State) (n : Nat) : (s.setDraws n).pc = s.pc := rfl
@[simp] theorem State.setDraws_sp (s : State) (n : Nat) : (s.setDraws n).sp = s.sp := rfl
@[simp] theorem State.setDraws_sr (s : State) (n : Nat) : (s.setDraws n).sr = s.sr := rfl
@[simp] theorem State.setDraws_gpr (s : State) (n : Nat) : (s.setDraws n).gpr = s.gpr := rfl
@[simp] theorem State.setDraws_mem (s : State) (n : Nat) : (s.setDraws n).mem = s.mem := rfl
@[simp] theorem State.setDraws_p1 (s : State) (n : Nat) : (s.setDraws n).p1 = s.p1 := rfl
@[simp] theorem State.setDraws_p2 (s : State) (n : Nat) : (s.setDraws n).p2 = s.p2 := rfl
@[simp] theorem State.setDraws_timer (s : State) (n : Nat) : (s.setDraws n).timer = s.timer := rfl
@[simp] theorem State.setDraws_nmi (s : State) (n : Nat) : (s.setDraws n).nmi = s.nmi := rfl
@[simp] theorem State.setDraws_gieRose (s : State) (n : Nat) : (s.setDraws n).gieRose = s.gieRose := rfl
@[simp] theorem State.setDraws_draws (s : State) (n : Nat) : (s.setDraws n).draws = n := rfl
@[simp] theorem State.setDraws_agenda (s : State) (n : Nat) : (s.setDraws n).agenda = s.agenda := rfl
@[simp] theorem State.setDraws_platform (s : State) (n : Nat) : (s.setDraws n).platform = s.platform := rfl
@[simp] theorem State.setDraws_port (s : State) (n : Nat) (x : PortId) : (s.setDraws n).port x = s.port x := by cases x <;> rfl

/-! `setGieRose` -/

@[simp] theorem State.setGieRose_pc (s : State) (b : Bool) : (s.setGieRose b).pc = s.pc := rfl
@[simp] theorem State.setGieRose_sp (s : State) (b : Bool) : (s.setGieRose b).sp = s.sp := rfl
@[simp] theorem State.setGieRose_sr (s : State) (b : Bool) : (s.setGieRose b).sr = s.sr := rfl
@[simp] theorem State.setGieRose_gpr (s : State) (b : Bool) : (s.setGieRose b).gpr = s.gpr := rfl
@[simp] theorem State.setGieRose_mem (s : State) (b : Bool) : (s.setGieRose b).mem = s.mem := rfl
@[simp] theorem State.setGieRose_p1 (s : State) (b : Bool) : (s.setGieRose b).p1 = s.p1 := rfl
@[simp] theorem State.setGieRose_p2 (s : State) (b : Bool) : (s.setGieRose b).p2 = s.p2 := rfl
@[simp] theorem State.setGieRose_timer (s : State) (b : Bool) : (s.setGieRose b).timer = s.timer := rfl
@[simp] theorem State.setGieRose_nmi (s : State) (b : Bool) : (s.setGieRose b).nmi = s.nmi := rfl
@[simp] theorem State.setGieRose_gieRose (s : State) (b : Bool) : (s.setGieRose b).gieRose = b := rfl
@[simp] theorem State.setGieRose_draws (s : State) (b : Bool) : (s.setGieRose b).draws = s.draws := rfl
@[simp] theorem State.setGieRose_agenda (s : State) (b : Bool) : (s.setGieRose b).agenda = s.agenda := rfl
@[simp] theorem State.setGieRose_platform (s : State) (b : Bool) : (s.setGieRose b).platform = s.platform := rfl
@[simp] theorem State.setGieRose_port (s : State) (b : Bool) (x : PortId) : (s.setGieRose b).port x = s.port x := by cases x <;> rfl

/-! `setAgenda` -/

@[simp] theorem State.setAgenda_pc (s : State) (l : List Turn) : (s.setAgenda l).pc = s.pc := rfl
@[simp] theorem State.setAgenda_sp (s : State) (l : List Turn) : (s.setAgenda l).sp = s.sp := rfl
@[simp] theorem State.setAgenda_sr (s : State) (l : List Turn) : (s.setAgenda l).sr = s.sr := rfl
@[simp] theorem State.setAgenda_gpr (s : State) (l : List Turn) : (s.setAgenda l).gpr = s.gpr := rfl
@[simp] theorem State.setAgenda_mem (s : State) (l : List Turn) : (s.setAgenda l).mem = s.mem := rfl
@[simp] theorem State.setAgenda_p1 (s : State) (l : List Turn) : (s.setAgenda l).p1 = s.p1 := rfl
@[simp] theorem State.setAgenda_p2 (s : State) (l : List Turn) : (s.setAgenda l).p2 = s.p2 := rfl
@[simp] theorem State.setAgenda_timer (s : State) (l : List Turn) : (s.setAgenda l).timer = s.timer := rfl
@[simp] theorem State.setAgenda_nmi (s : State) (l : List Turn) : (s.setAgenda l).nmi = s.nmi := rfl
@[simp] theorem State.setAgenda_gieRose (s : State) (l : List Turn) : (s.setAgenda l).gieRose = s.gieRose := rfl
@[simp] theorem State.setAgenda_draws (s : State) (l : List Turn) : (s.setAgenda l).draws = s.draws := rfl
@[simp] theorem State.setAgenda_agenda (s : State) (l : List Turn) : (s.setAgenda l).agenda = l := rfl
@[simp] theorem State.setAgenda_platform (s : State) (l : List Turn) : (s.setAgenda l).platform = s.platform := rfl
@[simp] theorem State.setAgenda_port (s : State) (l : List Turn) (x : PortId) : (s.setAgenda l).port x = s.port x := by cases x <;> rfl

/-! `setPort` -/

@[simp] theorem State.setPort_pc (s : State) (x : PortId) (p : PortState) : (s.setPort x p).pc = s.pc := by cases x <;> rfl
@[simp] theorem State.setPort_sp (s : State) (x : PortId) (p : PortState) : (s.setPort x p).sp = s.sp := by cases x <;> rfl
@[simp] theorem State.setPort_sr (s : State) (x : PortId) (p : PortState) : (s.setPort x p).sr = s.sr := by cases x <;> rfl
@[simp] theorem State.setPort_gpr (s : State) (x : PortId) (p : PortState) : (s.setPort x p).gpr = s.gpr := by cases x <;> rfl
@[simp] theorem State.setPort_mem (s : State) (x : PortId) (p : PortState) : (s.setPort x p).mem = s.mem := by cases x <;> rfl
@[simp] theorem State.setPort_timer (s : State) (x : PortId) (p : PortState) : (s.setPort x p).timer = s.timer := by cases x <;> rfl
@[simp] theorem State.setPort_nmi (s : State) (x : PortId) (p : PortState) : (s.setPort x p).nmi = s.nmi := by cases x <;> rfl
@[simp] theorem State.setPort_gieRose (s : State) (x : PortId) (p : PortState) : (s.setPort x p).gieRose = s.gieRose := by cases x <;> rfl
@[simp] theorem State.setPort_draws (s : State) (x : PortId) (p : PortState) : (s.setPort x p).draws = s.draws := by cases x <;> rfl
@[simp] theorem State.setPort_agenda (s : State) (x : PortId) (p : PortState) : (s.setPort x p).agenda = s.agenda := by cases x <;> rfl
@[simp] theorem State.setPort_platform (s : State) (x : PortId) (p : PortState) : (s.setPort x p).platform = s.platform := by cases x <;> rfl
@[simp] theorem State.setPort_port (s : State) (x : PortId) (p : PortState) : (s.setPort x p).port x = p := by cases x <;> rfl
theorem State.setPort_port_ne (s : State) (x y : PortId) (p : PortState) (h : y ≠ x) : (s.setPort x p).port y = s.port y := by
  cases x <;> cases y <;> first | rfl | exact absurd rfl h

/-! `setFlags`, `applyAlu`, `skipWord`, `settlePins`: all but the fields they name -/

@[simp] theorem State.setFlags_pc (s : State) (f : Option Flags) : (s.setFlags f).pc = s.pc := by cases f <;> rfl
@[simp] theorem State.setFlags_sp (s : State) (f : Option Flags) : (s.setFlags f).sp = s.sp := by cases f <;> rfl
@[simp] theorem State.setFlags_gpr (s : State) (f : Option Flags) : (s.setFlags f).gpr = s.gpr := by cases f <;> rfl
@[simp] theorem State.setFlags_mem (s : State) (f : Option Flags) : (s.setFlags f).mem = s.mem := by cases f <;> rfl
@[simp] theorem State.setFlags_p1 (s : State) (f : Option Flags) : (s.setFlags f).p1 = s.p1 := by cases f <;> rfl
@[simp] theorem State.setFlags_p2 (s : State) (f : Option Flags) : (s.setFlags f).p2 = s.p2 := by cases f <;> rfl
@[simp] theorem State.setFlags_timer (s : State) (f : Option Flags) : (s.setFlags f).timer = s.timer := by cases f <;> rfl
@[simp] theorem State.setFlags_nmi (s : State) (f : Option Flags) : (s.setFlags f).nmi = s.nmi := by cases f <;> rfl
@[simp] theorem State.setFlags_gieRose (s : State) (f : Option Flags) : (s.setFlags f).gieRose = s.gieRose := by cases f <;> rfl
@[simp] theorem State.setFlags_draws (s : State) (f : Option Flags) : (s.setFlags f).draws = s.draws := by cases f <;> rfl
@[simp] theorem State.setFlags_agenda (s : State) (f : Option Flags) : (s.setFlags f).agenda = s.agenda := by cases f <;> rfl
@[simp] theorem State.setFlags_platform (s : State) (f : Option Flags) : (s.setFlags f).platform = s.platform := by cases f <;> rfl
@[simp] theorem State.skipWord_sp (s : State) : (s.skipWord).sp = s.sp := rfl
@[simp] theorem State.skipWord_sr (s : State) : (s.skipWord).sr = s.sr := rfl
@[simp] theorem State.skipWord_gpr (s : State) : (s.skipWord).gpr = s.gpr := rfl
@[simp] theorem State.skipWord_mem (s : State) : (s.skipWord).mem = s.mem := rfl
@[simp] theorem State.skipWord_p1 (s : State) : (s.skipWord).p1 = s.p1 := rfl
@[simp] theorem State.skipWord_p2 (s : State) : (s.skipWord).p2 = s.p2 := rfl
@[simp] theorem State.skipWord_timer (s : State) : (s.skipWord).timer = s.timer := rfl
@[simp] theorem State.skipWord_nmi (s : State) : (s.skipWord).nmi = s.nmi := rfl
@[simp] theorem State.skipWord_gieRose (s : State) : (s.skipWord).gieRose = s.gieRose := rfl
@[simp] theorem State.skipWord_draws (s : State) : (s.skipWord).draws = s.draws := rfl
@[simp] theorem State.skipWord_agenda (s : State) : (s.skipWord).agenda = s.agenda := rfl
@[simp] theorem State.skipWord_platform (s : State) : (s.skipWord).platform = s.platform := rfl
@[simp] theorem State.settlePins_pc (s : State) : (s.settlePins).pc = s.pc := rfl
@[simp] theorem State.settlePins_sp (s : State) : (s.settlePins).sp = s.sp := rfl
@[simp] theorem State.settlePins_sr (s : State) : (s.settlePins).sr = s.sr := rfl
@[simp] theorem State.settlePins_gpr (s : State) : (s.settlePins).gpr = s.gpr := rfl
@[simp] theorem State.settlePins_mem (s : State) : (s.settlePins).mem = s.mem := rfl
@[simp] theorem State.settlePins_timer (s : State) : (s.settlePins).timer = s.timer := rfl
@[simp] theorem State.settlePins_nmi (s : State) : (s.settlePins).nmi = s.nmi := rfl
@[simp] theorem State.settlePins_gieRose (s : State) : (s.settlePins).gieRose = s.gieRose := rfl
@[simp] theorem State.settlePins_draws (s : State) : (s.settlePins).draws = s.draws := rfl
@[simp] theorem State.settlePins_agenda (s : State) : (s.settlePins).agenda = s.agenda := rfl
@[simp] theorem State.settlePins_platform (s : State) : (s.settlePins).platform = s.platform := rfl
@[simp] theorem State.applyAlu_pc {w : Nat} (s : State) (r : Alu w) : (s.applyAlu r).pc = s.pc := by simp [State.applyAlu]
@[simp] theorem State.applyAlu_sp {w : Nat} (s : State) (r : Alu w) : (s.applyAlu r).sp = s.sp := by simp [State.applyAlu]
@[simp] theorem State.applyAlu_gpr {w : Nat} (s : State) (r : Alu w) : (s.applyAlu r).gpr = s.gpr := by simp [State.applyAlu]
@[simp] theorem State.applyAlu_mem {w : Nat} (s : State) (r : Alu w) : (s.applyAlu r).mem = s.mem := by simp [State.applyAlu]
@[simp] theorem State.applyAlu_p1 {w : Nat} (s : State) (r : Alu w) : (s.applyAlu r).p1 = s.p1 := by simp [State.applyAlu]
@[simp] theorem State.applyAlu_p2 {w : Nat} (s : State) (r : Alu w) : (s.applyAlu r).p2 = s.p2 := by simp [State.applyAlu]
@[simp] theorem State.applyAlu_timer {w : Nat} (s : State) (r : Alu w) : (s.applyAlu r).timer = s.timer := by simp [State.applyAlu]
@[simp] theorem State.applyAlu_nmi {w : Nat} (s : State) (r : Alu w) : (s.applyAlu r).nmi = s.nmi := by simp [State.applyAlu]
@[simp] theorem State.applyAlu_gieRose {w : Nat} (s : State) (r : Alu w) : (s.applyAlu r).gieRose = s.gieRose := by simp [State.applyAlu]
@[simp] theorem State.applyAlu_agenda {w : Nat} (s : State) (r : Alu w) : (s.applyAlu r).agenda = s.agenda := by simp [State.applyAlu]
@[simp] theorem State.applyAlu_platform {w : Nat} (s : State) (r : Alu w) : (s.applyAlu r).platform = s.platform := by simp [State.applyAlu]
@[simp] theorem State.setFlags_none (s : State) : s.setFlags none = s := rfl
@[simp] theorem State.setFlags_some_sr (s : State) (f : Flags) : (s.setFlags (some f)).sr = f.into s.sr := rfl
@[simp] theorem State.skipWord_pc (s : State) : s.skipWord.pc = evenWord (s.pc + 2) := rfl
@[simp] theorem State.applyAlu_draws {w : Nat} (s : State) (r : Alu w) : (s.applyAlu r).draws = s.draws + r.draws := rfl
@[simp] theorem State.applyAlu_sr {w : Nat} (s : State) (r : Alu w) : (s.applyAlu r).sr = (s.setFlags r.flags).sr := rfl
@[simp] theorem State.setFlags_port (s : State) (f : Option Flags) (x : PortId) : (s.setFlags f).port x = s.port x := by
  cases f <;> cases x <;> rfl
@[simp] theorem State.skipWord_port (s : State) (x : PortId) : s.skipWord.port x = s.port x := by cases x <;> rfl
@[simp] theorem State.applyAlu_port {w : Nat} (s : State) (r : Alu w) (x : PortId) : (s.applyAlu r).port x = s.port x := by
  simp [State.applyAlu]
@[simp] theorem State.settlePins_port (s : State) (x : PortId) : s.settlePins.port x = { s.port x with maySet := 0 } := by
  cases x <;> rfl

/-! Reading a register after writing one (10_state.md R20 to R25, R30). -/

/-- What a register holds after `v` was written to it. -/
theorem State.readReg_writeReg_same (s : State) (r : Reg) (v : Word) :
    (s.writeReg r v).readReg r =
      match r with
      | .pc => evenWord v
      | .sp => evenWord v
      | .sr => srWord v
      | .cg => 0
      | .gp _ => v := by
  cases r <;> simp [State.writeReg, State.readReg]

/-- A register write leaves every other register alone. -/
theorem State.readReg_writeReg_other (s : State) (r q : Reg) (v : Word) (h : q ≠ r) :
    (s.writeReg r v).readReg q = s.readReg q := by
  cases r <;> cases q <;> simp_all [State.writeReg, State.readReg]
  rename_i i j
  exact Vector.getElem_set_ne _ _ (fun e => h (Fin.ext e.symm))

@[simp] theorem State.writeReg_mem (s : State) (r : Reg) (v : Word) : (s.writeReg r v).mem = s.mem := by cases r <;> rfl
@[simp] theorem State.writeReg_p1 (s : State) (r : Reg) (v : Word) : (s.writeReg r v).p1 = s.p1 := by cases r <;> rfl
@[simp] theorem State.writeReg_p2 (s : State) (r : Reg) (v : Word) : (s.writeReg r v).p2 = s.p2 := by cases r <;> rfl
@[simp] theorem State.writeReg_timer (s : State) (r : Reg) (v : Word) : (s.writeReg r v).timer = s.timer := by cases r <;> rfl
@[simp] theorem State.writeReg_nmi (s : State) (r : Reg) (v : Word) : (s.writeReg r v).nmi = s.nmi := by cases r <;> rfl
@[simp] theorem State.writeReg_gieRose (s : State) (r : Reg) (v : Word) : (s.writeReg r v).gieRose = s.gieRose := by cases r <;> rfl
@[simp] theorem State.writeReg_draws (s : State) (r : Reg) (v : Word) : (s.writeReg r v).draws = s.draws := by cases r <;> rfl
@[simp] theorem State.writeReg_agenda (s : State) (r : Reg) (v : Word) : (s.writeReg r v).agenda = s.agenda := by cases r <;> rfl
@[simp] theorem State.writeReg_platform (s : State) (r : Reg) (v : Word) : (s.writeReg r v).platform = s.platform := by cases r <;> rfl
@[simp] theorem State.writeReg_port (s : State) (r : Reg) (v : Word) (x : PortId) : (s.writeReg r v).port x = s.port x := by
  cases r <;> cases x <;> rfl

/-! `noteLoad`, `noteRead`, `noteMov`, `noteDst`: what a data read leaves behind touches Timer_A and the count of draws alone. -/

@[simp] theorem State.noteLoad_pc (s : State) (bw : Width) (a : Word) : (s.noteLoad bw a).pc = s.pc := rfl
@[simp] theorem State.noteLoad_sp (s : State) (bw : Width) (a : Word) : (s.noteLoad bw a).sp = s.sp := rfl
@[simp] theorem State.noteLoad_sr (s : State) (bw : Width) (a : Word) : (s.noteLoad bw a).sr = s.sr := rfl
@[simp] theorem State.noteLoad_gpr (s : State) (bw : Width) (a : Word) : (s.noteLoad bw a).gpr = s.gpr := rfl
@[simp] theorem State.noteLoad_mem (s : State) (bw : Width) (a : Word) : (s.noteLoad bw a).mem = s.mem := rfl
@[simp] theorem State.noteLoad_p1 (s : State) (bw : Width) (a : Word) : (s.noteLoad bw a).p1 = s.p1 := rfl
@[simp] theorem State.noteLoad_p2 (s : State) (bw : Width) (a : Word) : (s.noteLoad bw a).p2 = s.p2 := rfl
@[simp] theorem State.noteLoad_nmi (s : State) (bw : Width) (a : Word) : (s.noteLoad bw a).nmi = s.nmi := rfl
@[simp] theorem State.noteLoad_gieRose (s : State) (bw : Width) (a : Word) : (s.noteLoad bw a).gieRose = s.gieRose := rfl
@[simp] theorem State.noteLoad_agenda (s : State) (bw : Width) (a : Word) : (s.noteLoad bw a).agenda = s.agenda := rfl
@[simp] theorem State.noteLoad_platform (s : State) (bw : Width) (a : Word) : (s.noteLoad bw a).platform = s.platform := rfl
@[simp] theorem State.noteLoad_port (s : State) (bw : Width) (a : Word) (x : PortId) : (s.noteLoad bw a).port x = s.port x := by
  cases x <;> simp [State.port]
@[simp] theorem State.noteLoad_readReg (s : State) (bw : Width) (a : Word) (r : Reg) : (s.noteLoad bw a).readReg r = s.readReg r := by
  cases r <;> simp [State.readReg]
@[simp] theorem State.noteLoad_kindAt (s : State) (bw : Width) (a : Word) (b : Word) : (s.noteLoad bw a).kindAt b = s.kindAt b := by
  simp [State.kindAt]
@[simp] theorem State.noteLoad_carry (s : State) (bw : Width) (a : Word) : (s.noteLoad bw a).carry = s.carry := by simp [State.carry]

@[simp] theorem State.noteRead_pc (s : State) (bw : Width) (loc : Loc) : (s.noteRead bw loc).pc = s.pc := by cases loc <;> rfl
@[simp] theorem State.noteRead_sp (s : State) (bw : Width) (loc : Loc) : (s.noteRead bw loc).sp = s.sp := by cases loc <;> rfl
@[simp] theorem State.noteRead_sr (s : State) (bw : Width) (loc : Loc) : (s.noteRead bw loc).sr = s.sr := by cases loc <;> rfl
@[simp] theorem State.noteRead_gpr (s : State) (bw : Width) (loc : Loc) : (s.noteRead bw loc).gpr = s.gpr := by cases loc <;> rfl
@[simp] theorem State.noteRead_mem (s : State) (bw : Width) (loc : Loc) : (s.noteRead bw loc).mem = s.mem := by cases loc <;> rfl
@[simp] theorem State.noteRead_p1 (s : State) (bw : Width) (loc : Loc) : (s.noteRead bw loc).p1 = s.p1 := by cases loc <;> rfl
@[simp] theorem State.noteRead_p2 (s : State) (bw : Width) (loc : Loc) : (s.noteRead bw loc).p2 = s.p2 := by cases loc <;> rfl
@[simp] theorem State.noteRead_nmi (s : State) (bw : Width) (loc : Loc) : (s.noteRead bw loc).nmi = s.nmi := by cases loc <;> rfl
@[simp] theorem State.noteRead_gieRose (s : State) (bw : Width) (loc : Loc) : (s.noteRead bw loc).gieRose = s.gieRose := by cases loc <;> rfl
@[simp] theorem State.noteRead_agenda (s : State) (bw : Width) (loc : Loc) : (s.noteRead bw loc).agenda = s.agenda := by cases loc <;> rfl
@[simp] theorem State.noteRead_platform (s : State) (bw : Width) (loc : Loc) : (s.noteRead bw loc).platform = s.platform := by cases loc <;> rfl
@[simp] theorem State.noteRead_port (s : State) (bw : Width) (loc : Loc) (x : PortId) : (s.noteRead bw loc).port x = s.port x := by
  cases x <;> simp [State.port]
@[simp] theorem State.noteRead_readReg (s : State) (bw : Width) (loc : Loc) (r : Reg) : (s.noteRead bw loc).readReg r = s.readReg r := by
  cases r <;> simp [State.readReg]
@[simp] theorem State.noteRead_kindAt (s : State) (bw : Width) (loc : Loc) (b : Word) : (s.noteRead bw loc).kindAt b = s.kindAt b := by
  simp [State.kindAt]
@[simp] theorem State.noteRead_carry (s : State) (bw : Width) (loc : Loc) : (s.noteRead bw loc).carry = s.carry := by simp [State.carry]

@[simp] theorem State.noteMov_pc (s : State) (bw : Width) (reads : Bool) (loc : Loc) : (s.noteMov bw reads loc).pc = s.pc := by cases loc <;> rfl
@[simp] theorem State.noteMov_sp (s : State) (bw : Width) (reads : Bool) (loc : Loc) : (s.noteMov bw reads loc).sp = s.sp := by cases loc <;> rfl
@[simp] theorem State.noteMov_sr (s : State) (bw : Width) (reads : Bool) (loc : Loc) : (s.noteMov bw reads loc).sr = s.sr := by cases loc <;> rfl
@[simp] theorem State.noteMov_gpr (s : State) (bw : Width) (reads : Bool) (loc : Loc) : (s.noteMov bw reads loc).gpr = s.gpr := by cases loc <;> rfl
@[simp] theorem State.noteMov_mem (s : State) (bw : Width) (reads : Bool) (loc : Loc) : (s.noteMov bw reads loc).mem = s.mem := by cases loc <;> rfl
@[simp] theorem State.noteMov_p1 (s : State) (bw : Width) (reads : Bool) (loc : Loc) : (s.noteMov bw reads loc).p1 = s.p1 := by cases loc <;> rfl
@[simp] theorem State.noteMov_p2 (s : State) (bw : Width) (reads : Bool) (loc : Loc) : (s.noteMov bw reads loc).p2 = s.p2 := by cases loc <;> rfl
@[simp] theorem State.noteMov_nmi (s : State) (bw : Width) (reads : Bool) (loc : Loc) : (s.noteMov bw reads loc).nmi = s.nmi := by cases loc <;> rfl
@[simp] theorem State.noteMov_gieRose (s : State) (bw : Width) (reads : Bool) (loc : Loc) : (s.noteMov bw reads loc).gieRose = s.gieRose := by cases loc <;> rfl
@[simp] theorem State.noteMov_agenda (s : State) (bw : Width) (reads : Bool) (loc : Loc) : (s.noteMov bw reads loc).agenda = s.agenda := by cases loc <;> rfl
@[simp] theorem State.noteMov_platform (s : State) (bw : Width) (reads : Bool) (loc : Loc) : (s.noteMov bw reads loc).platform = s.platform := by cases loc <;> rfl
@[simp] theorem State.noteMov_port (s : State) (bw : Width) (reads : Bool) (loc : Loc) (x : PortId) : (s.noteMov bw reads loc).port x = s.port x := by
  cases x <;> simp [State.port]
@[simp] theorem State.noteMov_readReg (s : State) (bw : Width) (reads : Bool) (loc : Loc) (r : Reg) : (s.noteMov bw reads loc).readReg r = s.readReg r := by
  cases r <;> simp [State.readReg]
@[simp] theorem State.noteMov_kindAt (s : State) (bw : Width) (reads : Bool) (loc : Loc) (b : Word) : (s.noteMov bw reads loc).kindAt b = s.kindAt b := by
  simp [State.kindAt]
@[simp] theorem State.noteMov_carry (s : State) (bw : Width) (reads : Bool) (loc : Loc) : (s.noteMov bw reads loc).carry = s.carry := by simp [State.carry]

@[simp] theorem State.noteDst_pc (s : State) (bw : Width) (use : DstUse) (loc : Loc) : (s.noteDst bw use loc).pc = s.pc := by cases use <;> simp [State.noteDst]
@[simp] theorem State.noteDst_sp (s : State) (bw : Width) (use : DstUse) (loc : Loc) : (s.noteDst bw use loc).sp = s.sp := by cases use <;> simp [State.noteDst]
@[simp] theorem State.noteDst_sr (s : State) (bw : Width) (use : DstUse) (loc : Loc) : (s.noteDst bw use loc).sr = s.sr := by cases use <;> simp [State.noteDst]
@[simp] theorem State.noteDst_gpr (s : State) (bw : Width) (use : DstUse) (loc : Loc) : (s.noteDst bw use loc).gpr = s.gpr := by cases use <;> simp [State.noteDst]
@[simp] theorem State.noteDst_mem (s : State) (bw : Width) (use : DstUse) (loc : Loc) : (s.noteDst bw use loc).mem = s.mem := by cases use <;> simp [State.noteDst]
@[simp] theorem State.noteDst_p1 (s : State) (bw : Width) (use : DstUse) (loc : Loc) : (s.noteDst bw use loc).p1 = s.p1 := by cases use <;> simp [State.noteDst]
@[simp] theorem State.noteDst_p2 (s : State) (bw : Width) (use : DstUse) (loc : Loc) : (s.noteDst bw use loc).p2 = s.p2 := by cases use <;> simp [State.noteDst]
@[simp] theorem State.noteDst_nmi (s : State) (bw : Width) (use : DstUse) (loc : Loc) : (s.noteDst bw use loc).nmi = s.nmi := by cases use <;> simp [State.noteDst]
@[simp] theorem State.noteDst_gieRose (s : State) (bw : Width) (use : DstUse) (loc : Loc) : (s.noteDst bw use loc).gieRose = s.gieRose := by cases use <;> simp [State.noteDst]
@[simp] theorem State.noteDst_agenda (s : State) (bw : Width) (use : DstUse) (loc : Loc) : (s.noteDst bw use loc).agenda = s.agenda := by cases use <;> simp [State.noteDst]
@[simp] theorem State.noteDst_platform (s : State) (bw : Width) (use : DstUse) (loc : Loc) : (s.noteDst bw use loc).platform = s.platform := by cases use <;> simp [State.noteDst]
@[simp] theorem State.noteDst_port (s : State) (bw : Width) (use : DstUse) (loc : Loc) (x : PortId) : (s.noteDst bw use loc).port x = s.port x := by
  cases x <;> simp [State.port]
@[simp] theorem State.noteDst_readReg (s : State) (bw : Width) (use : DstUse) (loc : Loc) (r : Reg) : (s.noteDst bw use loc).readReg r = s.readReg r := by
  cases r <;> simp [State.readReg]
@[simp] theorem State.noteDst_kindAt (s : State) (bw : Width) (use : DstUse) (loc : Loc) (b : Word) : (s.noteDst bw use loc).kindAt b = s.kindAt b := by
  simp [State.kindAt]
@[simp] theorem State.noteDst_carry (s : State) (bw : Width) (use : DstUse) (loc : Loc) : (s.noteDst bw use loc).carry = s.carry := by simp [State.carry]

@[simp] theorem State.noteRead_reg (s : State) (bw : Width) (r : Reg) : s.noteRead bw (.reg r) = s := rfl
@[simp] theorem State.noteRead_const (s : State) (bw : Width) (v : Word) : s.noteRead bw (.const v) = s := rfl
@[simp] theorem State.noteRead_discard (s : State) (bw : Width) : s.noteRead bw .discard = s := rfl
@[simp] theorem State.noteRead_atMem (s : State) (bw : Width) (a : Word) : s.noteRead bw (.mem a) = s.noteLoad bw a := rfl
@[simp] theorem State.noteMov_reg (s : State) (bw : Width) (reads : Bool) (r : Reg) : s.noteMov bw reads (.reg r) = s := rfl
@[simp] theorem State.noteMov_const (s : State) (bw : Width) (reads : Bool) (v : Word) : s.noteMov bw reads (.const v) = s := rfl
@[simp] theorem State.noteMov_discard (s : State) (bw : Width) (reads : Bool) : s.noteMov bw reads .discard = s := rfl
@[simp] theorem State.noteDst_write (s : State) (bw : Width) (reads : Bool) (loc : Loc) :
    s.noteDst bw (.write reads) loc = s.noteMov bw reads loc := rfl
@[simp] theorem State.noteDst_readWrite (s : State) (bw : Width) (loc : Loc) :
    s.noteDst bw .readWrite loc = s.noteRead bw loc := rfl
@[simp] theorem State.noteDst_read (s : State) (bw : Width) (loc : Loc) : s.noteDst bw .read loc = s.noteRead bw loc := rfl
@[simp] theorem srcState_reg (s : State) (bw : Width) (r : Reg) : srcState bw (.reg r) s = s := rfl
@[simp] theorem srcState_const (s : State) (bw : Width) (c : CgConst) : srcState bw (.const c) s = s := rfl
@[simp] theorem srcState_imm (s : State) (bw : Width) (v : Word) : srcState bw (.imm v) s = s.skipWord := rfl

/-! `setInput`, `capture`: all but the fields they name -/

@[simp] theorem CcBlock.setInput_ctl (b : CcBlock) (second new : Bool) : (b.setInput second new).ctl = b.ctl := by
  cases second <;> rfl
@[simp] theorem CcBlock.setInput_ccr (b : CcBlock) (second new : Bool) : (b.setInput second new).ccr = b.ccr := by
  cases second <;> rfl
@[simp] theorem CcBlock.setInput_scci (b : CcBlock) (second new : Bool) : (b.setInput second new).scci = b.scci := by
  cases second <;> rfl
@[simp] theorem CcBlock.setInput_outx (b : CcBlock) (second new : Bool) : (b.setInput second new).outx = b.outx := by
  cases second <;> rfl
@[simp] theorem CcBlock.setInput_unread (b : CcBlock) (second new : Bool) : (b.setInput second new).unread = b.unread := by
  cases second <;> rfl
@[simp] theorem CcBlock.setInput_waiting (b : CcBlock) (second new : Bool) : (b.setInput second new).waiting = b.waiting := by
  cases second <;> rfl
@[simp] theorem CcBlock.capture_ccr (b : CcBlock) (v : Word) : (b.capture v).ccr = v := rfl
@[simp] theorem CcBlock.capture_ctl (b : CcBlock) (v : Word) :
    (b.capture v).ctl = b.ctl ||| (if b.unread then 3 else 1) := rfl
@[simp] theorem CcBlock.capture_scci (b : CcBlock) (v : Word) : (b.capture v).scci = b.scci := rfl
@[simp] theorem CcBlock.capture_outx (b : CcBlock) (v : Word) : (b.capture v).outx = b.outx := rfl
@[simp] theorem CcBlock.capture_unread (b : CcBlock) (v : Word) : (b.capture v).unread = true := rfl
@[simp] theorem CcBlock.capture_waiting (b : CcBlock) (v : Word) : (b.capture v).waiting = false := rfl

end Sys2Proof.Machine
end

