-- ==== Sys2Proof/Laws/Ops.lean ====
section
/-! SUPPORT. What each named operation of Machine/Ops.lean can do, said once. -/

namespace Sys2Proof.Machine

/-! Outcomes. -/

theorem outcome_next {r : Except Stop State} {t : State} : outcome r = .next t ↔ r = .ok t := by
  cases r with
  | ok s => simp [outcome]
  | error e => cases e <;> simp [outcome]

/-! Even words and SR's reserved bits (10_state.md R22, R23, R30). -/

theorem evenWord_getLsbD (v : Word) (i : Nat) : (evenWord v).getLsbD i = (v.getLsbD i && decide (i ≠ 0)) := by
  rcases Nat.lt_or_ge i 16 with h | h
  · unfold evenWord; interval_cases i <;> simp
  · simp [BitVec.getLsbD_of_ge _ _ h]

@[simp] theorem evenWord_bit0 (v : Word) : (evenWord v)[0] = false := by simp [evenWord]

@[simp] theorem evenWord_evenWord (v : Word) : evenWord (evenWord v) = evenWord v := by
  simp [evenWord, BitVec.and_assoc]

@[simp] theorem srWord_reserved (v : Word) : srWord v &&& 0xFE00#16 = 0#16 := by
  simp [srWord, BitVec.and_assoc]

@[simp] theorem srWord_srWord (v : Word) : srWord (srWord v) = srWord v := by
  simp [srWord, BitVec.and_assoc]

theorem evenWord_of_bit0 {v : Word} (h : v[0] = false) : evenWord v = v := by
  refine BitVec.eq_of_getLsbD_eq fun i hi => ?_
  rw [evenWord_getLsbD]
  rcases Nat.eq_zero_or_pos i with rfl | hp
  · simp [h]
  · simp [Nat.pos_iff_ne_zero.mp hp]

/-- Writing flags keeps every bit of SR but the four they stand in (40_operands.md R146). -/
theorem Flags.into_kept (f : Flags) (sr : Word) : f.into sr &&& notFlags = sr &&& notFlags := by
  rcases f with ⟨v, n, z, c⟩
  cases v <;> cases n <;> cases z <;> cases c <;>
    simp [Flags.into, Flags.bits, notFlags, BitVec.and_or_distrib_right, BitVec.and_assoc]

/-- Where the flags stand (10_state.md R26). -/
theorem Flags.into_bits (f : Flags) (sr : Word) :
    (f.into sr).getLsbD 0 = f.c ∧ (f.into sr).getLsbD 1 = f.z ∧ (f.into sr).getLsbD 2 = f.n ∧
      (f.into sr).getLsbD 8 = f.v := by
  rcases f with ⟨v, n, z, c⟩
  cases v <;> cases n <;> cases z <;> cases c <;> simp [Flags.into, Flags.bits]

/-! Memory accesses. -/

/-- A stored byte goes to a port register or to RAM. -/
theorem State.writeByte_ok {s t : State} {a : Word} {v : Byte} (h : s.writeByte a v = .ok t) :
    (∃ x r, s.kindAt a = .port x r ∧ t = s.setPort x ((s.port x).write r v)) ∨
    (s.kindAt a = .ram ∧ t = s.setMem (Memory.write s.mem a.toNat v)) := by
  unfold State.writeByte at h
  split at h
  · rename_i x r hk
    exact .inl ⟨x, r, hk, by simpa using h.symm⟩
  · rename_i hk
    exact .inr ⟨hk, by simpa using h.symm⟩
  all_goals cases h

/-- A stored word goes to a timer register or to two bytes of RAM. -/
theorem State.writeWord_ok {s t : State} {a v : Word} (h : s.writeWord a v = .ok t) :
    (∃ r tm, s.kindAt (evenWord a) = .timer r ∧ s.timer.write r v = some tm ∧ t = s.setTimer tm) ∨
    (s.isRam (evenWord a) = true ∧ s.isRam (evenWord a + 1) = true ∧
      t = s.setMem (Memory.write (Memory.write s.mem (evenWord a).toNat (v.extractLsb' 0 8))
        (evenWord a + 1).toNat (v.extractLsb' 8 8))) := by
  unfold State.writeWord at h
  split at h
  · rename_i r hk
    split at h
    · rename_i tm ht
      exact .inl ⟨r, tm, hk, ht, by simpa using h.symm⟩
    · cases h
  · split at h
    · rename_i hr
      simp only [Bool.and_eq_true] at hr
      exact .inr ⟨hr.1, hr.2, by simpa using h.symm⟩
    · cases h

/-- A word stored to RAM. -/
theorem State.writeWord_ram {s : State} {a : Word} (v : Word) (h0 : s.isRam (evenWord a) = true)
    (h1 : s.isRam (evenWord a + 1) = true) :
    s.writeWord a v = .ok (s.setMem (Memory.write (Memory.write s.mem (evenWord a).toNat (v.extractLsb' 0 8))
        (evenWord a + 1).toNat (v.extractLsb' 8 8))) := by
  unfold State.writeWord
  split
  · rename_i r hk
    rw [State.isRam, hk] at h0
    exact absurd h0 (by simp)
  · rw [h0, h1]; rfl

/-- A byte stored to RAM. -/
theorem State.writeByte_ram {s : State} {a : Word} (v : Byte) (h : s.isRam a = true) :
    s.writeByte a v = .ok (s.setMem (Memory.write s.mem a.toNat v)) := by
  have hk : s.kindAt a = .ram := by simpa [State.isRam] using h
  simp [State.writeByte, hk]

/-- A word read at a timer register (20_memory.md R72). -/
theorem State.readWord_timer {s : State} {a v : Word} {r : TimerReg} (hk : s.kindAt (evenWord a) = .timer r)
    (hv : s.timer.read r = some v) : s.readWord a = .ok v := by
  unfold State.readWord; rw [hk]; simp only [hv]

/-- The two bytes of a word lie at different addresses. -/
theorem evenWord_succ_ne (a : Word) : (evenWord a + 1).toNat ≠ (evenWord a).toNat := by
  intro h
  have := BitVec.eq_of_toNat_eq h
  simp at this

/-! What a data read leaves behind. -/

theorem TimerState.captureRead_allRead (t : TimerState) (x : Nat) : (t.captureRead x).allRead = t.allRead := by
  simp only [TimerState.captureRead, TimerState.mapBlock, TimerState.allRead, TimerState.mk.injEq, true_and]
  refine List.ext_getElem? fun i => ?_
  simp only [List.getElem?_map, List.getElem?_modify]
  cases t.blocks[i]? <;> by_cases h : x = i <;> simp [h]

/-- What a timer register reads does not depend on what counts as read. -/
theorem TimerState.read_allRead (t : TimerState) (r : TimerReg) : t.allRead.read r = t.read r := by
  cases r with
  | tactl => rfl
  | tar => rfl
  | tacctl x => simp only [TimerState.allRead, TimerState.read, List.getElem?_map, Option.map_map]; rfl
  | taccr x => simp only [TimerState.allRead, TimerState.read, List.getElem?_map, Option.map_map]; rfl

theorem TimerState.read_congr {t t' : TimerState} (h : t'.allRead = t.allRead) (r : TimerReg) : t'.read r = t.read r := by
  rw [← t'.read_allRead, h, t.read_allRead]

/-- A data read leaves the timer as it was, or with one captured value read. -/
theorem State.noteLoad_timer (s : State) (bw : Width) (a : Word) :
    (s.noteLoad bw a).timer = s.timer ∨ ∃ x, (s.noteLoad bw a).timer = s.timer.captureRead x := by
  simp only [State.noteLoad, State.loadTimer]
  split
  · exact .inr ⟨_, rfl⟩
  · exact .inl rfl

/-- What a read of an operand does to the timer. -/
theorem State.noteRead_timer (s : State) (bw : Width) (loc : Loc) :
    (s.noteRead bw loc).timer = s.timer ∨ ∃ x, (s.noteRead bw loc).timer = s.timer.captureRead x := by
  cases loc with
  | mem a => exact s.noteLoad_timer bw a
  | reg r => exact .inl rfl
  | const v => exact .inl rfl
  | discard => exact .inl rfl

theorem State.noteLoad_allRead (s : State) (bw : Width) (a : Word) :
    (s.noteLoad bw a).timer.allRead = s.timer.allRead := by
  rcases s.noteLoad_timer bw a with h | ⟨x, h⟩ <;> rw [h]
  exact TimerState.captureRead_allRead _ _

theorem State.noteRead_allRead (s : State) (bw : Width) (loc : Loc) :
    (s.noteRead bw loc).timer.allRead = s.timer.allRead := by
  rcases s.noteRead_timer bw loc with h | ⟨x, h⟩ <;> rw [h]
  exact TimerState.captureRead_allRead _ _

theorem TimerState.captureRead_unread {t : TimerState} (x : Nat) (h : ∀ b ∈ t.blocks, b.unread = false) :
    ∀ b ∈ (t.captureRead x).blocks, b.unread = false := by
  intro b hb
  simp only [TimerState.captureRead, TimerState.mapBlock] at hb
  obtain ⟨k, hk, rfl⟩ := List.getElem_of_mem hb
  rw [List.getElem_modify]
  split
  · rfl
  · exact h _ (List.getElem_mem _)

/-- A read of an operand changes Timer_A's notes of unread captures and the count of draws at most. -/
theorem State.noteRead_frame (s : State) (bw : Width) (loc : Loc) :
    Framed s (s.noteRead bw loc) (fun _ => False) 0xFFFF none where
  regs r _ _ _ := by simp
  sr := by simp
  mem _ _ := by simp
  ports _ _ := by simp
  timer _ := s.noteRead_allRead bw loc
  unread h := by
    rcases s.noteRead_timer bw loc with e | ⟨x, e⟩ <;> rw [e]
    · exact h
    · exact TimerState.captureRead_unread x h
  nmi := by simp
  gieRose := by simp
  agenda := by simp
  platform := by simp

/-- A byte of memory depends on memory and the map alone. -/
theorem State.readCell_congr {s t : State} (a : Word) (hm : t.mem = s.mem) (hp : t.platform = s.platform) :
    t.readCell a = s.readCell a := by
  simp [State.readCell, State.kindAt, hm, hp]

/-- A word read depends on memory, the timer but for its notes of unread captures, and the map alone. -/
theorem State.readWord_congr {s t : State} (a : Word) (hm : t.mem = s.mem)
    (ht : t.timer.allRead = s.timer.allRead) (hp : t.platform = s.platform) : t.readWord a = s.readWord a := by
  simp only [State.readWord, State.readCell_congr _ hm hp, State.isMemory, State.kindAt, TimerState.read_congr ht, hp]
  rfl

/-- A byte read depends on memory, the ports, the draws and the map alone. -/
theorem State.readByte_congr {s t : State} (a : Word) (hm : t.mem = s.mem) (hx : ∀ x, t.port x = s.port x)
    (hd : t.draws = s.draws) (hp : t.platform = s.platform) : t.readByte a = s.readByte a := by
  simp [State.readByte, State.readCell_congr _ hm hp, State.kindAt, hx, hd, hp]

/-- A read at an instruction's width depends on memory, the devices, the draws and the map alone. -/
theorem State.load_congr {s t : State} (bw : Width) (a : Word) (hm : t.mem = s.mem) (ht : t.timer.allRead = s.timer.allRead)
    (hx : ∀ x, t.port x = s.port x) (hd : t.draws = s.draws) (hp : t.platform = s.platform) : t.load bw a = s.load bw a := by
  cases bw
  · exact State.readWord_congr a hm ht hp
  · exact State.readByte_congr a hm hx hd hp

/-- A byte of RAM or program memory that has been written. -/
theorem State.readCell_of_mem {s : State} {a : Word} {v : Byte} (hk : s.kindAt a = .ram ∨ s.kindAt a = .rom)
    (hm : Memory.read s.mem a.toNat = some v) : s.readCell a = .ok v := by
  rcases hk with hk | hk <;> simp [State.readCell, hk, hm]

/-- The word that two bytes of memory hold is the word read. -/
theorem State.HoldsWord.readWord {s : State} {a w : Word} (h : s.HoldsWord a w) : s.readWord a = .ok w := by
  have h0 := State.readCell_of_mem h.lowKind h.low
  have h1 := State.readCell_of_mem h.highKind h.high
  have hw : w.extractLsb' 8 8 ++ w.extractLsb' 0 8 = w := by
    refine BitVec.eq_of_getLsbD_eq fun i hi => ?_
    simp only [BitVec.getLsbD_append, BitVec.getLsbD_extractLsb']
    by_cases h : i < 8
    · simp [h]
    · have : i - 8 < 8 := by omega
      simp [h, this, show 8 + (i - 8) = i by omega]
  unfold State.readWord
  split
  · rename_i r hk
    rcases h.lowKind with e | e <;> rw [e] at hk <;> cases hk
  · have m0 : s.isMemory (evenWord a) = true := by unfold State.isMemory; rcases h.lowKind with e | e <;> rw [e] <;> rfl
    have m1 : s.isMemory (evenWord a + 1) = true := by unfold State.isMemory; rcases h.highKind with e | e <;> rw [e] <;> rfl
    simp only [m0, m1, Bool.and_self, ↓reduceIte, h0, h1, hw]

/-- A word written to RAM is held there. -/
theorem State.holdsWord_write {s : State} {a v : Word} (h0 : s.isRam (evenWord a) = true)
    (h1 : s.isRam (evenWord a + 1) = true) :
    (s.setMem (Memory.write (Memory.write s.mem (evenWord a).toNat (v.extractLsb' 0 8))
        (evenWord a + 1).toNat (v.extractLsb' 8 8))).HoldsWord a v := by
  have hk : ∀ b m, (s.setMem m).kindAt b = s.kindAt b := fun b m => rfl
  refine ⟨.inl ?_, .inl ?_, ?_, ?_⟩
  · rw [hk]; simpa [State.isRam] using h0
  · rw [hk]; simpa [State.isRam] using h1
  · rw [State.setMem_mem, Memory.read_write_other _ _ _ _ (evenWord_succ_ne a).symm, Memory.read_write_same]
  · rw [State.setMem_mem, Memory.read_write_same]

/-- A word pushed to RAM: the state after, and the word where SP points. -/
theorem State.push_word_ram {s : State} (v : Word) (h0 : s.isRam (evenWord (s.sp - 2)) = true)
    (h1 : s.isRam (evenWord (s.sp - 2) + 1) = true) :
    ∃ t, s.push .word v = .ok t ∧ t.HoldsWord (s.sp - 2) v ∧ t = (s.setSp (s.sp - 2)).setMem
      (Memory.write (Memory.write s.mem (evenWord (s.sp - 2)).toNat (v.extractLsb' 0 8))
        (evenWord (s.sp - 2) + 1).toNat (v.extractLsb' 8 8)) := by
  have hw := State.writeWord_ram (s := s.setSp (s.sp - 2)) (a := evenWord (s.sp - 2)) v
    (by rw [evenWord_evenWord]; exact h0) (by rw [evenWord_evenWord]; exact h1)
  have hh := State.holdsWord_write (s := s.setSp (s.sp - 2)) (a := s.sp - 2) (v := v) h0 h1
  rw [evenWord_evenWord] at hw
  exact ⟨_, hw, hh, rfl⟩

/-- The number of capture/compare blocks, TACTL's bit 2 and the read-only bits of the blocks survive a timer write. -/
theorem TimerState.write_ok {t t' : TimerState} {r : TimerReg} {v : Word} (h : t.write r v = some t') :
    t'.blocks.length = t.blocks.length ∧
    (t.tactl[2] = false → t'.tactl[2] = false) ∧
    ((∀ b ∈ t.blocks, b.ctl &&& 0x0608#16 = 0#16) → ∀ b ∈ t'.blocks, b.ctl &&& 0x0608#16 = 0#16) := by
  cases r with
  | tactl =>
    simp only [TimerState.write, Option.some.injEq] at h
    subst h
    unfold TimerState.writeTactl
    split <;> simp
  | tar =>
    simp only [TimerState.write, Option.some.injEq] at h
    subst h
    simp
  | tacctl x =>
    simp only [TimerState.write, Option.map_eq_some_iff] at h
    obtain ⟨b, hb, rfl⟩ := h
    refine ⟨by simp, by simp, fun hs c hc => ?_⟩
    rcases List.mem_or_eq_of_mem_set hc with hc | rfl
    · exact hs c hc
    · unfold CcBlock.writeCtl
      simp only
      split <;> simp [BitVec.and_assoc]
  | taccr x =>
    simp only [TimerState.write, Option.map_eq_some_iff] at h
    obtain ⟨b, hb, rfl⟩ := h
    refine ⟨by simp, by simp, fun hs c hc => ?_⟩
    rcases List.mem_or_eq_of_mem_set hc with hc | rfl
    · exact hs c hc
    · exact hs b (List.mem_of_getElem? hb)

/-- The part of the invariant that speaks of Timer_A. -/
def TimerState.ok (t : TimerState) (n : Nat) : Prop :=
  t.tactl[2] = false ∧ (∀ b ∈ t.blocks, b.ctl &&& 0x0608#16 = 0#16) ∧ t.blocks.length = n

theorem TimerState.mapBlock_ok {t : TimerState} {n : Nat} (x : Nat) (f : CcBlock → CcBlock) (h : t.ok n)
    (hf : ∀ b, b.ctl &&& 0x0608#16 = 0#16 → (f b).ctl &&& 0x0608#16 = 0#16) : (t.mapBlock x f).ok n := by
  refine ⟨h.1, fun b hb => ?_, by simpa [TimerState.mapBlock] using h.2.2⟩
  obtain ⟨k, hk, rfl⟩ := List.getElem_of_mem hb
  simp only [TimerState.mapBlock, List.getElem_modify]
  have hk' := h.2.1 _ (List.getElem_mem (by simpa [TimerState.mapBlock] using hk : k < t.blocks.length))
  split
  · exact hf _ hk'
  · exact hk'

/-- Timer_A's part of the invariant, and the rest of it. -/
theorem State.setTimer_inv {s : State} {t : TimerState} (hs : s.Inv) (h : t.ok s.platform.ccrCount) :
    (s.setTimer t).Inv := ⟨hs.memWf, hs.pcEven, hs.spEven, hs.srReserved, h.1, h.2.1, h.2.2⟩

theorem State.Inv.timerOk {s : State} (hs : s.Inv) : s.timer.ok s.platform.ccrCount :=
  ⟨hs.taclrZero, hs.ctlReadOnly, hs.blockCount⟩

/-- What a data read leaves behind keeps the invariant. -/
theorem State.noteLoad_inv {s : State} (bw : Width) (a : Word) (hs : s.Inv) : (s.noteLoad bw a).Inv := by
  have h : (s.noteLoad bw a).timer.ok s.platform.ccrCount := by
    rcases s.noteLoad_timer bw a with e | ⟨x, e⟩ <;> rw [e]
    · exact hs.timerOk
    · exact TimerState.mapBlock_ok x _ hs.timerOk fun _ hb => hb
  exact ⟨hs.memWf, hs.pcEven, hs.spEven, hs.srReserved, h.1, h.2.1, h.2.2⟩

theorem State.noteRead_inv {s : State} (bw : Width) (loc : Loc) (hs : s.Inv) : (s.noteRead bw loc).Inv := by
  cases loc <;> first | exact State.noteLoad_inv bw _ hs | exact hs

/-- A timer write makes no captured value unread. -/
theorem TimerState.write_unread {t t' : TimerState} {r : TimerReg} {v : Word} (h : t.write r v = some t')
    (hu : ∀ b ∈ t.blocks, b.unread = false) : ∀ b ∈ t'.blocks, b.unread = false := by
  cases r with
  | tactl =>
    simp only [TimerState.write, Option.some.injEq] at h
    subst h
    unfold TimerState.writeTactl
    split <;> simpa using hu
  | tar =>
    simp only [TimerState.write, Option.some.injEq] at h
    subst h
    exact hu
  | tacctl x =>
    simp only [TimerState.write, Option.map_eq_some_iff] at h
    obtain ⟨b, hb, rfl⟩ := h
    intro c hc
    rcases List.mem_or_eq_of_mem_set hc with hc | rfl
    · exact hu c hc
    · have := hu b (List.mem_of_getElem? hb)
      unfold CcBlock.writeCtl
      simp only
      split <;> exact this
  | taccr x =>
    simp only [TimerState.write, Option.map_eq_some_iff] at h
    obtain ⟨b, hb, rfl⟩ := h
    intro c hc
    rcases List.mem_or_eq_of_mem_set hc with hc | rfl
    · exact hu c hc
    · exact hu b (List.mem_of_getElem? hb)

/-- What a store keeps: every field but memory, the ports and the timer. -/
theorem State.store_frame {s t : State} {bw : Width} {a : Word} {v : BitVec bw.bits} (h : s.store bw a v = .ok t) :
    Framed s t (fun _ => False) 0xFFFF (some (bw, a)) ∧ t.pc = s.pc ∧ t.sp = s.sp ∧ t.sr = s.sr ∧ t.gpr = s.gpr ∧
      t.draws = s.draws := by
  cases bw with
  | byte =>
    rcases State.writeByte_ok h with ⟨x, r, hk, rfl⟩ | ⟨hk, rfl⟩
    · refine ⟨⟨?_, by simp, by simp, ?_, by simp, by simp, by simp, by simp, by simp, by simp⟩, by simp⟩
      · intro q _ _ _; cases q <;> simp [State.readReg]
      · intro y hy
        have hne : y ≠ x := fun e => hy .byte a r rfl (e ▸ hk)
        exact State.setPort_port_ne s x y _ hne
    · refine ⟨⟨?_, by simp, ?_, by simp, by simp, by simp, by simp, by simp, by simp, by simp⟩, by simp⟩
      · intro q _ _ _; cases q <;> simp [State.readReg]
      · intro n hn
        have := hn .byte a rfl
        simp only [cellsOf, List.mem_singleton] at this
        simp [Memory.read_write, this]
  | word =>
    rcases State.writeWord_ok h with ⟨r, tm, hk, ht, rfl⟩ | ⟨h0, h1, rfl⟩
    · refine ⟨⟨?_, by simp, by simp, by simp, ?_, fun h => TimerState.write_unread ht h, by simp, by simp, by simp, by simp⟩, by simp⟩
      · intro q _ _ _; cases q <;> simp [State.readReg]
      · intro hy
        exact absurd hk (hy .word a r rfl)
    · refine ⟨⟨?_, by simp, ?_, by simp, by simp, by simp, by simp, by simp, by simp, by simp⟩, by simp⟩
      · intro q _ _ _; cases q <;> simp [State.readReg]
      · intro n hn
        have := hn .word a rfl
        simp only [cellsOf, List.mem_cons, List.not_mem_nil, or_false, not_or] at this
        simp only [State.setMem_mem]
        rw [Memory.read_write_other _ _ _ _ this.2, Memory.read_write_other _ _ _ _ this.1]

/-- A store keeps the invariant. -/
theorem State.store_inv {s t : State} {bw : Width} {a : Word} {v : BitVec bw.bits} (h : s.store bw a v = .ok t)
    (hs : s.Inv) : t.Inv := by
  cases bw with
  | byte =>
    rcases State.writeByte_ok h with ⟨x, r, -, rfl⟩ | ⟨-, rfl⟩
    · exact ⟨by simpa using hs.memWf, by simpa using hs.pcEven, by simpa using hs.spEven, by simpa using hs.srReserved,
        by simpa using hs.taclrZero, by simpa using hs.ctlReadOnly, by simpa using hs.blockCount⟩
    · exact ⟨Memory.wf_write hs.memWf a.isLt, hs.pcEven, hs.spEven, hs.srReserved, hs.taclrZero, hs.ctlReadOnly,
        hs.blockCount⟩
  | word =>
    rcases State.writeWord_ok h with ⟨r, tm, -, ht, rfl⟩ | ⟨-, -, rfl⟩
    · obtain ⟨h1, h2, h3⟩ := TimerState.write_ok ht
      exact ⟨hs.memWf, hs.pcEven, hs.spEven, hs.srReserved, h2 hs.taclrZero, h3 hs.ctlReadOnly,
        by simpa [h1] using hs.blockCount⟩
    · exact ⟨Memory.wf_write (Memory.wf_write hs.memWf (evenWord a).isLt) (evenWord a + 1).isLt, hs.pcEven, hs.spEven,
        hs.srReserved, hs.taclrZero, hs.ctlReadOnly, hs.blockCount⟩

/-- A register write keeps the invariant. -/
theorem State.writeReg_inv {s : State} (r : Reg) (v : Word) (hs : s.Inv) : (s.writeReg r v).Inv := by
  obtain ⟨h1, h2, h3, h4, h5, h6, h7⟩ := hs
  cases r <;> refine ⟨h1, ?_, ?_, ?_, h5, h6, h7⟩ <;> simp_all [State.writeReg]

/-- A push: SP is 2 less, and the value is stored there. -/
theorem State.push_frame {s t : State} {bw : Width} {v : BitVec bw.bits} (h : s.push bw v = .ok t) :
    Framed s t (· = .sp) 0xFFFF (some (bw, evenWord (s.sp - 2))) ∧ t.pc = s.pc ∧ t.sp = evenWord (s.sp - 2) ∧
      t.sr = s.sr ∧ t.gpr = s.gpr ∧ t.draws = s.draws := by
  obtain ⟨hf, h1, h2, h3, h4, h5⟩ := State.store_frame h
  refine ⟨⟨fun r hp hs hn => ?_, by simpa using hf.sr, fun n hn => by simpa using hf.mem n hn,
    fun x hx => by simpa using hf.ports x fun bw a r h => hx bw a r h,
    fun hx => by simpa using hf.timer fun bw a r h => hx bw a r h, hf.unread,
    by simpa using hf.nmi, by simpa using hf.gieRose, by simpa using hf.agenda, by simpa using hf.platform⟩,
    by simpa using h1, by simpa using h2, by simpa using h3, by simpa using h4, by simpa using h5⟩
  have := hf.regs r hp hs id
  cases r <;> simp_all [State.readReg]

theorem State.push_inv {s t : State} {bw : Width} {v : BitVec bw.bits} (h : s.push bw v = .ok t) (hs : s.Inv) :
    t.Inv := State.store_inv h (State.writeReg_inv .sp _ hs)

/-- A pop: the word at SP, and SP 2 more. -/
theorem State.pop_ok {s t : State} {v : Word} (h : s.pop = .ok (v, t)) :
    s.readWord s.sp = .ok v ∧ t = (s.noteLoad .word s.sp).setSp (s.sp + 2) := by
  unfold State.pop at h
  split at h
  · cases h
  · rename_i w hw
    simp only [Except.ok.injEq, Prod.mk.injEq] at h
    exact ⟨h.1 ▸ hw, h.2.symm⟩

/-! Interrupts and reset. -/

/-- When a vector is pending (60_exceptions.md R302, R306). -/
theorem State.vectorPending_iff (s : State) (g : Bool) (v : VectorEntry) : s.vectorPending g v = true ↔
    ∃ i ∈ v.sources, s.irqFlag i = true ∧ s.irqEnable i = true ∧ (g = true ∨ ∃ k, i = .nmi k) := by
  have hn : ∀ i, irqNonmaskable i = true ↔ ∃ k, i = .nmi k := by intro i; cases i <;> simp [irqNonmaskable]
  simp only [State.vectorPending, List.any_eq_true, State.requesting, Bool.and_eq_true, Bool.or_eq_true, and_assoc, hn]

/-- The selection looks at the flags and enables only. -/
theorem State.selectVector_congr {s t : State} (hf : t.irqFlag = s.irqFlag) (he : t.irqEnable = s.irqEnable) (g : Bool)
    (l : List VectorEntry) : t.selectVector g l = s.selectVector g l := by
  induction l with
  | nil => rfl
  | cons v l ih =>
    have : t.vectorPending g v = s.vectorPending g v := by simp only [State.vectorPending, State.requesting, hf, he]
    unfold State.selectVector; rw [ih, this]

/-- An interrupt entry, taken apart (60_exceptions.md R310). -/
theorem State.takeInterrupt_ok {s t : State} {v : VectorEntry} (h : s.takeInterrupt v = .ok t) :
    ∃ s1 s2 u target, s.settlePins.push .word s.pc = .ok s1 ∧ s1.push .word s.sr = .ok s2 ∧ u = s2.entryVector v ∧
      ((s2.clearSingleSource u).setSr 0).readWord u.address = .ok target ∧
      t = (((s2.clearSingleSource u).setSr 0).setPc target).setGieRose false := by
  unfold State.takeInterrupt at h
  split at h
  · cases h
  · rename_i s1 h1
    split at h
    · cases h
    · rename_i s2 h2
      simp only at h
      split at h
      · cases h
      · rename_i target h3
        exact ⟨s1, s2, _, target, h1, h2, rfl, h3, by simpa using h.symm⟩

/-- A word read does not depend on what an earlier read left behind, nor on SP and SR. -/
theorem State.readWord_afterPop (s : State) (a b sp : Word) (sr : Word) :
    (((s.noteLoad .word a).setSp sp).setSr sr).readWord b = s.readWord b :=
  State.readWord_congr b (by simp) (by simpa using s.noteLoad_allRead .word a) (by simp)

/-- The state two pops leave, the first word gone to SR (41_single_operand.md R167). -/
def State.afterPops (s : State) (sr : Word) : State :=
  (((((s.noteLoad .word s.sp).setSp (s.sp + 2)).setSr sr).noteLoad .word (evenWord (s.sp + 2))).setSp
    (evenWord (s.sp + 2) + 2))

/-- A return from interrupt, taken apart (41_single_operand.md R167). -/
theorem State.returnFromInterrupt_ok {s t : State} (h : s.returnFromInterrupt = .ok t) :
    ∃ sr pc, s.readWord s.sp = .ok sr ∧ s.readWord (evenWord (s.sp + 2)) = .ok pc ∧ t = (s.afterPops sr).setPc pc := by
  unfold State.returnFromInterrupt at h
  split at h
  · cases h
  · rename_i sr s1 h1
    obtain ⟨h1', rfl⟩ := State.pop_ok h1
    split at h
    · cases h
    · rename_i pc s2 h2
      obtain ⟨h2', rfl⟩ := State.pop_ok h2
      refine ⟨sr, pc, h1', ?_, (Except.ok.inj h).symm⟩
      rw [← s.readWord_afterPop s.sp (evenWord (s.sp + 2)) (s.sp + 2) sr]
      exact h2'

theorem resetMemory_wf {map : List Region} {d : Nat} {m : List Host.Cell} (h : Memory.wf m) :
    Memory.wf (resetMemory map d m) := by
  have hf : ∀ c : Host.Cell, (if kindIn map c.1 = .ram then (c.1, Config.freeByte d c.1) else c).1 = c.1 := by
    intro c; split <;> rfl
  refine ⟨List.pairwise_map.mpr (h.1.imp (fun {c d} hcd => by simpa [hf] using hcd)), fun c hc => ?_⟩
  obtain ⟨e, he, rfl⟩ := List.mem_map.mp hc
  simpa [hf] using h.2 e he

/-- What a reset event leaves (70_reset_and_hazards.md R401, R402); SP, R4 to R15 and RAM are free values. -/
theorem State.resetEvent_ok {s t : State} (h : s.resetEvent = .ok t) :
    t.sr = 0 ∧ t.sp[0] = false ∧ t.p1 = s.p1.puc ∧ t.p2 = s.p2.puc ∧ t.timer = s.timer.puc ∧ t.nmi = [] ∧
      t.gieRose = false ∧ t.agenda = s.agenda ∧ t.platform = s.platform ∧
      t.mem = resetMemory s.platform.memMap s.draws s.mem ∧
      ∃ v, t.readWord s.platform.resetVector = .ok v ∧ t.pc = evenWord v := by
  unfold State.resetEvent at h
  simp only at h
  split at h
  · cases h
  · rename_i v hv
    simp only [Except.ok.injEq] at h
    subst h
    refine ⟨by simp, by simp, by simp, by simp, by simp, by simp, by simp, by simp, by simp, by simp, v, ?_, rfl⟩
    exact hv

/-- Clearing a flag changes a port's flags, the timer or the nonmaskable requests, and nothing else. -/
theorem State.clearIrqFlag_kept (s : State) (i : IrqSource) :
    (s.clearIrqFlag i).pc = s.pc ∧ (s.clearIrqFlag i).sp = s.sp ∧ (s.clearIrqFlag i).sr = s.sr ∧
      (s.clearIrqFlag i).gpr = s.gpr ∧ (s.clearIrqFlag i).mem = s.mem ∧ (s.clearIrqFlag i).draws = s.draws ∧
      (s.clearIrqFlag i).gieRose = s.gieRose ∧ (s.clearIrqFlag i).agenda = s.agenda ∧
      (s.clearIrqFlag i).platform = s.platform := by
  cases i <;> simp [State.clearIrqFlag]

theorem State.clearIrqFlag_inv {s : State} (i : IrqSource) (hs : s.Inv) : (s.clearIrqFlag i).Inv := by
  obtain ⟨h1, h2, h3, h4, h5, h6, h7⟩ := hs
  cases i with
  | taifg =>
    refine ⟨h1, h2, h3, h4, ?_, h6, h7⟩
    simp [State.clearIrqFlag, h5]
  | ccifg x =>
    refine ⟨h1, h2, h3, h4, h5, ?_, by simpa [State.clearIrqFlag, TimerState.mapBlock] using h7⟩
    intro b hb
    simp only [State.clearIrqFlag, TimerState.mapBlock, State.setTimer_timer] at hb
    obtain ⟨k, hk, rfl⟩ := List.getElem_of_mem hb
    rw [List.getElem_modify]
    have hk' := h6 _ (List.getElem_mem (by simpa using hk : k < s.timer.blocks.length))
    split
    · simp only
      rw [BitVec.and_assoc, BitVec.and_comm (0xFFFE : Word), ← BitVec.and_assoc, hk']
      simp
    · exact hk'
  | port x k => exact ⟨by simpa [State.clearIrqFlag] using h1, by simpa [State.clearIrqFlag] using h2,
      by simpa [State.clearIrqFlag] using h3, by simpa [State.clearIrqFlag] using h4, by simpa [State.clearIrqFlag] using h5,
      by simpa [State.clearIrqFlag] using h6, by simpa [State.clearIrqFlag] using h7⟩
  | nmi k => exact ⟨h1, h2, h3, h4, h5, h6, h7⟩

theorem State.clearSingleSource_inv {s : State} (v : VectorEntry) (hs : s.Inv) : (s.clearSingleSource v).Inv := by
  unfold State.clearSingleSource
  split
  · exact State.clearIrqFlag_inv _ hs
  · exact hs

theorem State.clearSingleSource_kept (s : State) (v : VectorEntry) :
    (s.clearSingleSource v).pc = s.pc ∧ (s.clearSingleSource v).sp = s.sp ∧ (s.clearSingleSource v).sr = s.sr ∧
      (s.clearSingleSource v).gpr = s.gpr ∧ (s.clearSingleSource v).mem = s.mem ∧
      (s.clearSingleSource v).draws = s.draws ∧ (s.clearSingleSource v).gieRose = s.gieRose ∧
      (s.clearSingleSource v).agenda = s.agenda ∧ (s.clearSingleSource v).platform = s.platform := by
  unfold State.clearSingleSource
  split
  · exact State.clearIrqFlag_kept s _
  · simp

end Sys2Proof.Machine
end

