-- ==== Sys2Proof/Laws/Agents.lean ====
section
/-! SUPPORT. What the agents other than the CPU can do, said once (60_exceptions.md R363, R371, R377). -/

namespace Sys2Proof.Machine

/-- The pins of another function are those that are no digital I/O pins (60_exceptions.md R359). -/
theorem PortState.modulePins_getLsbD (p : PortState) (k : Fin 8) : p.modulePins.getLsbD k = !p.isIo k := by
  simp [PortState.modulePins, PortState.isIo]

/-- One bit of a word after `setBit`. -/
theorem setBit_getLsbD {w : Nat} (v : BitVec w) (k j : Nat) (b : Bool) (hj : j < w) :
    (setBit v k b).getLsbD j = if j = k then b else v.getLsbD j := by
  by_cases h : j = k
  · subst h; cases b <;> simp [setBit, hj]
  · cases b <;> simp [setBit, hj, h]

/-- What a write to TACCTLx stores (60_exceptions.md R375). -/
theorem CcBlock.writeCtl_stores (b : CcBlock) (v : Word) : (b.writeCtl v).ctl = v &&& 0xF9F7 ∧ (b.writeCtl v).scci = b.scci ∧
    (b.writeCtl v).ccr = b.ccr ∧ (b.writeCtl v).inA = b.inA ∧ (b.writeCtl v).inB = b.inB := by
  unfold CcBlock.writeCtl; simp only; split <;> exact ⟨rfl, rfl, rfl, rfl, rfl⟩

/-- A waiting capture made at a count (60_exceptions.md R375, R377; log 36). -/
theorem CcBlock.synchronised_eq (b : CcBlock) (old tar : Word) (d : Nat) :
    (b.synchronised old tar d).1 = b ∨ ∃ v, (v = old ∨ v = tar) ∧ (b.synchronised old tar d).1 = b.capture v := by
  unfold CcBlock.synchronised
  split
  · cases Config.freeBit d
    · exact .inr ⟨tar, .inr rfl, rfl⟩
    · exact .inr ⟨old, .inl rfl, rfl⟩
  · exact .inl rfl

/-- What a count does to a compare block but for OUTx (60_exceptions.md R375, R377). -/
theorem CcBlock.counted_compare (b : CcBlock) (old tar tar0 : Word) (d : Nat) (hc : b.cap = false) :
    (b.counted old tar tar0 d).1.ccifg = (b.ccifg || tar == b.ccr) ∧
      (b.counted old tar tar0 d).1.scci = (if tar = b.ccr then b.cci else b.scci) ∧
      (b.counted old tar tar0 d).1.ccr = b.ccr ∧ (b.counted old tar tar0 d).1.waiting = false := by
  unfold CcBlock.counted
  by_cases h : tar = b.ccr <;> by_cases h0 : tar = tar0 <;> simp [h, h0, hc, CcBlock.ccifg] <;> (try split) <;> simp_all

/-- What a count does to a capture block (60_exceptions.md R375; log 36): SCCI latches on EQUx, and a waiting capture is made. -/
theorem CcBlock.counted_captureMode (b : CcBlock) (old tar tar0 : Word) (d : Nat) (hc : b.cap = true) :
    (b.counted old tar tar0 d).1 =
      (({ b with scci := if tar = b.ccr then b.cci else b.scci } : CcBlock).synchronised old tar d).1 := by
  unfold CcBlock.counted
  by_cases h : tar = b.ccr <;> simp [h, hc]

/-- Block `x` after a count is block `x` before it, counted. -/
theorem countedBlocks_getElem (old tar tar0 : Word) (l : List CcBlock) (d x : Nat) (b : CcBlock) (h : l[x]? = some b) :
    ∃ d', (countedBlocks old tar tar0 l d).1[x]? = some (b.counted old tar tar0 d').1 := by
  induction l generalizing d x with
  | nil => simp at h
  | cons y l ih =>
    cases x with
    | zero => obtain rfl : y = b := by simpa using h
              exact ⟨d, rfl⟩
    | succ x => exact ih _ x (by simpa using h)

/-- A count changes a block's control word by setting CCIFG, or CCIFG and COV, at most, and keeps its input signals. -/
theorem CcBlock.counted_kept (b : CcBlock) (old tar tar0 : Word) (d : Nat) :
    (∃ m : Word, (m = 0 ∨ m = 1 ∨ m = 3) ∧ (b.counted old tar tar0 d).1.ctl = b.ctl ||| m) ∧
      (b.counted old tar tar0 d).1.inA = b.inA ∧ (b.counted old tar tar0 d).1.inB = b.inB := by
  cases hc : b.cap with
  | true =>
    rw [b.counted_captureMode old tar tar0 d hc]
    rcases CcBlock.synchronised_eq { b with scci := if tar = b.ccr then b.cci else b.scci } old tar d with h | ⟨v, -, h⟩ <;>
      rw [h]
    · exact ⟨⟨0, .inl rfl, by simp⟩, rfl, rfl⟩
    · refine ⟨⟨if b.unread then 3 else 1, ?_, rfl⟩, rfl, rfl⟩
      cases b.unread <;> simp
  | false =>
    unfold CcBlock.counted
    simp only [hc, Bool.false_eq_true, ↓reduceIte]
    split_ifs <;> first | exact ⟨⟨1, .inr (.inl rfl), rfl⟩, rfl, rfl⟩ | exact ⟨⟨0, .inl rfl, by simp⟩, rfl, rfl⟩

theorem countedBlocks_length (old tar tar0 : Word) (l : List CcBlock) (d : Nat) :
    (countedBlocks old tar tar0 l d).1.length = l.length := by
  induction l generalizing d with
  | nil => rfl
  | cons b rest ih => simp [countedBlocks, ih]

/-- Each block of a count comes from the block at its place. -/
theorem countedBlocks_get (old tar tar0 : Word) (l : List CcBlock) (d x : Nat) (b' : CcBlock)
    (h : (countedBlocks old tar tar0 l d).1[x]? = some b') :
    ∃ b d', l[x]? = some b ∧ b' = (b.counted old tar tar0 d').1 := by
  induction l generalizing d x with
  | nil => simp [countedBlocks] at h
  | cons b rest ih =>
    cases x with
    | zero => exact ⟨b, d, rfl, by simpa [countedBlocks] using h.symm⟩
    | succ x => exact ih _ x (by simpa [countedBlocks] using h)

theorem CcBlock.or_flags_kept {v m : Word} (hm : m = 0 ∨ m = 1 ∨ m = 3) (h : v &&& 0x0608#16 = 0#16) :
    (v ||| m) &&& 0x0608#16 = 0#16 := by
  rw [BitVec.and_or_distrib_right, h]; rcases hm with rfl | rfl | rfl <;> rfl

theorem TimerState.count_ok {t : TimerState} {n : Nat} (d : Nat) (h : t.ok n) : (t.count d).1.ok n := by
  unfold TimerState.count
  split
  · exact h
  · refine ⟨?_, fun b' hb => ?_, by simpa [countedBlocks_length] using h.2.2⟩
    · have := h.1
      simp only
      split <;> simp_all
    · obtain ⟨x, hx⟩ := List.getElem?_of_mem hb
      obtain ⟨b, d', hb', rfl⟩ := countedBlocks_get _ _ _ _ _ _ _ hx
      have hk := h.2.1 b (List.mem_of_getElem? hb')
      obtain ⟨m, hm, e⟩ := (b.counted_kept t.tar t.nextTar.1 t.ccr0 d').1
      rw [e]
      exact CcBlock.or_flags_kept hm hk

theorem TimerState.clock_ok {t : TimerState} {n : Nat} (d : Nat) (h : t.ok n) : (t.clock d).1.ok n := by
  unfold TimerState.clock
  split
  · exact h
  · split
    · exact TimerState.count_ok (t := { t with divider := 0 }) d h
    · exact h

theorem CcBlock.capture_kept (b : CcBlock) (tar : Word) (h : b.ctl &&& 0x0608#16 = 0#16) :
    (b.capture tar).ctl &&& 0x0608#16 = 0#16 :=
  CcBlock.or_flags_kept (by cases b.unread <;> simp) h

theorem CcBlock.inputChange_kept (b : CcBlock) (tar : Word) (running second new : Bool)
    (h : b.ctl &&& 0x0608#16 = 0#16) : (b.inputChange tar running second new).ctl &&& 0x0608#16 = 0#16 := by
  unfold CcBlock.inputChange
  simp only
  split
  · split
    · simpa using h
    · exact CcBlock.capture_kept _ _ (by simpa using h)
  · simpa using h

theorem setBit_one_kept {v : Word} (b : Bool) (h : v &&& 0x0608#16 = 0#16) :
    setBit v 1 b &&& 0x0608#16 = 0#16 := by
  unfold setBit
  split
  · rw [BitVec.and_or_distrib_right, h]; rfl
  · rw [BitVec.and_assoc, BitVec.and_comm _ (0x0608#16), ← BitVec.and_assoc, h]; simp

theorem TimerState.puc_ok {t : TimerState} {n : Nat} (h : t.ok n) : t.puc.ok n := by
  refine ⟨by simp [TimerState.puc], fun b hb => ?_, by simpa [TimerState.puc] using h.2.2⟩
  obtain ⟨c, -, rfl⟩ := List.mem_map.mp hb
  simp [CcBlock.puc]

theorem State.setPort_inv {s : State} (x : PortId) (p : PortState) (hs : s.Inv) : (s.setPort x p).Inv := by
  cases x <;> exact ⟨hs.memWf, hs.pcEven, hs.spEven, hs.srReserved, hs.taclrZero, hs.ctlReadOnly, hs.blockCount⟩

theorem State.resetEvent_inv {s t : State} (h : s.resetEvent = .ok t) (hs : s.Inv) : t.Inv := by
  obtain ⟨h1, h2, -, -, h5, -, -, -, h9, h10, v, -, h11⟩ := State.resetEvent_ok h
  have ht := TimerState.puc_ok hs.timerOk
  exact ⟨h10 ▸ resetMemory_wf hs.memWf, by simp [h11], h2, by simp [h1], h5 ▸ ht.1, h5 ▸ ht.2.1, by rw [h5, h9]; exact ht.2.2⟩

/-- An agent's action keeps the invariant. -/
theorem envStep_inv {a : EnvAction} {s t : State} (h : envStep a s = .ok t) (hs : s.Inv) : t.Inv := by
  have hset : ∀ t, t.ok s.platform.ccrCount → (s.setTimer t).Inv := fun t ht => State.setTimer_inv hs ht
  have hchange : ∀ f : TimerState → TimerState, (s.timer.ok s.platform.ccrCount → (f s.timer).ok s.platform.ccrCount) →
      (s.timerChange f).Inv := fun f hf => by
    unfold State.timerChange; split
    · exact hs
    · exact hset _ (hf hs.timerOk)
  cases a with
  | reset => exact State.resetEvent_inv h hs
  | pinChange x k new => cases h; exact State.setPort_inv _ _ hs
  | maySetFlag x k => cases h; exact State.setPort_inv _ _ hs
  | timerCount =>
    cases h; unfold State.timerTick; split
    · exact hs
    · exact { State.setTimer_inv hs (TimerState.count_ok s.draws hs.timerOk) with }
  | timerClock =>
    cases h; unfold State.timerTick; split
    · exact hs
    · exact { State.setTimer_inv hs (TimerState.clock_ok s.draws hs.timerOk) with }
  | timerSetTaifg =>
    cases h; exact hchange _ fun ht => ⟨by have := ht.1; simp_all, ht.2⟩
  | timerSetCcifg x => cases h; exact hchange _ fun ht => TimerState.mapBlock_ok x _ ht fun b hb => CcBlock.or_flags_kept (.inr (.inl rfl)) hb
  | timerSetTar v => cases h; exact hchange _ fun ht => ht
  | timerSetCov x b => cases h; exact hchange _ fun ht => TimerState.mapBlock_ok x _ ht fun c hc => setBit_one_kept b hc
  | timerSetScci x b => cases h; exact hchange _ fun ht => TimerState.mapBlock_ok x _ ht fun c hc => hc
  | timerSetOut x b => cases h; exact hchange _ fun ht => TimerState.mapBlock_ok x _ ht fun c hc => hc
  | timerSetCci x second new =>
    cases h; exact hchange _ fun ht => TimerState.mapBlock_ok x _ ht fun c hc => by simpa using hc
  | captureInput x second new =>
    cases h
    exact hset _ (TimerState.mapBlock_ok x _ hs.timerOk fun b hb => CcBlock.inputChange_kept b _ _ _ _ hb)
  | nmiRequest k =>
    cases h; unfold State.requestNmi; split
    · exact { hs with }
    · exact hs
  | nmiWithdraw k => cases h; exact { hs with }

end Sys2Proof.Machine
end

