-- ==== Sys2Proof/Laws/Operands.lean ====
section
/-! SUPPORT. What evaluating an operand, writing a result and each shared frame of Machine/Operands.lean can do, said once. -/

namespace Sys2Proof.Machine

/-! Frames compose. -/

theorem Framed.refl (s : State) (changed : Reg → Prop) (kept : Word) (store : Option (Width × Word)) :
    Framed s s changed kept store :=
  ⟨fun _ _ _ _ => rfl, rfl, fun _ _ => rfl, fun _ _ => rfl, fun _ => rfl, id, rfl, rfl, rfl, rfl⟩

/-- Two parts that keep the same bits of SR, the first of them storing nothing. -/
theorem Framed.trans {s u t : State} {c d : Reg → Prop} {kept : Word} {store : Option (Width × Word)}
    (h1 : Framed s u c kept none) (h2 : Framed u t d kept store) : Framed s t (fun r => c r ∨ d r) kept store := by
  have hk : ∀ a, u.kindAt a = s.kindAt a := fun a => by simp [State.kindAt, h1.platform]
  have none1 : ∀ {p : Width → Word → Prop}, (∀ bw a, (none : Option (Width × Word)) = some (bw, a) → p bw a) :=
    fun _ _ h => absurd h (by simp)
  exact
    { regs := fun r hp hs hc => (h2.regs r hp hs fun h => hc (.inr h)).trans (h1.regs r hp hs fun h => hc (.inl h))
      sr := h2.sr.trans h1.sr
      mem := fun n hn => (h2.mem n hn).trans (h1.mem n none1)
      ports := fun x hx => (h2.ports x fun bw a r h => by rw [hk]; exact hx bw a r h).trans
        (h1.ports x fun _ _ _ h => absurd h (by simp))
      timer := fun hx => (h2.timer fun bw a r h => by rw [hk]; exact hx bw a r h).trans
        (h1.timer fun _ _ _ h => absurd h (by simp))
      unread := fun h => h2.unread (h1.unread h)
      nmi := h2.nmi.trans h1.nmi
      gieRose := h2.gieRose.trans h1.gieRose
      agenda := h2.agenda.trans h1.agenda
      platform := h2.platform.trans h1.platform }

/-- A frame may name more registers and keep fewer bits of SR. -/
theorem Framed.mono {s t : State} {c d : Reg → Prop} {kept kept' : Word} {store : Option (Width × Word)}
    (h : Framed s t c kept store) (hc : ∀ r, c r → d r) (hk : kept &&& kept' = kept') : Framed s t d kept' store :=
  { regs := fun r hp hs hn => h.regs r hp hs fun hr => hn (hc r hr)
    sr := by rw [← hk, ← BitVec.and_assoc, ← BitVec.and_assoc, h.sr]
    mem := h.mem, ports := h.ports, timer := h.timer, unread := h.unread, nmi := h.nmi, gieRose := h.gieRose, agenda := h.agenda
    platform := h.platform }

/-- A register write changes that register alone (PC and SR are not under `regs`). -/
theorem State.writeReg_frame (s : State) (r : Reg) (v : Word) (h : r ≠ .sr) :
    Framed s (s.writeReg r v) (· = r) 0xFFFF none where
  regs q _ _ hq := State.readReg_writeReg_other s r q v hq
  sr := by cases r <;> first | rfl | exact absurd rfl h
  mem _ _ := by simp
  ports _ _ := by simp
  timer _ := by simp
  unread h := by simpa using h
  nmi := by simp
  gieRose := by simp
  agenda := by simp
  platform := by simp

/-- Taking an index word moves PC and nothing else. -/
theorem State.skipWord_frame (s : State) : Framed s s.skipWord (fun _ => False) 0xFFFF none :=
  (State.writeReg_frame s .pc (s.pc + 2) (by simp)).mono (d := fun r => r = .pc) (fun _ h => h) rfl |> fun h =>
    { h with regs := fun q hp hs _ => h.regs q hp hs hp }

/-- Evaluating a source operand: only PC, or the autoincremented register, changes (40_operands.md R132, R136). -/
theorem srcLoc_frame (bw : Width) (src : Src) (s : State) (h : src.wellFormed = true) :
    Framed s (srcLoc bw src s).2 (fun r => src = .autoinc r) 0xFFFF none ∧ (srcLoc bw src s).2.sr = s.sr ∧
      (srcLoc bw src s).2.draws = s.draws := by
  have hskip : Framed s s.skipWord (fun r => src = .autoinc r) 0xFFFF none :=
    (State.skipWord_frame s).mono (fun _ h => h.elim) rfl
  cases src with
  | reg r => exact ⟨Framed.refl s _ _ _, rfl, rfl⟩
  | indexed r x => exact ⟨hskip, rfl, rfl⟩
  | symbolic x => exact ⟨hskip, rfl, rfl⟩
  | absolute x => exact ⟨hskip, rfl, rfl⟩
  | indirect r => exact ⟨Framed.refl s _ _ _, rfl, rfl⟩
  | autoinc r =>
    have hr : r ≠ .sr := by rintro rfl; simp [Src.wellFormed] at h
    refine ⟨(State.writeReg_frame s r _ hr).mono (fun q hq => by rw [hq]) rfl, ?_, by simp [srcLoc]⟩
    cases r <;> first | rfl | exact absurd rfl hr
  | imm v => exact ⟨hskip, rfl, rfl⟩
  | const c => exact ⟨Framed.refl s _ _ _, rfl, rfl⟩

/-- Locating a destination moves PC past its index word at most (40_operands.md R133). -/
theorem dstLoc_frame (dst : Dst) (s : State) :
    Framed s (dstLoc dst s).2 (fun _ => False) 0xFFFF none ∧ (dstLoc dst s).2.sr = s.sr ∧
      (dstLoc dst s).2.draws = s.draws := by
  cases dst with
  | reg r => cases r <;> exact ⟨Framed.refl s _ _ _, rfl, rfl⟩
  | indexed r x => exact ⟨State.skipWord_frame s, rfl, rfl⟩
  | symbolic x => exact ⟨State.skipWord_frame s, rfl, rfl⟩
  | absolute x => exact ⟨State.skipWord_frame s, rfl, rfl⟩

/-- Evaluating a source operand changes PC, the autoincremented register, what is read of TACCRx, and the draws at most. -/
theorem srcState_frame (bw : Width) (src : Src) (s : State) (h : src.wellFormed = true) :
    Framed s (srcState bw src s) (fun r => src = .autoinc r) 0xFFFF none ∧ (srcState bw src s).sr = s.sr := by
  obtain ⟨hf, hsr, -⟩ := srcLoc_frame bw src s h
  exact ⟨(hf.trans (State.noteRead_frame _ bw _)).mono (fun _ h => h.elim id False.elim) rfl, by simpa [srcState] using hsr⟩

theorem srcLoc_inv {s : State} (bw : Width) (src : Src) (hs : s.Inv) : (srcLoc bw src s).2.Inv := by
  cases src <;> first | exact hs | exact State.writeReg_inv _ _ hs | exact State.writeReg_inv .pc _ hs

theorem dstLoc_inv {s : State} (dst : Dst) (hs : s.Inv) : (dstLoc dst s).2.Inv := by
  cases dst with
  | reg r => cases r <;> exact hs
  | indexed r x => exact State.writeReg_inv .pc _ hs
  | symbolic x => exact State.writeReg_inv .pc _ hs
  | absolute x => exact State.writeReg_inv .pc _ hs

theorem srcState_inv {s : State} (bw : Width) (src : Src) (hs : s.Inv) : (srcState bw src s).Inv :=
  State.noteRead_inv bw _ (srcLoc_inv bw src hs)

/-- Where a destination lies depends on the registers alone. -/
theorem dstLoc_congr {s t : State} (dst : Dst) (hr : ∀ r, t.readReg r = s.readReg r) : (dstLoc dst t).1 = (dstLoc dst s).1 := by
  cases dst with
  | reg r => cases r <;> rfl
  | indexed r x => simp [dstLoc, hr]
  | symbolic x => simpa [dstLoc, State.readReg] using hr .pc
  | absolute x => rfl

/-- What the read of the source leaves behind does not move the destination. -/
theorem dstAfterSrc_eq (bw : Width) (src : Src) (dst : Dst) (s : State) :
    dstAfterSrc bw src dst s = (dstLoc dst (srcLoc bw src s).2).1 :=
  dstLoc_congr dst fun r => by simp [srcState]

/-- What MOV can do to Timer_A before it writes: nothing, or TACCRx counts as read (43_two_operand.md R201). -/
theorem State.movTimer_cases (s : State) (bw : Width) (a : Word) :
    s.movTimer bw a = s.timer ∨ ∃ x, s.movTimer bw a = s.timer.captureRead x := by
  unfold State.movTimer
  split
  · split
    · exact .inr ⟨_, rfl⟩
    · exact .inl rfl
  · exact .inl rfl

theorem State.noteMov_timer (s : State) (bw : Width) (reads : Bool) (loc : Loc) :
    (s.noteMov bw reads loc).timer = s.timer ∨ ∃ x, (s.noteMov bw reads loc).timer = s.timer.captureRead x := by
  cases loc with
  | mem a => exact s.movTimer_cases bw a
  | _ => exact .inl rfl

/-- MOV's destination, read or not, changes what is read of TACCRx and the draws at most (43_two_operand.md R201). -/
theorem State.noteMov_frame (s : State) (bw : Width) (reads : Bool) (loc : Loc) :
    Framed s (s.noteMov bw reads loc) (fun _ => False) 0xFFFF none where
  regs r _ _ _ := by simp
  sr := by simp
  mem _ _ := by simp
  ports _ _ := by simp
  timer _ := by
    rcases s.noteMov_timer bw reads loc with e | ⟨x, e⟩ <;> rw [e]
    exact TimerState.captureRead_allRead _ _
  unread h := by
    rcases s.noteMov_timer bw reads loc with e | ⟨x, e⟩ <;> rw [e]
    · exact h
    · exact TimerState.captureRead_unread x h
  nmi := by simp
  gieRose := by simp
  agenda := by simp
  platform := by simp

/-- Reading a destination changes what is read of TACCRx and the draws at most. -/
theorem State.noteDst_frame (s : State) (bw : Width) (use : DstUse) (loc : Loc) :
    Framed s (s.noteDst bw use loc) (fun _ => False) 0xFFFF none := by
  cases use
  · exact s.noteMov_frame bw _ loc
  · exact s.noteRead_frame bw loc
  · exact s.noteRead_frame bw loc

theorem State.noteMov_inv {s : State} (bw : Width) (reads : Bool) (loc : Loc) (hs : s.Inv) : (s.noteMov bw reads loc).Inv := by
  have h : (s.noteMov bw reads loc).timer.ok s.platform.ccrCount := by
    rcases s.noteMov_timer bw reads loc with e | ⟨x, e⟩ <;> rw [e]
    · exact hs.timerOk
    · exact TimerState.mapBlock_ok x _ hs.timerOk fun _ hb => hb
  cases loc with
  | mem a => exact ⟨hs.memWf, hs.pcEven, hs.spEven, hs.srReserved, h.1, h.2.1, h.2.2⟩
  | _ => exact hs

theorem State.noteDst_inv {s : State} (bw : Width) (use : DstUse) (loc : Loc) (hs : s.Inv) : (s.noteDst bw use loc).Inv := by
  cases use
  · exact State.noteMov_inv bw _ loc hs
  · exact State.noteRead_inv bw loc hs
  · exact State.noteRead_inv bw loc hs

/-- Evaluating a source operand, taken apart. -/
theorem evalSrc_ok {bw : Width} {src : Src} {s s1 : State} {v : BitVec bw.bits} (h : evalSrc bw src s = .ok (v, s1)) :
    s1 = srcState bw src s ∧ readLoc bw (srcLoc bw src s).1 (srcLoc bw src s).2 = .ok v := by
  unfold evalSrc at h
  split at h
  · cases h
  · rename_i w hw
    simp only [Except.ok.injEq, Prod.mk.injEq] at h
    exact ⟨h.2.symm, h.1 ▸ hw⟩

/-- Writing a result: to a register, or to memory, or nowhere. -/
theorem writeLoc_ok {bw : Width} {loc : Loc} {res : BitVec bw.bits} {s t : State} (h : writeLoc bw loc res s = .ok t) :
    (∃ r, loc = .reg r ∧ t = s.writeReg r (res.setWidth 16)) ∨
    (∃ a, loc = .mem a ∧ s.store bw a res = .ok t) ∨ (loc = .discard ∧ t = s) := by
  cases loc with
  | reg r => exact .inl ⟨r, rfl, by simpa [writeLoc] using h.symm⟩
  | mem a => exact .inr (.inl ⟨a, rfl, h⟩)
  | const v => simp [writeLoc] at h
  | discard => exact .inr (.inr ⟨rfl, by simpa [writeLoc] using h.symm⟩)

theorem writeLoc_inv {bw : Width} {loc : Loc} {res : BitVec bw.bits} {s t : State} (h : writeLoc bw loc res s = .ok t)
    (hs : s.Inv) : t.Inv := by
  rcases writeLoc_ok h with ⟨r, -, rfl⟩ | ⟨a, -, ha⟩ | ⟨-, rfl⟩
  · exact State.writeReg_inv r _ hs
  · exact State.store_inv ha hs
  · exact hs

/-- A writable location takes the result, whatever flags and draws were written before. -/
theorem writeLoc_of_writable {bw : Width} {loc : Loc} {s : State} (res : BitVec bw.bits) (h : writableLoc bw loc s = true) :
    ∃ t, writeLoc bw loc res s = .ok t := by
  cases loc with
  | reg r => exact ⟨_, rfl⟩
  | const v => simp [writableLoc] at h
  | discard => exact ⟨_, rfl⟩
  | mem a =>
    cases bw with
    | byte =>
      simp only [writeLoc, State.store, State.writeByte]
      simp only [writableLoc] at h
      cases hk : s.kindAt a <;> simp_all
    | word =>
      simp only [writeLoc, State.store, State.writeWord]
      simp only [writableLoc] at h
      cases hk : s.kindAt (evenWord a) with
      | timer r =>
        simp only [hk] at h ⊢
        cases r with
        | tactl => exact ⟨_, rfl⟩
        | tar => exact ⟨_, rfl⟩
        | tacctl x =>
          cases hb : s.timer.blocks[x]? <;> simp_all [TimerState.read, TimerState.write]
        | taccr x =>
          cases hb : s.timer.blocks[x]? <;> simp_all [TimerState.read, TimerState.write]
      | ram => simp_all
      | rom => simp_all
      | port x r => simp_all
      | unimplemented => simp_all

theorem writableLoc_congr {bw : Width} {loc : Loc} {s t : State} (hp : t.platform = s.platform)
    (ht : t.timer.allRead = s.timer.allRead) : writableLoc bw loc t = writableLoc bw loc s := by
  cases loc <;> cases bw <;> simp [writableLoc, State.isRam, State.kindAt, hp, TimerState.read_congr ht]

/-- What writing a result keeps, SR not being the location. -/
theorem writeLoc_frame {bw : Width} {loc : Loc} {res : BitVec bw.bits} {s t : State} (h : writeLoc bw loc res s = .ok t)
    (hsr : loc ≠ .reg .sr) :
    Framed s t (fun r => loc = .reg r) 0xFFFF (storedAt bw loc) ∧ t.sr = s.sr ∧ t.draws = s.draws := by
  rcases writeLoc_ok h with ⟨r, rfl, rfl⟩ | ⟨a, rfl, ha⟩ | ⟨rfl, rfl⟩
  · have hr : r ≠ .sr := fun e => hsr (by rw [e])
    refine ⟨(State.writeReg_frame s r _ hr).mono (fun q hq => by rw [hq]) rfl, ?_, by simp⟩
    cases r <;> first | rfl | exact absurd rfl hr
  · obtain ⟨hf, -, -, h3, -, h5⟩ := State.store_frame ha
    exact ⟨hf.mono (fun _ h => h.elim) rfl, h3, h5⟩
  · exact ⟨Framed.refl t _ _ _, rfl, rfl⟩

/-- Writing flags keeps the invariant. -/
theorem State.setFlags_inv {s : State} (f : Option Flags) (hs : s.Inv) : (s.setFlags f).Inv := by
  cases f with
  | none => exact hs
  | some f =>
    refine ⟨hs.memWf, hs.pcEven, hs.spEven, ?_, hs.taclrZero, hs.ctlReadOnly, hs.blockCount⟩
    have h := congrArg (· &&& (0xFE00#16 : Word)) (Flags.into_kept f s.sr)
    simpa [notFlags, BitVec.and_assoc, hs.srReserved] using h

theorem State.setDraws_inv {s : State} (n : Nat) (hs : s.Inv) : (s.setDraws n).Inv :=
  ⟨hs.memWf, hs.pcEven, hs.spEven, hs.srReserved, hs.taclrZero, hs.ctlReadOnly, hs.blockCount⟩

theorem State.applyAlu_inv {s : State} {w : Nat} (r : Alu w) (hs : s.Inv) : (s.applyAlu r).Inv :=
  State.setDraws_inv _ (State.setFlags_inv _ hs)

/-- Applying an operation writes flags and counts draws. -/
theorem State.applyAlu_frame (s : State) {w : Nat} (r : Alu w) :
    Framed s (s.applyAlu r) (fun _ => False) notFlags none := by
  refine ⟨fun q _ _ _ => ?_, ?_, fun _ _ => by simp, fun _ _ => by simp, fun _ => by simp, fun h => by simpa using h,
    by simp, by simp, by simp, by simp⟩
  · cases q <;> simp_all [State.readReg]
  · cases hf : r.flags <;> simp [hf, Flags.into_kept]

/-- MOV writes its destination, whatever MOV_READS_DST says (43_two_operand.md R201). -/
@[simp] theorem State.movUse_ne_read (s : State) : s.movUse ≠ .read := by simp [State.movUse]

/-! The three shared frames, taken apart. -/

/-- A Format I instruction that completes (40_operands.md R137, 43_two_operand.md R200): `u` is the state in which the flags and
the result are written. -/
theorem twoOperand_ok {bw : Width} {src : Src} {dst : Dst} {use : DstUse} {flags : Bool}
    {f : BitVec bw.bits → BitVec bw.bits → Bool → Nat → Alu bw.bits} {s t : State}
    (h : twoOperand bw src dst use flags f s = .ok t) :
    twoOperandRefusal bw src dst use flags = none ∧
    ∃ sv dv u, evalSrc bw src s = .ok (sv, srcState bw src s) ∧
      readDst bw use (dstAfterSrc bw src dst s) (dstLocated bw src dst s) = .ok dv ∧
      u = (dstLocated bw src dst s).noteDst bw use (dstAfterSrc bw src dst s) ∧
      (if use = .read then .ok (u.applyAlu (f sv dv u.carry u.draws))
       else writeLoc bw (dstAfterSrc bw src dst s) (f sv dv u.carry u.draws).res (u.applyAlu (f sv dv u.carry u.draws))) =
        .ok t := by
  unfold twoOperand at h
  split at h
  · cases h
  · rename_i hr
    refine ⟨hr, ?_⟩
    split at h
    · cases h
    · rename_i sv s1 hs
      obtain ⟨rfl, -⟩ := evalSrc_ok hs
      simp only at h
      split at h
      · cases h
      · rename_i dv hd
        refine ⟨sv, dv, _, hs, hd, rfl, ?_⟩
        cases use <;> exact h

/-- When a Format I instruction completes, and with what (40_operands.md R137): its operands can be read. -/
theorem twoOperand_eq {bw : Width} {src : Src} {dst : Dst} {use : DstUse} {flags : Bool}
    (f : BitVec bw.bits → BitVec bw.bits → Bool → Nat → Alu bw.bits) {s u : State} {sv dv : BitVec bw.bits}
    (h : operandsReady bw src dst use flags s sv dv u) :
    twoOperand bw src dst use flags f s =
      if use = .read then .ok (u.applyAlu (f sv dv u.carry u.draws))
      else writeLoc bw (dstAfterSrc bw src dst s) (f sv dv u.carry u.draws).res (u.applyAlu (f sv dv u.carry u.draws)) := by
  obtain ⟨-, hr, hs, hd, rfl, -⟩ := h
  simp only [dstAfterSrc, dstLocated] at hd
  simp only [twoOperand, hr, hs, hd, dstAfterSrc, dstLocated]
  cases use <;> rfl

theorem twoOperand_inv {bw : Width} {src : Src} {dst : Dst} {use : DstUse} {flags : Bool}
    {f : BitVec bw.bits → BitVec bw.bits → Bool → Nat → Alu bw.bits} {s t : State}
    (h : twoOperand bw src dst use flags f s = .ok t) (hs : s.Inv) : t.Inv := by
  obtain ⟨-, sv, dv, u, -, -, rfl, h⟩ := twoOperand_ok h
  have h2 := fun r : Alu bw.bits =>
    State.applyAlu_inv r (State.noteDst_inv bw use (dstAfterSrc bw src dst s) (dstLoc_inv dst (srcState_inv bw src hs)))
  split at h
  · exact Except.ok.inj h ▸ h2 _
  · exact writeLoc_inv h (h2 _)

/-- RRC, RRA, SWPB or SXT that completes (41_single_operand.md R160). -/
theorem modifyOperand_ok {bw : Width} {src : Src} {flags : Bool}
    {f : BitVec bw.bits → Bool → Nat → Alu bw.bits} {s t : State} (h : modifyOperand bw src flags f s = .ok t) :
    modifyRefusal bw src flags = none ∧ ∃ v u, evalSrc bw src s = .ok (v, u) ∧ u = srcState bw src s ∧
      writeLoc bw (srcLoc bw src s).1 (f v u.carry u.draws).res (u.applyAlu (f v u.carry u.draws)) = .ok t := by
  unfold modifyOperand at h
  split at h
  · cases h
  · rename_i hr
    refine ⟨hr, ?_⟩
    split at h
    · cases h
    · rename_i v u hv
      exact ⟨v, u, hv, (evalSrc_ok hv).1, h⟩

theorem modifyOperand_inv {bw : Width} {src : Src} {flags : Bool}
    {f : BitVec bw.bits → Bool → Nat → Alu bw.bits} {s t : State} (h : modifyOperand bw src flags f s = .ok t)
    (hs : s.Inv) : t.Inv := by
  obtain ⟨-, v, u, -, rfl, h⟩ := modifyOperand_ok h
  exact writeLoc_inv h (State.applyAlu_inv _ (srcState_inv bw src hs))

/-- The value PUSH stores, taken apart: SP itself, or an evaluated operand (41_single_operand.md R165). -/
theorem pushValue_ok {bw : Width} {src : Src} {s s1 : State} {v : BitVec bw.bits}
    (h : pushValue bw src s = .ok (v, s1)) : s1 = srcState bw src s ∧
      (src = .reg .sp → v = (pushedSp s.sp).setWidth bw.bits) ∧ (src ≠ .reg .sp → evalSrc bw src s = .ok (v, s1)) := by
  unfold pushValue at h
  split at h
  · simp only [Except.ok.injEq, Prod.mk.injEq] at h
    exact ⟨h.2.symm, fun _ => h.1.symm, fun hn => absurd rfl hn⟩
  · rename_i hne
    exact ⟨(evalSrc_ok h).1, fun e => absurd e hne, fun _ => h⟩

/-- PUSH, taken apart. -/
theorem pushOperand_ok {bw : Width} {src : Src} {s t : State} (h : pushOperand bw src s = .ok t) :
    ∃ v, pushValue bw src s = .ok (v, srcState bw src s) ∧ (srcState bw src s).push bw v = .ok t := by
  unfold pushOperand at h
  split at h
  · cases h
  · rename_i v s1 hv
    obtain ⟨rfl, -⟩ := pushValue_ok hv
    exact ⟨v, hv, h⟩

/-- CALL, taken apart. -/
theorem callOperand_ok {src : Src} {s t : State} (h : callOperand src s = .ok t) :
    ∃ target s2, evalSrc .word src s = .ok (target, srcState .word src s) ∧
      (srcState .word src s).push .word (srcState .word src s).pc = .ok s2 ∧ t = s2.setPc target := by
  unfold callOperand at h
  split at h
  · cases h
  · rename_i target s1 he
    obtain ⟨rfl, -⟩ := evalSrc_ok he
    split at h
    · cases h
    · rename_i s2 hp
      exact ⟨target, s2, he, hp, by simpa using h.symm⟩

theorem pushOperand_inv {bw : Width} {src : Src} {s t : State} (h : pushOperand bw src s = .ok t) (hs : s.Inv) :
    t.Inv := by
  obtain ⟨v, -, hp⟩ := pushOperand_ok h
  exact State.push_inv hp (srcState_inv bw src hs)

theorem callOperand_inv {src : Src} {s t : State} (h : callOperand src s = .ok t) (hs : s.Inv) : t.Inv := by
  obtain ⟨target, s2, -, hp, rfl⟩ := callOperand_ok h
  exact State.writeReg_inv .pc _ (State.push_inv hp (srcState_inv .word src hs))

end Sys2Proof.Machine
end

