-- ==== Sys2Proof/Laws/Exec.lean ====
section
/-! SUPPORT. Each instruction's meaning as a call of its shared frame, in one equation per instruction, and what an instruction of
the Format I frame completes with. -/

namespace Sys2Proof.Machine

theorem exec_rrc (bw : Width) (src : Src) (s : State) : exec (.rrc bw src) s =
    outcome (modifyOperand bw src true (fun v c d => rrcW v c d) s) := rfl

theorem exec_swpb (src : Src) (s : State) : exec (.swpb src) s =
    outcome (modifyOperand .word src false (fun v _ _ => swpbW v) s) := rfl

theorem exec_rra (bw : Width) (src : Src) (s : State) : exec (.rra bw src) s =
    outcome (modifyOperand bw src true (fun v _ _ => rraW v) s) := rfl

theorem exec_sxt (src : Src) (s : State) : exec (.sxt src) s =
    outcome (modifyOperand .word src true (fun v _ _ => sxtW v) s) := rfl

theorem exec_push (bw : Width) (src : Src) (s : State) : exec (.push bw src) s =
    outcome (pushOperand bw src s) := rfl

theorem exec_call (src : Src) (s : State) : exec (.call src) s =
    outcome (callOperand src s) := rfl

theorem exec_reti (s : State) : exec .reti s =
    outcome s.returnFromInterrupt := rfl

theorem exec_mov (bw : Width) (src : Src) (dst : Dst) (s : State) : exec (.mov bw src dst) s =
    outcome (twoOperand bw src dst s.movUse false (fun sv _ _ _ => movW sv) s) := rfl

theorem exec_add (bw : Width) (src : Src) (dst : Dst) (s : State) : exec (.add bw src dst) s =
    outcome (twoOperand bw src dst .readWrite true (fun sv dv _ _ => addW dv sv false) s) := rfl

theorem exec_addc (bw : Width) (src : Src) (dst : Dst) (s : State) : exec (.addc bw src dst) s =
    outcome (twoOperand bw src dst .readWrite true (fun sv dv c _ => addW dv sv c) s) := rfl

theorem exec_subc (bw : Width) (src : Src) (dst : Dst) (s : State) : exec (.subc bw src dst) s =
    outcome (twoOperand bw src dst .readWrite true (fun sv dv c _ => subW dv sv c) s) := rfl

theorem exec_sub (bw : Width) (src : Src) (dst : Dst) (s : State) : exec (.sub bw src dst) s =
    outcome (twoOperand bw src dst .readWrite true (fun sv dv _ _ => subW dv sv true) s) := rfl

theorem exec_cmp (bw : Width) (src : Src) (dst : Dst) (s : State) : exec (.cmp bw src dst) s =
    outcome (twoOperand bw src dst .read true (fun sv dv _ _ => subW dv sv true) s) := rfl

theorem exec_dadd (bw : Width) (src : Src) (dst : Dst) (s : State) : exec (.dadd bw src dst) s =
    outcome (twoOperand bw src dst .readWrite true (fun sv dv c d => daddW dv sv c d) s) := rfl

theorem exec_bit (bw : Width) (src : Src) (dst : Dst) (s : State) : exec (.bit bw src dst) s =
    outcome (twoOperand bw src dst .read true (fun sv dv _ _ => andW sv dv) s) := rfl

theorem exec_bic (bw : Width) (src : Src) (dst : Dst) (s : State) : exec (.bic bw src dst) s =
    outcome (twoOperand bw src dst .readWrite false (fun sv dv _ _ => bicW sv dv) s) := rfl

theorem exec_bis (bw : Width) (src : Src) (dst : Dst) (s : State) : exec (.bis bw src dst) s =
    outcome (twoOperand bw src dst .readWrite false (fun sv dv _ _ => bisW sv dv) s) := rfl

theorem exec_xor (bw : Width) (src : Src) (dst : Dst) (s : State) : exec (.xor bw src dst) s =
    outcome (twoOperand bw src dst .readWrite true (fun sv dv _ _ => xorW sv dv) s) := rfl

theorem exec_and (bw : Width) (src : Src) (dst : Dst) (s : State) : exec (.and bw src dst) s =
    outcome (twoOperand bw src dst .readWrite true (fun sv dv _ _ => andW sv dv) s) := rfl

theorem exec_jne (off : BitVec 10) (s : State) : exec (.jne off) s =
    .next (jumpIf (!s.zero) off s) := rfl

theorem exec_jeq (off : BitVec 10) (s : State) : exec (.jeq off) s =
    .next (jumpIf s.zero off s) := rfl

theorem exec_jnc (off : BitVec 10) (s : State) : exec (.jnc off) s =
    .next (jumpIf (!s.carry) off s) := rfl

theorem exec_jc (off : BitVec 10) (s : State) : exec (.jc off) s =
    .next (jumpIf s.carry off s) := rfl

theorem exec_jn (off : BitVec 10) (s : State) : exec (.jn off) s =
    .next (jumpIf s.negative off s) := rfl

theorem exec_jge (off : BitVec 10) (s : State) : exec (.jge off) s =
    .next (jumpIf (s.negative == s.overflow) off s) := rfl

theorem exec_jl (off : BitVec 10) (s : State) : exec (.jl off) s =
    .next (jumpIf (s.negative != s.overflow) off s) := rfl

theorem exec_jmp (off : BitVec 10) (s : State) : exec (.jmp off) s =
    .next (jumpIf true off s) := rfl

theorem exec_adc (bw : Width) (dst : Dst) (s : State) : exec (.adc bw dst) s =
    outcome (twoOperand bw (.const .zero) dst .readWrite true (fun sv dv c _ => addW dv sv c) s) := rfl

theorem exec_dadc (bw : Width) (dst : Dst) (s : State) : exec (.dadc bw dst) s =
    outcome (twoOperand bw (.const .zero) dst .readWrite true (fun sv dv c d => daddW dv sv c d) s) := rfl

theorem exec_dec (bw : Width) (dst : Dst) (s : State) : exec (.dec bw dst) s =
    outcome (twoOperand bw (.const .one) dst .readWrite true (fun sv dv _ _ => subW dv sv true) s) := rfl

theorem exec_decd (bw : Width) (dst : Dst) (s : State) : exec (.decd bw dst) s =
    outcome (twoOperand bw (.const .two) dst .readWrite true (fun sv dv _ _ => subW dv sv true) s) := rfl

theorem exec_inc (bw : Width) (dst : Dst) (s : State) : exec (.inc bw dst) s =
    outcome (twoOperand bw (.const .one) dst .readWrite true (fun sv dv _ _ => addW dv sv false) s) := rfl

theorem exec_incd (bw : Width) (dst : Dst) (s : State) : exec (.incd bw dst) s =
    outcome (twoOperand bw (.const .two) dst .readWrite true (fun sv dv _ _ => addW dv sv false) s) := rfl

theorem exec_sbc (bw : Width) (dst : Dst) (s : State) : exec (.sbc bw dst) s =
    outcome (twoOperand bw (.const .zero) dst .readWrite true (fun sv dv c _ => subW dv sv c) s) := rfl

theorem exec_inv (bw : Width) (dst : Dst) (s : State) : exec (.inv bw dst) s =
    outcome (twoOperand bw (.const .minusOne) dst .readWrite true (fun sv dv _ _ => xorW sv dv) s) := rfl

theorem exec_rla (bw : Width) (dst : Dst) (s : State) : exec (.rla bw dst) s =
    outcome (twoOperand bw dst.asSrc dst.again .readWrite true (fun sv dv _ _ => addW dv sv false) s) := rfl

theorem exec_rlc (bw : Width) (dst : Dst) (s : State) : exec (.rlc bw dst) s =
    outcome (twoOperand bw dst.asSrc dst.again .readWrite true (fun sv dv c _ => addW dv sv c) s) := rfl

theorem exec_br (src : Src) (s : State) : exec (.br src) s =
    outcome (twoOperand .word src (.reg .pc) s.movUse false (fun sv _ _ _ => movW sv) s) := rfl

theorem exec_dint (s : State) : exec .dint s =
    outcome (twoOperand .word (.const .eight) (.reg .sr) .readWrite false (fun sv dv _ _ => bicW sv dv) s) := rfl

theorem exec_eint (s : State) : exec .eint s =
    outcome (twoOperand .word (.const .eight) (.reg .sr) .readWrite false (fun sv dv _ _ => bisW sv dv) s) := rfl

theorem exec_nop (s : State) : exec .nop s =
    outcome (twoOperand .word (.const .zero) (.reg .cg) s.movUse false (fun sv _ _ _ => movW sv) s) := rfl

theorem exec_ret (s : State) : exec .ret s =
    outcome (twoOperand .word (.autoinc .sp) (.reg .pc) s.movUse false (fun sv _ _ _ => movW sv) s) := rfl

theorem exec_clr (bw : Width) (dst : Dst) (s : State) : exec (.clr bw dst) s =
    outcome (twoOperand bw (.const .zero) dst s.movUse false (fun sv _ _ _ => movW sv) s) := rfl

theorem exec_clrc (s : State) : exec .clrc s =
    outcome (twoOperand .word (.const .one) (.reg .sr) .readWrite false (fun sv dv _ _ => bicW sv dv) s) := rfl

theorem exec_clrn (s : State) : exec .clrn s =
    outcome (twoOperand .word (.const .four) (.reg .sr) .readWrite false (fun sv dv _ _ => bicW sv dv) s) := rfl

theorem exec_clrz (s : State) : exec .clrz s =
    outcome (twoOperand .word (.const .two) (.reg .sr) .readWrite false (fun sv dv _ _ => bicW sv dv) s) := rfl

theorem exec_pop (bw : Width) (dst : Dst) (s : State) : exec (.pop bw dst) s =
    outcome (twoOperand bw (.autoinc .sp) dst s.movUse false (fun sv _ _ _ => movW sv) s) := rfl

theorem exec_setc (s : State) : exec .setc s =
    outcome (twoOperand .word (.const .one) (.reg .sr) .readWrite false (fun sv dv _ _ => bisW sv dv) s) := rfl

theorem exec_setn (s : State) : exec .setn s =
    outcome (twoOperand .word (.const .four) (.reg .sr) .readWrite false (fun sv dv _ _ => bisW sv dv) s) := rfl

theorem exec_setz (s : State) : exec .setz s =
    outcome (twoOperand .word (.const .two) (.reg .sr) .readWrite false (fun sv dv _ _ => bisW sv dv) s) := rfl

theorem exec_tst (bw : Width) (dst : Dst) (s : State) : exec (.tst bw dst) s =
    outcome (twoOperand bw (.const .zero) dst .read true (fun sv dv _ _ => subW dv sv true) s) := rfl

/-! The Format I frame completes when its operands are ready (40_operands.md R137). -/

theorem State.applyAlu_eq {w : Nat} (s : State) (r : Alu w) :
    s.applyAlu r = (s.setDraws (s.draws + r.draws)).setFlags r.flags := by
  unfold State.applyAlu; cases r.flags <;> rfl

/-- Evaluating the operands leaves SR alone. -/
theorem operandsReady_sr {bw : Width} {src : Src} {dst : Dst} {use : DstUse} {flags : Bool} {s u : State}
    {sv dv : BitVec bw.bits} (h : operandsReady bw src dst use flags s sv dv u) : u.sr = s.sr := by
  obtain ⟨hw, -, -, -, rfl, -⟩ := h
  simp [dstLocated, (dstLoc_frame dst _).2.1, (srcState_frame bw src s hw).2]

/-- With its operands ready an instruction that writes its destination completes with the result and the flags of `f`. -/
theorem twoOperand_completes {bw : Width} {src : Src} {dst : Dst} {use : DstUse} {flags : Bool}
    {f : BitVec bw.bits → BitVec bw.bits → Bool → Nat → Alu bw.bits} {s u : State} {sv dv : BitVec bw.bits} {i : Instr}
    (hi : exec i s = outcome (twoOperand bw src dst use flags f s)) (h : operandsReady bw src dst use flags s sv dv u)
    (hu : use ≠ .read) :
    completesWith i s bw (dstAfterSrc bw src dst s) (u.setDraws (u.draws + (f sv dv s.carry u.draws).draws))
      (f sv dv s.carry u.draws).res (f sv dv s.carry u.draws).flags := by
  have hc : u.carry = s.carry := by simp [State.carry, operandsReady_sr h]
  have e := twoOperand_eq f h
  rw [hc, if_neg hu] at e
  have hwr := h.2.2.2.2.2 hu
  generalize f sv dv s.carry u.draws = r at e ⊢
  obtain ⟨t, ht⟩ := writeLoc_of_writable (s := u.applyAlu r) r.res
    (by rw [writableLoc_congr (s := u) (by simp) (by simp)]; exact hwr)
  rw [completesWith, ← State.applyAlu_eq]
  exact ⟨t, ht, by rw [hi, e, ht]; rfl⟩

/-- With its operands ready CMP or BIT completes with the flags of `f` and nothing stored. -/
theorem twoOperand_reads {bw : Width} {src : Src} {dst : Dst} {flags : Bool}
    {f : BitVec bw.bits → BitVec bw.bits → Bool → Nat → Alu bw.bits} {s u : State} {sv dv : BitVec bw.bits} {i : Instr}
    (hi : exec i s = outcome (twoOperand bw src dst .read flags f s)) (h : operandsReady bw src dst .read flags s sv dv u) :
    exec i s = .next (u.applyAlu (f sv dv s.carry u.draws)) := by
  have hc : u.carry = s.carry := by simp [State.carry, operandsReady_sr h]
  rw [hi, twoOperand_eq f h, hc]
  rfl

end Sys2Proof.Machine
end

