-- ==== Sys2Proof/Laws/Flags.lean ====
section
/-! SUPPORT. What the arithmetic and flag functions of Machine/Flags.lean compute, said once (40_operands.md R141 to R145). -/

namespace Sys2Proof.Machine

theorem addW_res {w : Nat} (a b : BitVec w) (c : Bool) : (addW a b c).res = a + b + BitVec.ofNat w c.toNat := by
  apply BitVec.eq_of_toNat_eq
  simp [addW, BitVec.toNat_add, Nat.add_mod]

/-- A sum, its carry, and its flags. -/
theorem addW_flags {w : Nat} (a b : BitVec w) (c : Bool) :
    (addW a b c).flags = some (sumFlags a b (a + b + BitVec.ofNat w c.toNat) (decide (2 ^ w ≤ a.toNat + b.toNat + c.toNat))) := by
  have h := addW_res a b c
  simp only [addW] at h
  simp [addW, sumFlags, h, ← BitVec.ofNat_eq_ofNat, BEq.beq]

theorem addW_draws {w : Nat} (a b : BitVec w) (c : Bool) : (addW a b c).draws = 0 := rfl

theorem subW_draws {w : Nat} (a b : BitVec w) (c : Bool) : (subW a b c).draws = 0 := rfl

/-- A difference: the complement and the carry make minus the source, less one without a carry. -/
theorem subW_res {w : Nat} (a b : BitVec w) (c : Bool) : (subW a b c).res = a - b - BitVec.ofNat w (1 - c.toNat) := by
  rw [subW, addW_res]
  apply BitVec.eq_of_toNat_eq
  have ha := a.isLt
  have hb := b.isLt
  have hp : 0 < 2 ^ w := Nat.two_pow_pos w
  simp only [BitVec.toNat_add, BitVec.toNat_sub, BitVec.toNat_not, BitVec.toNat_ofNat]
  generalize 2 ^ w = n at *
  cases c <;> simp only [Bool.toNat_false, Bool.toNat_true, Nat.sub_zero, Nat.sub_self, Nat.zero_mod, Nat.add_mod_mod,
    Nat.mod_add_mod, Nat.add_zero]
  · rcases Nat.lt_or_ge 1 n with h1 | h1
    · rw [Nat.mod_eq_of_lt h1, show n - 1 + (n - b.toNat + a.toNat) = a.toNat + (n - 1 - b.toNat) + n by omega,
        Nat.add_mod_right, Nat.mod_mod]
    · obtain rfl : n = 1 := by omega
      simp [Nat.mod_one]
  · rw [show n + (n - b.toNat + a.toNat) = a.toNat + (n - 1 - b.toNat) + 1 + n by omega, Nat.add_mod_right]

/-- A difference's flags; C is no borrow. -/
theorem subW_flags {w : Nat} (hw : 0 < w) (a b : BitVec w) (c : Bool) :
    (subW a b c).flags = some (differenceFlags a b (a - b - BitVec.ofNat w (1 - c.toNat))
      (decide (b.toNat + (1 - c.toNat) ≤ a.toNat))) := by
  rw [← subW_res, subW, addW_flags, ← addW_res]
  have hb := b.isLt
  have hm : (~~~b).msb = !b.msb := by simp [BitVec.msb_not, hw]
  have hc : decide (2 ^ w ≤ a.toNat + (~~~b).toNat + c.toNat) = decide (b.toNat + (1 - c.toNat) ≤ a.toNat) := by
    rw [BitVec.toNat_not]
    cases c <;> simp only [Bool.toNat_false, Bool.toNat_true, decide_eq_decide] <;> omega
  simp only [sumFlags, differenceFlags, hm, hc]
  cases a.msb <;> cases b.msb <;> rfl

theorem andW_flags {w : Nat} (a b : BitVec w) : (andW a b).flags = some (resultFlags (a &&& b) false) := by
  simp [andW, logicFlags, resultFlags, BEq.beq, bne]

theorem xorW_flags {w : Nat} (a b : BitVec w) : (xorW a b).flags = some (resultFlags (a ^^^ b) (a.msb && b.msb)) := by
  simp [xorW, logicFlags, resultFlags, BEq.beq, bne]

end Sys2Proof.Machine
end

