-- ==== Sys2Proof/Laws/PerInstr.lean ====
section
/-! SUPPORT. Statements made per instruction: an instruction's words are its instruction word and as many index words as that
word calls for (30_encoding.md R102). -/

namespace Sys2Proof

theorem Reg.field_lt (r : Reg) : r.field < 16 := by
  cases r <;> simp only [Reg.field] <;> omega

/-- A source operand has the index words its mode takes. -/
theorem encodeSrc_words (s : Src) (h : s.wellFormed = true) :
    (encodeSrc s).1 < 4 ∧ srcExtWords (encodeSrc s).1 (encodeSrc s).2.1.field = (encodeSrc s).2.2.length := by
  cases s with
  | const c => cases c <;> exact ⟨by decide, by decide⟩
  | imm v => exact ⟨by simp [encodeSrc], rfl⟩
  | symbolic x => exact ⟨by simp [encodeSrc], rfl⟩
  | absolute x => exact ⟨by simp [encodeSrc], rfl⟩
  | reg r => exact ⟨by simp [encodeSrc], by simp [encodeSrc, srcExtWords]⟩
  | indirect r => exact ⟨by simp [encodeSrc], by simp [encodeSrc, srcExtWords]⟩
  | indexed r x => cases r <;> simp_all [Src.wellFormed, encodeSrc, srcExtWords, Reg.field]
  | autoinc r => cases r <;> simp_all [Src.wellFormed, encodeSrc, srcExtWords, Reg.field]

/-- A destination operand has the index words its mode takes. -/
theorem encodeDst_words (d : Dst) : (encodeDst d).1 < 2 ∧ (encodeDst d).1 = (encodeDst d).2.2.length := by
  cases d <;> simp [encodeDst]

end Sys2Proof

namespace Sys2Proof.Laws.WordCount

/-- The words of a well-formed instruction: one, and the index words the decoder will take for it. -/
def Statement (i : Instr) : Prop :=
  i.wellFormed = true → ∃ iw xs, encode i = iw :: xs ∧ extWords iw = xs.length

theorem formatI {op : Nat} (hop : 4 ≤ op ∧ op < 16) (bw : Width) {s : Src} (d : Dst) (h : s.wellFormed = true) :
    ∃ iw xs, encodeFormatI op bw s d = iw :: xs ∧ extWords iw = xs.length := by
  obtain ⟨h1, h2⟩ := encodeSrc_words s h
  obtain ⟨h3, h4⟩ := encodeDst_words d
  have h5 := (encodeSrc s).2.1.field_lt
  have h6 := (encodeDst d).2.1.field_lt
  have h7 : bw.field < 2 := by cases bw <;> decide
  refine ⟨_, _, rfl, ?_⟩
  rw [List.length_append, ← h2, ← h4]
  generalize (encodeSrc s).1 = as at *
  generalize (encodeSrc s).2.1.field = rs at *
  generalize (encodeDst d).1 = ad at *
  generalize (encodeDst d).2.1.field = rd at *
  generalize bw.field = b at *
  have hn : (BitVec.ofNat 16 (op * 4096 + rs * 256 + ad * 128 + b * 64 + as * 16 + rd)).toNat =
      op * 4096 + rs * 256 + ad * 128 + b * 64 + as * 16 + rd := by
    rw [BitVec.toNat_ofNat, Nat.mod_eq_of_lt]; omega
  have g1 : asField (BitVec.ofNat 16 (op * 4096 + rs * 256 + ad * 128 + b * 64 + as * 16 + rd)) = as := by
    rw [asField, hn]; omega
  have g2 : srcField (BitVec.ofNat 16 (op * 4096 + rs * 256 + ad * 128 + b * 64 + as * 16 + rd)) = rs := by
    rw [srcField, hn]; omega
  have g3 : adField (BitVec.ofNat 16 (op * 4096 + rs * 256 + ad * 128 + b * 64 + as * 16 + rd)) = ad := by
    rw [adField, hn]; omega
  have g4 : opField (BitVec.ofNat 16 (op * 4096 + rs * 256 + ad * 128 + b * 64 + as * 16 + rd)) = op := by
    rw [opField, hn]; omega
  rw [extWords, hn, g1, g2, g3, g4, if_neg (by omega), if_neg (by omega), if_pos (by omega)]

theorem formatII {op : Nat} (hop : op < 6) (bw : Width) (hbw : bw.field = 0 ∨ op % 2 = 0) {s : Src} (h : s.wellFormed = true) :
    ∃ iw xs, encodeFormatII op bw s = iw :: xs ∧ extWords iw = xs.length := by
  obtain ⟨h1, h2⟩ := encodeSrc_words s h
  have h5 := (encodeSrc s).2.1.field_lt
  have h7 : bw.field < 2 := by cases bw <;> decide
  refine ⟨_, _, rfl, ?_⟩
  rw [← h2]
  generalize (encodeSrc s).1 = as at *
  generalize (encodeSrc s).2.1.field = r at *
  generalize bw.field = b at *
  have hn : (BitVec.ofNat 16 (4096 + op * 128 + b * 64 + as * 16 + r)).toNat = 4096 + op * 128 + b * 64 + as * 16 + r := by
    rw [BitVec.toNat_ofNat, Nat.mod_eq_of_lt]; omega
  have g1 : asField (BitVec.ofNat 16 (4096 + op * 128 + b * 64 + as * 16 + r)) = as := by rw [asField, hn]; omega
  have g2 : dstField (BitVec.ofNat 16 (4096 + op * 128 + b * 64 + as * 16 + r)) = r := by rw [dstField, hn]; omega
  have g3 : op2Field (BitVec.ofNat 16 (4096 + op * 128 + b * 64 + as * 16 + r)) = op := by rw [op2Field, hn]; omega
  have g4 : bwField (BitVec.ofNat 16 (4096 + op * 128 + b * 64 + as * 16 + r)) = b := by rw [bwField, hn]; omega
  rw [extWords, hn, g1, g2, g3, g4, if_neg (by omega), if_pos (by omega), if_pos ⟨hop, hbw⟩]

theorem jump {c : Nat} (hc : c < 8) (off : BitVec 10) :
    ∃ iw xs, encodeJump c off = iw :: xs ∧ extWords iw = xs.length := by
  refine ⟨_, _, rfl, ?_⟩
  have ho := off.isLt
  have hn : (BitVec.ofNat 16 (8192 + c * 1024 + off.toNat)).toNat = 8192 + c * 1024 + off.toNat := by
    rw [BitVec.toNat_ofNat, Nat.mod_eq_of_lt]; omega
  rw [extWords, hn, if_pos (by omega)]
  rfl

/-- The destination of RLA or RLC named again takes a well-formed source. -/
theorem asSrc_wellFormed {d : Dst} (h : (d.asSrc.wellFormed && d.wellFormed) = true) : d.asSrc.wellFormed = true := by
  simp only [Bool.and_eq_true] at h
  exact h.1

theorem both {s : Src} {d : Dst} (h : (s.wellFormed && d.wellFormed) = true) : s.wellFormed = true := by
  simp only [Bool.and_eq_true] at h
  exact h.1

theorem rrc (bw : Width) (src : Src) : Statement (.rrc bw src) :=
  fun h => formatII (op := 0) (by decide) bw (.inr rfl) h
theorem swpb (src : Src) : Statement (.swpb src) :=
  fun h => formatII (op := 1) (by decide) .word (.inl rfl) h
theorem rra (bw : Width) (src : Src) : Statement (.rra bw src) :=
  fun h => formatII (op := 2) (by decide) bw (.inr rfl) h
theorem sxt (src : Src) : Statement (.sxt src) :=
  fun h => formatII (op := 3) (by decide) .word (.inl rfl) h
theorem push (bw : Width) (src : Src) : Statement (.push bw src) :=
  fun h => formatII (op := 4) (by decide) bw (.inr rfl) h
theorem call (src : Src) : Statement (.call src) :=
  fun h => formatII (op := 5) (by decide) .word (.inl rfl) h
theorem reti : Statement (.reti) :=
  fun _ => ⟨_, _, rfl, by decide⟩
theorem jne (off : BitVec 10) : Statement (.jne off) :=
  fun _ => jump (c := 0) (by decide) off
theorem jeq (off : BitVec 10) : Statement (.jeq off) :=
  fun _ => jump (c := 1) (by decide) off
theorem jnc (off : BitVec 10) : Statement (.jnc off) :=
  fun _ => jump (c := 2) (by decide) off
theorem jc (off : BitVec 10) : Statement (.jc off) :=
  fun _ => jump (c := 3) (by decide) off
theorem jn (off : BitVec 10) : Statement (.jn off) :=
  fun _ => jump (c := 4) (by decide) off
theorem jge (off : BitVec 10) : Statement (.jge off) :=
  fun _ => jump (c := 5) (by decide) off
theorem jl (off : BitVec 10) : Statement (.jl off) :=
  fun _ => jump (c := 6) (by decide) off
theorem jmp (off : BitVec 10) : Statement (.jmp off) :=
  fun _ => jump (c := 7) (by decide) off
theorem mov (bw : Width) (src : Src) (dst : Dst) : Statement (.mov bw src dst) :=
  fun h => formatI (op := 4) (by decide) bw dst (both h)
theorem add (bw : Width) (src : Src) (dst : Dst) : Statement (.add bw src dst) :=
  fun h => formatI (op := 5) (by decide) bw dst (both h)
theorem addc (bw : Width) (src : Src) (dst : Dst) : Statement (.addc bw src dst) :=
  fun h => formatI (op := 6) (by decide) bw dst (both h)
theorem subc (bw : Width) (src : Src) (dst : Dst) : Statement (.subc bw src dst) :=
  fun h => formatI (op := 7) (by decide) bw dst (both h)
theorem sub (bw : Width) (src : Src) (dst : Dst) : Statement (.sub bw src dst) :=
  fun h => formatI (op := 8) (by decide) bw dst (both h)
theorem cmp (bw : Width) (src : Src) (dst : Dst) : Statement (.cmp bw src dst) :=
  fun h => formatI (op := 9) (by decide) bw dst (both h)
theorem dadd (bw : Width) (src : Src) (dst : Dst) : Statement (.dadd bw src dst) :=
  fun h => formatI (op := 10) (by decide) bw dst (both h)
theorem bit (bw : Width) (src : Src) (dst : Dst) : Statement (.bit bw src dst) :=
  fun h => formatI (op := 11) (by decide) bw dst (both h)
theorem bic (bw : Width) (src : Src) (dst : Dst) : Statement (.bic bw src dst) :=
  fun h => formatI (op := 12) (by decide) bw dst (both h)
theorem bis (bw : Width) (src : Src) (dst : Dst) : Statement (.bis bw src dst) :=
  fun h => formatI (op := 13) (by decide) bw dst (both h)
theorem xor (bw : Width) (src : Src) (dst : Dst) : Statement (.xor bw src dst) :=
  fun h => formatI (op := 14) (by decide) bw dst (both h)
theorem and (bw : Width) (src : Src) (dst : Dst) : Statement (.and bw src dst) :=
  fun h => formatI (op := 15) (by decide) bw dst (both h)
theorem adc (bw : Width) (dst : Dst) : Statement (.adc bw dst) :=
  fun _ => formatI (op := 6) (by decide) bw dst rfl
theorem dadc (bw : Width) (dst : Dst) : Statement (.dadc bw dst) :=
  fun _ => formatI (op := 10) (by decide) bw dst rfl
theorem dec (bw : Width) (dst : Dst) : Statement (.dec bw dst) :=
  fun _ => formatI (op := 8) (by decide) bw dst rfl
theorem decd (bw : Width) (dst : Dst) : Statement (.decd bw dst) :=
  fun _ => formatI (op := 8) (by decide) bw dst rfl
theorem inc (bw : Width) (dst : Dst) : Statement (.inc bw dst) :=
  fun _ => formatI (op := 5) (by decide) bw dst rfl
theorem incd (bw : Width) (dst : Dst) : Statement (.incd bw dst) :=
  fun _ => formatI (op := 5) (by decide) bw dst rfl
theorem sbc (bw : Width) (dst : Dst) : Statement (.sbc bw dst) :=
  fun _ => formatI (op := 7) (by decide) bw dst rfl
theorem inv (bw : Width) (dst : Dst) : Statement (.inv bw dst) :=
  fun _ => formatI (op := 14) (by decide) bw dst rfl
theorem rla (bw : Width) (dst : Dst) : Statement (.rla bw dst) :=
  fun h => formatI (op := 5) (by decide) bw dst.again (asSrc_wellFormed h)
theorem rlc (bw : Width) (dst : Dst) : Statement (.rlc bw dst) :=
  fun h => formatI (op := 6) (by decide) bw dst.again (asSrc_wellFormed h)
theorem br (src : Src) : Statement (.br src) :=
  fun h => formatI (op := 4) (by decide) .word (.reg .pc) h
theorem dint : Statement (.dint) :=
  fun _ => ⟨_, _, rfl, by decide⟩
theorem eint : Statement (.eint) :=
  fun _ => ⟨_, _, rfl, by decide⟩
theorem nop : Statement (.nop) :=
  fun _ => ⟨_, _, rfl, by decide⟩
theorem ret : Statement (.ret) :=
  fun _ => ⟨_, _, rfl, by decide⟩
theorem clr (bw : Width) (dst : Dst) : Statement (.clr bw dst) :=
  fun _ => formatI (op := 4) (by decide) bw dst rfl
theorem clrc : Statement (.clrc) :=
  fun _ => ⟨_, _, rfl, by decide⟩
theorem clrn : Statement (.clrn) :=
  fun _ => ⟨_, _, rfl, by decide⟩
theorem clrz : Statement (.clrz) :=
  fun _ => ⟨_, _, rfl, by decide⟩
theorem pop (bw : Width) (dst : Dst) : Statement (.pop bw dst) :=
  fun _ => formatI (op := 4) (by decide) bw dst rfl
theorem setc : Statement (.setc) :=
  fun _ => ⟨_, _, rfl, by decide⟩
theorem setn : Statement (.setn) :=
  fun _ => ⟨_, _, rfl, by decide⟩
theorem setz : Statement (.setz) :=
  fun _ => ⟨_, _, rfl, by decide⟩
theorem tst (bw : Width) (dst : Dst) : Statement (.tst bw dst) :=
  fun _ => formatI (op := 9) (by decide) bw dst rfl

end Sys2Proof.Laws.WordCount
end

