-- ==== Sys2Proof/Laws/Step.lean ====
section
/-! SUPPORT. What one step can do, said once: whose turn it is, and what the CPU does with its turn (40_operands.md R130). -/

namespace Sys2Proof.Machine

/-- A step that answers a next state: the CPU's, or another agent's. -/
theorem step_next {s t : State} (h : step s = .next t) :
    (s.agenda = [] ∧ cpuStep s = .next t) ∨
    (∃ rest, s.agenda = .cpu :: rest ∧ cpuStep (s.setAgenda rest) = .next t) ∨
    (∃ a rest, s.agenda = .env a :: rest ∧ envStep a (s.setAgenda rest) = .ok t) := by
  unfold step stepTurn at h
  split at h
  · exact .inl ⟨‹_›, h⟩
  · exact .inr (.inl ⟨_, ‹_›, h⟩)
  · exact .inr (.inr ⟨_, _, ‹_›, outcome_next.mp h⟩)

/-- One instruction executed. -/
theorem executeOne_next {s t : State} (h : executeOne s = .next t) :
    ∃ i u, s.fetch = .ok i ∧ exec i s.startInstr = .next u ∧ t = s.finishInstr u := by
  unfold executeOne at h
  split at h
  · cases h
  · cases h
  · rename_i i hi
    split at h
    · rename_i u hu
      exact ⟨i, u, hi, hu, by simpa using h.symm⟩
    · cases h
    · cases h

/-- A CPU step: an interrupt entry, one instruction, or nothing. -/
theorem cpuStep_next {s t : State} (h : cpuStep s = .next t) :
    (∃ v s', s.acceptable = some v ∧ (s' = s ∨ s' = s.setDraws (s.draws + 1)) ∧ s'.takeInterrupt v = .ok t) ∨
    (∃ s', (s' = s ∨ s' = s.setDraws (s.draws + 1)) ∧ s.cpuOff = false ∧ executeOne s' = .next t ∧
      (s.acceptable = none ∨ s.slackOpen = true)) ∨
    (s.acceptable = none ∧ s.cpuOff = true ∧ t = s) := by
  unfold cpuStep at h
  split at h
  · rename_i v hv
    split at h
    · rename_i hslack
      split at h
      · refine .inr (.inl ⟨_, .inr rfl, ?_, h, .inr hslack⟩)
        simp only [State.slackOpen, Bool.and_eq_true, Bool.not_eq_true'] at hslack
        exact hslack.1.2
      · exact .inl ⟨v, _, hv, .inr rfl, outcome_next.mp h⟩
    · exact .inl ⟨v, _, hv, .inl rfl, outcome_next.mp h⟩
  · rename_i hv
    split at h
    · exact .inr (.inr ⟨hv, ‹_›, by simpa using h.symm⟩)
    · rename_i ho
      exact .inr (.inl ⟨s, .inl rfl, by simpa using ho, h, .inl hv⟩)

theorem State.startInstr_inv {s : State} (hs : s.Inv) : s.startInstr.Inv :=
  State.writeReg_inv (s := s.settlePins) .pc _
    ⟨hs.memWf, hs.pcEven, hs.spEven, hs.srReserved, hs.taclrZero, hs.ctlReadOnly, hs.blockCount⟩

theorem State.settlePins_inv {s : State} (hs : s.Inv) : s.settlePins.Inv :=
  ⟨hs.memWf, hs.pcEven, hs.spEven, hs.srReserved, hs.taclrZero, hs.ctlReadOnly, hs.blockCount⟩

theorem State.takeInterrupt_inv {s t : State} {v : VectorEntry} (h : s.takeInterrupt v = .ok t) (hs : s.Inv) :
    t.Inv := by
  obtain ⟨s1, s2, u, target, h1, h2, -, -, rfl⟩ := State.takeInterrupt_ok h
  have h3 := State.clearSingleSource_inv u (State.push_inv h2 (State.push_inv h1 (State.settlePins_inv hs)))
  have h4 := State.writeReg_inv .pc target (State.writeReg_inv .sr 0 h3)
  exact { h4 with }

theorem State.returnFromInterrupt_inv {s t : State} (h : s.returnFromInterrupt = .ok t) (hs : s.Inv) : t.Inv := by
  obtain ⟨sr, pc, -, -, rfl⟩ := State.returnFromInterrupt_ok h
  have h1 := State.writeReg_inv .sr sr (State.writeReg_inv .sp (s.sp + 2) (State.noteLoad_inv .word s.sp hs))
  exact State.writeReg_inv .pc _ (State.writeReg_inv .sp _ (State.noteLoad_inv .word _ h1))

theorem jumpIf_inv {s : State} (c : Bool) (off : BitVec 10) (hs : s.Inv) : (jumpIf c off s).Inv := by
  unfold jumpIf
  split
  · exact State.writeReg_inv .pc _ hs
  · exact hs

end Sys2Proof.Machine
end

