-- ==== Sys2Proof/Tests/Slice0.lean ====
section
/-! SUPPORT. Tests: ill-formed terms, words written out from 30_encoding.md, one-step vectors of 95_test_vectors.md (the id names the
vector), and for every obligation with hypotheses a concrete case that meets them. -/

namespace Sys2Proof.Tests
open Sys2Proof.Machine

/-! Well-formedness refuses each form 30_encoding.md R98, R99 exclude. -/

theorem test_wf_source_r3 : Instr.wellFormed (.mov .word (.reg .cg) (.reg (.gp 0))) = false := by decide
theorem test_wf_indexed_pc : Instr.wellFormed (.push .word (.indexed .pc 2)) = false := by decide
theorem test_wf_indexed_sr : Instr.wellFormed (.push .word (.indexed .sr 2)) = false := by decide
theorem test_wf_indexed_r3 : Instr.wellFormed (.push .word (.indexed .cg 2)) = false := by decide
theorem test_wf_indirect_sr : Instr.wellFormed (.rrc .word (.indirect .sr)) = false := by decide
theorem test_wf_indirect_r3 : Instr.wellFormed (.rrc .word (.indirect .cg)) = false := by decide
theorem test_wf_autoinc_pc : Instr.wellFormed (.call (.autoinc .pc)) = false := by decide
theorem test_wf_autoinc_sr : Instr.wellFormed (.call (.autoinc .sr)) = false := by decide
theorem test_wf_autoinc_r3 : Instr.wellFormed (.call (.autoinc .cg)) = false := by decide
theorem test_wf_dst_indexed_pc : Instr.wellFormed (.clr .word (.indexed .pc 2)) = false := by decide
theorem test_wf_dst_indexed_sr : Instr.wellFormed (.add .word (.reg .sp) (.indexed .sr 2)) = false := by decide
theorem test_wf_rla_r3 : Instr.wellFormed (.rla .word (.reg .cg)) = false := by decide
theorem test_wf_rlc_indexed_r3 : Instr.wellFormed (.rlc .word (.indexed .cg 2)) = false := by decide
theorem test_wf_admits_at_pc : Instr.wellFormed (.mov .word (.indirect .pc) (.indexed .cg 2)) = true := by decide

/-! Words written out bit by bit. Format II: `000100 | op(3) | bw | As(2) | r(4)` (30_encoding.md R92, R95). -/

theorem test_decode_rrc : decode [0b0001000001001010] = .ok (.rrc .byte (.reg (.gp 6)), []) := by rfl
theorem test_decode_swpb : decode [0b0001000010100110] = .ok (.swpb (.indirect (.gp 2)), []) := by rfl
theorem test_decode_rra : decode [0b0001000100001011] = .ok (.rra .word (.reg (.gp 7)), []) := by rfl
theorem test_decode_sxt : decode [0b0001000110010010, 0x0200] = .ok (.sxt (.absolute 0x200), []) := by rfl
theorem test_decode_push : decode [0b0001001001110101] = .ok (.push .byte (.autoinc (.gp 1)), []) := by rfl
theorem test_decode_call : decode [0b0001001010110000, 0xC100] = .ok (.call (.imm 0xC100), []) := by rfl
theorem test_decode_reti : decode [0b0001001100000000] = .ok (.reti, []) := by rfl

/-! Jumps: `001 | c(3) | offset(10)` (R93, R96). -/

theorem test_decode_jne : decode [0b0010001111111101] = .ok (.jne 0x3FD, []) := by rfl
theorem test_decode_jeq : decode [0b0010010000000111] = .ok (.jeq 7, []) := by rfl
theorem test_decode_jnc : decode [0b0010100000000001] = .ok (.jnc 1, []) := by rfl
theorem test_decode_jc : decode [0b0010110000000111] = .ok (.jc 7, []) := by rfl
theorem test_decode_jn : decode [0b0011000000000111] = .ok (.jn 7, []) := by rfl
theorem test_decode_jge : decode [0b0011010000000001] = .ok (.jge 1, []) := by rfl
theorem test_decode_jl : decode [0b0011101000000000] = .ok (.jl 0x200, []) := by rfl
theorem test_decode_jmp : decode [0b0011111111111111] = .ok (.jmp 0x3FF, []) := by rfl

/-! Format I: `op(4) | s(4) | Ad | bw | As(2) | d(4)` (R91, R94). -/

theorem test_decode_mov : decode [0b0100000010010000, 0xF102, 0x11FE] =
    .ok (.mov .word (.symbolic 0xF102) (.symbolic 0x11FE), []) := by rfl
theorem test_decode_add : decode [0b0101010001001000] = .ok (.add .byte (.reg (.gp 0)) (.reg (.gp 4)), []) := by rfl
theorem test_decode_addc : decode [0b0110101100001011] = .ok (.addc .word (.reg (.gp 7)) (.reg (.gp 7)), []) := by rfl
theorem test_decode_subc : decode [0b0111001100100101] = .ok (.subc .word (.const .two) (.reg (.gp 1)), []) := by rfl
theorem test_decode_sub : decode [0b1000010100000110] = .ok (.sub .word (.reg (.gp 1)) (.reg (.gp 2)), []) := by rfl
theorem test_decode_cmp : decode [0b1001110110001000, 0x0002] =
    .ok (.cmp .word (.reg (.gp 9)) (.indexed (.gp 4) 2), []) := by rfl
theorem test_decode_dadd : decode [0b1010010101000110] = .ok (.dadd .byte (.reg (.gp 1)) (.reg (.gp 2)), []) := by rfl
theorem test_decode_bit : decode [0b1011011100101100] = .ok (.bit .word (.indirect (.gp 3)) (.reg (.gp 8)), []) := by rfl
theorem test_decode_bic : decode [0b1100100011011000, 0x0002, 0x0000] =
    .ok (.bic .byte (.indexed (.gp 4) 2) (.indexed (.gp 4) 0), []) := by rfl
theorem test_decode_bis : decode [0b1101000000111011, 0xAAAA] = .ok (.bis .word (.imm 0xAAAA) (.reg (.gp 7)), []) := by rfl
theorem test_decode_xor : decode [0b1110001100111010] = .ok (.xor .word (.const .minusOne) (.reg (.gp 6)), []) := by rfl
theorem test_decode_and : decode [0b1111010110110010, 0x0210] =
    .ok (.and .word (.autoinc (.gp 1)) (.absolute 0x210), []) := by rfl

/-! The emulated instructions' words decode to the core instruction 44_emulated.md names (R231 to R254). -/

theorem test_decode_adc : decode [0x6305] = .ok ((Instr.adc .word (.reg (.gp 1))).expand, []) := by rfl
theorem test_decode_dadc : decode [0xA305] = .ok ((Instr.dadc .word (.reg (.gp 1))).expand, []) := by rfl
theorem test_decode_dec : decode [0x8355] = .ok ((Instr.dec .byte (.reg (.gp 1))).expand, []) := by rfl
theorem test_decode_decd : decode [0x8325] = .ok ((Instr.decd .word (.reg (.gp 1))).expand, []) := by rfl
theorem test_decode_inc : decode [0x53D2, 0x0200] = .ok ((Instr.inc .byte (.absolute 0x200)).expand, []) := by rfl
theorem test_decode_incd : decode [0x5321] = .ok ((Instr.incd .word (.reg .sp)).expand, []) := by rfl
theorem test_decode_sbc : decode [0x7305] = .ok ((Instr.sbc .word (.reg (.gp 1))).expand, []) := by rfl
theorem test_decode_inv : decode [0xE375] = .ok ((Instr.inv .byte (.reg (.gp 1))).expand, []) := by rfl
theorem test_decode_rla : decode [0x5595, 0x0002, 0x0002] =
    .ok ((Instr.rla .word (.indexed (.gp 1) 2)).expand, []) := by rfl
theorem test_decode_rlc : decode [0x6B0B] = .ok ((Instr.rlc .word (.reg (.gp 7))).expand, []) := by rfl
theorem test_decode_br : decode [0x4030, 0xC200] = .ok ((Instr.br (.imm 0xC200)).expand, []) := by rfl
theorem test_decode_dint : decode [0xC232] = .ok (Instr.dint.expand, []) := by rfl
theorem test_decode_eint : decode [0xD232] = .ok (Instr.eint.expand, []) := by rfl
theorem test_decode_nop : decode [0x4303] = .ok (Instr.nop.expand, []) := by rfl
theorem test_decode_ret : decode [0x4130] = .ok (Instr.ret.expand, []) := by rfl
theorem test_decode_clr : decode [0x43C2, 0x0201] = .ok ((Instr.clr .byte (.absolute 0x201)).expand, []) := by rfl
theorem test_decode_clrc : decode [0xC312] = .ok (Instr.clrc.expand, []) := by rfl
theorem test_decode_clrn : decode [0xC222] = .ok (Instr.clrn.expand, []) := by rfl
theorem test_decode_clrz : decode [0xC322] = .ok (Instr.clrz.expand, []) := by rfl
theorem test_decode_pop : decode [0x41B1, 0x0000] = .ok ((Instr.pop .word (.indexed .sp 0)).expand, []) := by rfl
theorem test_decode_setc : decode [0xD312] = .ok (Instr.setc.expand, []) := by rfl
theorem test_decode_setn : decode [0xD222] = .ok (Instr.setn.expand, []) := by rfl
theorem test_decode_setz : decode [0xD322] = .ok (Instr.setz.expand, []) := by rfl
theorem test_decode_tst : decode [0x9345] = .ok ((Instr.tst .byte (.reg (.gp 1))).expand, []) := by rfl

/-! Words that are no instruction, and words cut short. -/

theorem test_decode_unassigned : decode [0x1400, 0, 0] = .error (.unassigned 0x1400) := by rfl
theorem test_decode_excluded : decode [0x10C5] = .error (.excludedVariant 0x10C5) := by rfl
theorem test_decode_truncated : decode [0x4090, 0xF102] = .error .truncated := by rfl

/-! A small machine. -/

/-- A word stored in memory, low byte first. -/
def putWord (s : State) (a : Nat) (v : Word) : State :=
  s.setMem (Memory.write (Memory.write s.mem a (v.extractLsb' 0 8)) (a + 1) (v.extractLsb' 8 8))

/-- Words stored one after the other. -/
def putWords (s : State) (a : Nat) : List Word → State
  | [] => s
  | w :: ws => putWords (putWord s a w) (a + 2) ws

/-- The reset state with a program at PC, registers and memory words set. -/
def setUp (pc : Nat) (ws : List Word) (regs : List (Reg × Word)) (mem : List (Nat × Word)) : State :=
  let s := regs.foldl (fun s p => s.writeReg p.1 p.2) (State.reset.setPc (BitVec.ofNat 16 pc))
  putWords (mem.foldl (fun s p => putWord s p.1 p.2) s) pc ws

/-- Whether an outcome is a next state with the given registers and memory words. -/
def gives (o : Host.Outcome State Fault Refusal) (regs : List (Reg × Word)) (mem : List (Nat × Word)) : Bool :=
  match o with
  | .next t =>
    regs.all (fun p => t.readReg p.1 == p.2) &&
      mem.all fun p => match t.readWord (BitVec.ofNat 16 p.1) with
        | .ok v => v == p.2
        | .error _ => false
  | _ => false

/-- Whether an instruction answers a next state. -/
def completes (i : Instr) (s : State) : Bool :=
  match exec i s with
  | .next _ => true
  | _ => false

/-- The next state that `completes` says there is. -/
theorem completes_next {i : Instr} {s : State} (h : completes i s = true) : ∃ t, exec i s = .next t := by
  unfold completes at h
  split at h
  · exact ⟨_, by assumption⟩
  · cases h

/-! One step each (95_test_vectors.md part 2); after DADD and DADC V is open, so SR is left out. -/

/-- C58: 9999 + 1 has C and Z, and V a free value (40_operands.md R144). -/
theorem test_dadd_flags : (daddW (0x9999 : Word) 1 false 0).flags =
    some { v := Config.freeBit 0, n := false, z := true, c := true } := by rfl

/-- A03: rrc.w R5. -/
theorem test_rrc_A03 : gives (step (setUp 0xC000 [0x1005] [(.gp 1, 0x8001), (.sr, 1)] []))
      [(.gp 1, 0xC000), (.pc, 0xC002), (.sr, 5)] [] = true := by decide

/-- A10: rrc.w @R6+. -/
theorem test_rrc_A10 : gives (step (setUp 0xC000 [0x1036] [(.gp 2, 0x200), (.sr, 0)] [(0x200, 4)]))
      [(.gp 2, 0x202), (.pc, 0xC002), (.sr, 0)] [(0x200, 2)] = true := by decide

/-- A15: swpb R5. -/
theorem test_swpb_A15 : gives (step (setUp 0xC000 [0x1085] [(.gp 1, 0x1234), (.sr, 0x107)] []))
      [(.gp 1, 0x3412), (.pc, 0xC002), (.sr, 0x107)] [] = true := by decide

/-- A17: swpb @R6. -/
theorem test_swpb_A17 : gives (step (setUp 0xC000 [0x10A6] [(.gp 2, 0x200), (.sr, 0)] [(0x200, 0xBEEF)]))
      [(.pc, 0xC002), (.sr, 0)] [(0x200, 0xEFBE)] = true := by decide

/-- A23: rra.b R5. -/
theorem test_rra_A23 : gives (step (setUp 0xC000 [0x1145] [(.gp 1, 0x1280), (.sr, 0)] []))
      [(.gp 1, 0xC0), (.pc, 0xC002), (.sr, 4)] [] = true := by decide

/-- A25: rra.b @R6+. -/
theorem test_rra_A25 : gives (step (setUp 0xC000 [0x1176] [(.gp 2, 0x201), (.sr, 0)] [(0x200, 0x500)]))
      [(.gp 2, 0x202), (.pc, 0xC002), (.sr, 1)] [(0x200, 0x200)] = true := by decide

/-- A26: sxt R5. -/
theorem test_sxt_A26 : gives (step (setUp 0xC000 [0x1185] [(.gp 1, 0x80), (.sr, 0)] []))
      [(.gp 1, 0xFF80), (.pc, 0xC002), (.sr, 5)] [] = true := by decide

/-- A30: sxt &0200h. -/
theorem test_sxt_A30 : gives (step (setUp 0xC000 [0x1192, 0x0200] [(.sr, 0)] [(0x200, 0x55AA)]))
      [(.pc, 0xC004), (.sr, 5)] [(0x200, 0xFFAA)] = true := by decide

/-- A33: push.b R5. -/
theorem test_push_A33 : gives (step (setUp 0xC000 [0x1245] [(.sp, 0x400), (.gp 1, 0x1234), (.sr, 0)] [(0x3FE, 0xAAAA)]))
      [(.sp, 0x3FE), (.pc, 0xC002), (.sr, 0)] [(0x3FE, 0xAA34)] = true := by decide

/-- A38: push 2(SP). -/
theorem test_push_A38 : gives (step (setUp 0xC000 [0x1211, 0x0002] [(.sp, 0x400), (.sr, 0)] [(0x402, 0x7777)]))
      [(.sp, 0x3FE), (.pc, 0xC004), (.sr, 0)] [(0x3FE, 0x7777)] = true := by decide

/-- A44: call #0C100h. -/
theorem test_call_A44 : gives (step (setUp 0xC000 [0x12B0, 0xC100] [(.sp, 0x400), (.sr, 0)] []))
      [(.sp, 0x3FE), (.pc, 0xC100), (.sr, 0)] [(0x3FE, 0xC004)] = true := by decide

/-- A53: call 0(SP). -/
theorem test_call_A53 : gives (step (setUp 0xC000 [0x1291, 0x0000] [(.sp, 0x400), (.sr, 0)] [(0x400, 0xC700)]))
      [(.sp, 0x3FE), (.pc, 0xC700), (.sr, 0)] [(0x3FE, 0xC004)] = true := by decide

/-- A55: reti. -/
theorem test_reti_A55 : gives (step (setUp 0xC000 [0x1300] [(.sp, 0x3FC), (.sr, 5)] [(0x3FC, 8), (0x3FE, 0xC010)]))
      [(.sp, 0x400), (.pc, 0xC010), (.sr, 8)] [] = true := by decide

/-- A56: reti. -/
theorem test_reti_A56 : gives (step (setUp 0xC000 [0x1300] [(.sp, 0x3FC), (.sr, 0)] [(0x3FC, 0xFFFF), (0x3FE, 0xC011)]))
      [(.sp, 0x400), (.pc, 0xC010), (.sr, 0x1FF)] [] = true := by decide

/-- B01: jne 0C010h. -/
theorem test_jne_B01 : gives (step (setUp 0xC000 [0x2007] [(.sr, 0)] []))
      [(.pc, 0xC010), (.sr, 0)] [] = true := by decide

/-- B02: jne 0C010h. -/
theorem test_jne_B02 : gives (step (setUp 0xC000 [0x2007] [(.sr, 2)] []))
      [(.pc, 0xC002), (.sr, 2)] [] = true := by decide

/-- B03: jeq 0C010h. -/
theorem test_jeq_B03 : gives (step (setUp 0xC000 [0x2407] [(.sr, 2)] []))
      [(.pc, 0xC010), (.sr, 2)] [] = true := by decide

/-- B04: jeq 0C010h. -/
theorem test_jeq_B04 : gives (step (setUp 0xC000 [0x2407] [(.sr, 0x105)] []))
      [(.pc, 0xC002), (.sr, 0x105)] [] = true := by decide

/-- B05: jnc 0C010h. -/
theorem test_jnc_B05 : gives (step (setUp 0xC000 [0x2807] [(.sr, 0)] []))
      [(.pc, 0xC010), (.sr, 0)] [] = true := by decide

/-- B06: jnc 0C010h. -/
theorem test_jnc_B06 : gives (step (setUp 0xC000 [0x2807] [(.sr, 1)] []))
      [(.pc, 0xC002), (.sr, 1)] [] = true := by decide

/-- B07: jc 0C010h. -/
theorem test_jc_B07 : gives (step (setUp 0xC000 [0x2C07] [(.sr, 1)] []))
      [(.pc, 0xC010), (.sr, 1)] [] = true := by decide

/-- B08: jc 0C010h. -/
theorem test_jc_B08 : gives (step (setUp 0xC000 [0x2C07] [(.sr, 0x106)] []))
      [(.pc, 0xC002), (.sr, 0x106)] [] = true := by decide

/-- B09: jn 0C010h. -/
theorem test_jn_B09 : gives (step (setUp 0xC000 [0x3007] [(.sr, 4)] []))
      [(.pc, 0xC010), (.sr, 4)] [] = true := by decide

/-- B10: jn 0C010h. -/
theorem test_jn_B10 : gives (step (setUp 0xC000 [0x3007] [(.sr, 0x103)] []))
      [(.pc, 0xC002), (.sr, 0x103)] [] = true := by decide

/-- B12: jge 0C010h. -/
theorem test_jge_B12 : gives (step (setUp 0xC000 [0x3407] [(.sr, 0x104)] []))
      [(.pc, 0xC010), (.sr, 0x104)] [] = true := by decide

/-- B13: jge 0C010h. -/
theorem test_jge_B13 : gives (step (setUp 0xC000 [0x3407] [(.sr, 4)] []))
      [(.pc, 0xC002), (.sr, 4)] [] = true := by decide

/-- B16: jl 0C010h. -/
theorem test_jl_B16 : gives (step (setUp 0xC000 [0x3807] [(.sr, 0x100)] []))
      [(.pc, 0xC010), (.sr, 0x100)] [] = true := by decide

/-- B18: jl 0C010h. -/
theorem test_jl_B18 : gives (step (setUp 0xC000 [0x3807] [(.sr, 0x104)] []))
      [(.pc, 0xC002), (.sr, 0x104)] [] = true := by decide

/-- B21: jmp 0C000h. -/
theorem test_jmp_B21 : gives (step (setUp 0xC000 [0x3FFF] [(.sr, 0)] []))
      [(.pc, 0xC000), (.sr, 0)] [] = true := by decide

/-- B23: jmp 0BC02h. -/
theorem test_jmp_B23 : gives (step (setUp 0xC000 [0x3E00] [(.sr, 0)] []))
      [(.pc, 0xBC02), (.sr, 0)] [] = true := by decide

/-- C13: mov.w 0F018h, 1116h (at 0FF14h). -/
theorem test_mov_C13 : gives (step (setUp 0xFF14 [0x4090, 0xF102, 0x11FE] [(.sr, 0)] [(0xF018, 0x2222)]))
      [(.pc, 0xFF1A), (.sr, 0)] [(0x1116, 0x2222)] = true := by decide

/-- C17: mov.w @R5+, 0(R5). -/
theorem test_mov_C17 : gives (step (setUp 0xC000 [0x45B5, 0x0000] [(.gp 1, 0x200), (.sr, 0)] [(0x200, 0x7777)]))
      [(.gp 1, 0x202), (.pc, 0xC004), (.sr, 0)] [(0x202, 0x7777)] = true := by decide

/-- C31: add.b R5, R6. -/
theorem test_add_C31 : gives (step (setUp 0xC000 [0x5546] [(.gp 1, 1), (.gp 2, 0x127F), (.sr, 0)] []))
      [(.gp 2, 0x80), (.pc, 0xC002), (.sr, 0x104)] [] = true := by decide

/-- C35: add.w #0100h, PC. -/
theorem test_add_C35 : gives (step (setUp 0xC000 [0x5030, 0x0100] [(.sr, 0)] []))
      [(.pc, 0xC104), (.sr, 4)] [] = true := by decide

/-- C38: addc.w R5, R6. -/
theorem test_addc_C38 : gives (step (setUp 0xC000 [0x6506] [(.gp 1, 0), (.gp 2, 0x7FFF), (.sr, 1)] []))
      [(.gp 2, 0x8000), (.pc, 0xC002), (.sr, 0x104)] [] = true := by decide

/-- C40: addc.b R5, R6. -/
theorem test_addc_C40 : gives (step (setUp 0xC000 [0x6546] [(.gp 1, 0xFF), (.gp 2, 0xFF), (.sr, 1)] []))
      [(.pc, 0xC002), (.sr, 5)] [] = true := by decide

/-- C47: subc.w #2, R5. -/
theorem test_subc_C47 : gives (step (setUp 0xC000 [0x7325] [(.gp 1, 5), (.sr, 0)] []))
      [(.gp 1, 2), (.pc, 0xC002), (.sr, 1)] [] = true := by decide

/-- C49: subc.w #0, R5. -/
theorem test_subc_C49 : gives (step (setUp 0xC000 [0x7305] [(.gp 1, 0), (.sr, 0)] []))
      [(.gp 1, 0xFFFF), (.pc, 0xC002), (.sr, 4)] [] = true := by decide

/-- C43: sub.w #1, R5. -/
theorem test_sub_C43 : gives (step (setUp 0xC000 [0x8315] [(.gp 1, 0x8000), (.sr, 0)] []))
      [(.gp 1, 0x7FFF), (.pc, 0xC002), (.sr, 0x101)] [] = true := by decide

/-- C44: sub.w R5, R6. -/
theorem test_sub_C44 : gives (step (setUp 0xC000 [0x8506] [(.gp 1, 0x8000), (.gp 2, 0x7FFF), (.sr, 0)] []))
      [(.gp 2, 0xFFFF), (.pc, 0xC002), (.sr, 0x104)] [] = true := by decide

/-- C53: cmp.w #1, R5. -/
theorem test_cmp_C53 : gives (step (setUp 0xC000 [0x9315] [(.gp 1, 0x8000), (.sr, 0)] []))
      [(.pc, 0xC002), (.sr, 0x101)] [] = true := by decide

/-- C55: cmp.b #0080h, R5. -/
theorem test_cmp_C55 : gives (step (setUp 0xC000 [0x9075, 0x0080] [(.gp 1, 0x127F), (.sr, 0)] []))
      [(.pc, 0xC004), (.sr, 0x104)] [] = true := by decide

/-- C58: dadd.w R5, R6. -/
theorem test_dadd_C58 : gives (step (setUp 0xC000 [0xA506] [(.gp 1, 1), (.gp 2, 0x9999), (.sr, 0)] []))
      [(.gp 2, 0), (.pc, 0xC002)] [] = true := by decide

/-- C63: bit.w @R7, R12. -/
theorem test_bit_C63 : gives (step (setUp 0xC000 [0xB72C] [(.gp 3, 0x200), (.gp 8, 0xF0), (.sr, 0x100)] [(0x200, 0x10)]))
      [(.pc, 0xC002), (.sr, 1)] [] = true := by decide

/-- C65: bit.b #0080h, R5. -/
theorem test_bit_C65 : gives (step (setUp 0xC000 [0xB075, 0x0080] [(.gp 1, 0x1280), (.sr, 0)] []))
      [(.pc, 0xC004), (.sr, 5)] [] = true := by decide

/-- C67: bic.b 2(R8), 0(R8). -/
theorem test_bic_C67 : gives (step (setUp 0xC000 [0xC8D8, 0x0002, 0x0000] [(.gp 4, 0x200), (.sr, 0x107)] [(0x200, 0xFF), (0x202, 0xF)]))
      [(.pc, 0xC006), (.sr, 0x107)] [(0x200, 0xF0)] = true := by decide

/-- C69: bic.w #00F0h, 0(SP). -/
theorem test_bic_C69 : gives (step (setUp 0xC000 [0xC0B1, 0x00F0, 0x0000] [(.sp, 0x3FC), (.sr, 0)] [(0x3FC, 0xD8)]))
      [(.pc, 0xC006), (.sr, 0)] [(0x3FC, 8)] = true := by decide

/-- C72: bis.w #0AAAAh, R11. -/
theorem test_bis_C72 : gives (step (setUp 0xC000 [0xD03B, 0xAAAA] [(.gp 7, 0x55), (.sr, 4)] []))
      [(.gp 7, 0xAAFF), (.pc, 0xC004), (.sr, 4)] [] = true := by decide

/-- C76: bis.b #0080h, &0201h. -/
theorem test_bis_C76 : gives (step (setUp 0xC000 [0xD0F2, 0x0080, 0x0201] [(.sr, 0)] [(0x200, 0x102)]))
      [(.pc, 0xC006), (.sr, 0)] [(0x200, 0x8102)] = true := by decide

/-- C79: xor.w R5, R6. -/
theorem test_xor_C79 : gives (step (setUp 0xC000 [0xE506] [(.gp 1, 0x8000), (.gp 2, 0xC000), (.sr, 0)] []))
      [(.gp 2, 0x4000), (.pc, 0xC002), (.sr, 0x101)] [] = true := by decide

/-- C81: xor.b #00FFh, &0200h. -/
theorem test_xor_C81 : gives (step (setUp 0xC000 [0xE3F2, 0x0200] [(.sr, 0)] [(0x200, 0x1280)]))
      [(.pc, 0xC004), (.sr, 0x101)] [(0x200, 0x127F)] = true := by decide

/-- C84: and.b #0080h, R5. -/
theorem test_and_C84 : gives (step (setUp 0xC000 [0xF075, 0x0080] [(.gp 1, 0xFFFF), (.sr, 0)] []))
      [(.gp 1, 0x80), (.pc, 0xC004), (.sr, 5)] [] = true := by decide

/-- C85: and.w @R5+, &0210h. -/
theorem test_and_C85 : gives (step (setUp 0xC000 [0xF5B2, 0x0210] [(.gp 1, 0x200), (.sr, 0)] [(0x200, 0xFF00), (0x210, 0x1234)]))
      [(.gp 1, 0x202), (.pc, 0xC004), (.sr, 1)] [(0x210, 0x1200)] = true := by decide

/-- D01: adc.w R5. -/
theorem test_adc_D01 : gives (exec (.adc .word (.reg (.gp 1))) (setUp 0xC002 [] [(.gp 1, 0xFFFF), (.sr, 1)] []))
      [(.gp 1, 0), (.sr, 3)] [] = true := by decide

/-- D03: dadc.w R5. -/
theorem test_dadc_D03 : gives (exec (.dadc .word (.reg (.gp 1))) (setUp 0xC002 [] [(.gp 1, 0x999), (.sr, 1)] []))
      [(.gp 1, 0x1000)] [] = true := by decide

/-- D06: dec.w R5. -/
theorem test_dec_D06 : gives (exec (.dec .word (.reg (.gp 1))) (setUp 0xC002 [] [(.gp 1, 0x8000), (.sr, 0)] []))
      [(.gp 1, 0x7FFF), (.sr, 0x101)] [] = true := by decide

/-- D08: decd.w R5. -/
theorem test_decd_D08 : gives (exec (.decd .word (.reg (.gp 1))) (setUp 0xC002 [] [(.gp 1, 1), (.sr, 0)] []))
      [(.gp 1, 0xFFFF), (.sr, 4)] [] = true := by decide

/-- D10: inc.b &0200h. -/
theorem test_inc_D10 : gives (exec (.inc .byte (.absolute 0x200)) (setUp 0xC002 [] [(.sr, 0)] [(0x200, 0x7F)]))
      [(.sr, 0x104)] [(0x200, 0x80)] = true := by decide

/-- D11: incd.w R5. -/
theorem test_incd_D11 : gives (exec (.incd .word (.reg (.gp 1))) (setUp 0xC002 [] [(.gp 1, 0x7FFE), (.sr, 0)] []))
      [(.gp 1, 0x8000), (.sr, 0x104)] [] = true := by decide

/-- D13: sbc.w R5. -/
theorem test_sbc_D13 : gives (exec (.sbc .word (.reg (.gp 1))) (setUp 0xC002 [] [(.gp 1, 0), (.sr, 0)] []))
      [(.gp 1, 0xFFFF), (.sr, 4)] [] = true := by decide

/-- D16: inv.w R5. -/
theorem test_inv_D16 : gives (exec (.inv .word (.reg (.gp 1))) (setUp 0xC002 [] [(.gp 1, 0xFFFF), (.sr, 0)] []))
      [(.gp 1, 0), (.sr, 0x102)] [] = true := by decide

/-- D18: rla.b R10. -/
theorem test_rla_D18 : gives (exec (.rla .byte (.reg (.gp 6))) (setUp 0xC002 [] [(.gp 6, 0x81), (.sr, 0)] []))
      [(.gp 6, 2), (.sr, 0x101)] [] = true := by decide

/-- D21: rla.w 2(R5). -/
theorem test_rla_D21 : gives (exec (.rla .word (.indexed (.gp 1) 2)) (setUp 0xC002 [] [(.gp 1, 0x200), (.sr, 0)] [(0x202, 3)]))
      [(.sr, 0)] [(0x202, 6)] = true := by decide

/-- D22: rlc.w R11. -/
theorem test_rlc_D22 : gives (exec (.rlc .word (.reg (.gp 7))) (setUp 0xC002 [] [(.gp 7, 0x8000), (.sr, 1)] []))
      [(.gp 7, 1), (.sr, 0x101)] [] = true := by decide

/-- D24: br #0C200h. -/
theorem test_br_D24 : gives (exec (.br (.imm 0xC200)) (setUp 0xC002 [] [(.sr, 0)] []))
      [(.sr, 0)] [] = true := by decide

/-- D27: dint. -/
theorem test_dint_D27 : gives (exec (.dint) (setUp 0xC002 [] [(.sr, 0x10F)] []))
      [(.sr, 0x107)] [] = true := by decide

/-- D28: eint. -/
theorem test_eint_D28 : gives (exec (.eint) (setUp 0xC002 [] [(.sr, 0x107)] []))
      [(.sr, 0x10F)] [] = true := by decide

/-- D29: nop. -/
theorem test_nop_D29 : gives (exec (.nop) (setUp 0xC002 [] [(.gp 1, 0x1234), (.sr, 0x107)] []))
      [(.sr, 0x107)] [] = true := by decide

/-- D30: ret. -/
theorem test_ret_D30 : gives (exec (.ret) (setUp 0xC002 [] [(.sp, 0x3FE), (.sr, 0)] [(0x3FE, 0xC004)]))
      [(.sp, 0x400), (.sr, 0)] [] = true := by decide

/-- D32: clr.b &0201h. -/
theorem test_clr_D32 : gives (exec (.clr .byte (.absolute 0x201)) (setUp 0xC002 [] [(.sr, 0)] [(0x200, 0xFFFF)]))
      [(.sr, 0)] [(0x200, 0xFF)] = true := by decide

/-- D33: clrc. -/
theorem test_clrc_D33 : gives (exec (.clrc) (setUp 0xC002 [] [(.sr, 0x10F)] []))
      [(.sr, 0x10E)] [] = true := by decide

/-- D34: clrn. -/
theorem test_clrn_D34 : gives (exec (.clrn) (setUp 0xC002 [] [(.sr, 0x10F)] []))
      [(.sr, 0x10B)] [] = true := by decide

/-- D35: clrz. -/
theorem test_clrz_D35 : gives (exec (.clrz) (setUp 0xC002 [] [(.sr, 0x10F)] []))
      [(.sr, 0x10D)] [] = true := by decide

/-- D38: pop.w SP. -/
theorem test_pop_D38 : gives (exec (.pop .word (.reg .sp)) (setUp 0xC002 [] [(.sp, 0x3FE), (.sr, 0)] [(0x3FE, 0x300)]))
      [(.sp, 0x300), (.sr, 0)] [] = true := by decide

/-- D40: pop.w 0(SP). -/
theorem test_pop_D40 : gives (exec (.pop .word (.indexed .sp 0)) (setUp 0xC002 [] [(.sp, 0x3FE), (.sr, 0)] [(0x3FE, 0x1111), (0x400, 0x2222)]))
      [(.sp, 0x400), (.sr, 0)] [(0x400, 0x1111)] = true := by decide

/-- D41: setc. -/
theorem test_setc_D41 : gives (exec (.setc) (setUp 0xC002 [] [(.sr, 0)] []))
      [(.sr, 1)] [] = true := by decide

/-- D42: setn. -/
theorem test_setn_D42 : gives (exec (.setn) (setUp 0xC002 [] [(.sr, 0)] []))
      [(.sr, 4)] [] = true := by decide

/-- D43: setz. -/
theorem test_setz_D43 : gives (exec (.setz) (setUp 0xC002 [] [(.sr, 0)] []))
      [(.sr, 2)] [] = true := by decide

/-- D45: tst.w R5. -/
theorem test_tst_D45 : gives (exec (.tst .word (.reg (.gp 1))) (setUp 0xC002 [] [(.gp 1, 0x8000), (.sr, 0)] []))
      [(.sr, 5)] [] = true := by decide

/-! The machine around the CPU: vectors of 95_test_vectors.md, tables F and H. -/

/-- A machine at 0C010h with a stack at 0400h and a vector word at 0FFE4h (P1) and 0FFF2h (TACCR0). -/
def inProgram (sr : Word) : State := setUp 0xC010 [0x4303] [(.sp, 0x400), (.sr, sr)] [(0xFFE4, 0xC200), (0xFFF2, 0xC400)]

/-- `s` with P1IFG, P1IE given. -/
def withP1 (s : State) (ifg ie : Byte) : State := s.setPort .p1 { s.p1 with ifg := ifg, ie := ie }

/-- `s` with TACCTL0 given. -/
def withCtl0 (s : State) (v : Word) : State := s.setTimer (s.timer.mapBlock 0 fun b => { b with ctl := v })

/-- F01: entry through P1's vector, several sources, flag kept. -/
theorem test_entry_F01 : gives (step (withP1 (inProgram 0x000D) 8 8))
    [(.sp, 0x3FC), (.sr, 0), (.pc, 0xC200)] [(0x3FE, 0xC010), (0x3FC, 0x000D)] = true := by decide

/-- F03: entry through TACCR0's vector clears its one source's flag. -/
theorem test_entry_F03 : gives (step (withCtl0 (inProgram 8) 0x0011))
    [(.sp, 0x3FC), (.sr, 0), (.pc, 0xC400)] [(0x3FE, 0xC010), (0x3FC, 8), (0x162, 0x0010)] = true := by decide

/-- F04: nothing is accepted while GIE = 0. -/
theorem test_entry_F04 : gives (step (withP1 (inProgram 0) 8 8)) [(.sp, 0x400), (.sr, 0), (.pc, 0xC012)] [] = true := by decide

/-- F06: TACCR0 goes before P1. -/
theorem test_entry_F06 : gives (step (withCtl0 (withP1 (inProgram 8) 1 1) 0x0011)) [(.pc, 0xC400)] [(0x162, 0x0010)] = true := by
  decide

/-- H01: TACLR acts and stores nothing. -/
theorem test_tactl_H01 : gives (step (setUp 0xC000 [0x40B2, 0x0216, 0x0160] [] [])) [(.pc, 0xC006)] [(0x160, 0x0212), (0x170, 0)] =
    true := by decide

/-- H04: a word write to a port register. -/
theorem test_port_H04 : step (setUp 0xC000 [0x4382, 0x0022] [] []) = .fault (.unmappedAccess 0x22) := by rfl

/-- H05: a byte write to a timer register. -/
theorem test_timer_H05 : step (setUp 0xC000 [0x43C2, 0x0160] [] []) = .fault (.unmappedAccess 0x160) := by rfl

/-- H06 and H10: a rising edge on P1.3 sets its flag, and not with P1SEL.3 = 1. -/
theorem test_pin_H06 : (PortState.reset.pinChange 3 true).ifg = 8 := by decide
theorem test_pin_H10 : ({ PortState.reset with sel := 8 }.pinChange 3 true).ifg = 0 := by decide
/-- R359, 93_implementation_defined.md row 18: nothing happens to the flag of a pin with the reserved function, and PxOUT does not
drive it. -/
theorem test_pin_reserved : let p := { PortState.reset with sel2 := 8, dir := 0xFF, out := 0xFF, maySet := 0xFF }
    (p.pinChange 3 true).ifg = 0 ∧ (p.maySetFlag 3).ifg = 0 ∧ (p.maySetFlag 4).ifg = 16 ∧
      p.drives 3 = none ∧ p.drives 4 = some true := by decide
/-- R375, SCS = 1 (log 36): a second edge before the count adds no capture. -/
theorem test_capture_SCS_merges : let b := { CcBlock.reset with ctl := 0xC900 }
    let b1 := b.inputChange 7 true false true
    b1.inputChange 8 true false false = { b1 with inA := false } := by decide

/-- H14, counts 3 to 4: TACCR0's flag when TAR reaches it; then TAR = 0 and TAIFG. -/
theorem test_timer_H14 :
    let t : TimerState := { TimerState.reset with tactl := 0x0210, tar := 2, blocks := [{ CcBlock.reset with ccr := 3 }] }
    let t1 := (t.count 0).1
    (t1.tar, t1.taifg, t1.blocks.map CcBlock.ccifg, (t1.count 0).1.tar, (t1.count 0).1.taifg) =
      (3, false, [true], 0, true) := by decide

/-- R310: with SP at 0166h the pushed SR lands in TACCTL0 and makes its request stand, which outranks P1's. -/
theorem test_entry_selects_after_pushes : gives (step (withP1 ((inProgram 0x0019).setSp 0x166) 8 8))
    [(.sp, 0x162), (.sr, 0), (.pc, 0xC400)] [(0x162, 0x0010)] = true := by decide

/-- R72: P1SEL2 read as a word, though its even neighbour is RAM that holds nothing. -/
theorem test_port_word_read : step (setUp 0xC000 [0x4215, 0x0041] [] []) = .fault (.unmappedAccess 0x40) := by rfl

/-- R68: the source read comes before the fetch of the destination index word; neither byte holds a value. -/
theorem test_fetch_order : step (setUp 0xC000 [0x45A2] [(.gp 1, 0x300)] []) = .fault (.uninitialisedRead 0x300) := by rfl

/-- `s` with MOV_READS_DST true. -/
def movReads (s : State) : State := { s with platform := { s.platform with movReadsDst := true } }

/-- R201: `MOV R5, &0300h` to a byte that holds no value, by MOV_READS_DST. -/
theorem test_mov_reads_dst : step (movReads (setUp 0xC000 [0x4582, 0x0300] [] [])) = .fault (.uninitialisedRead 0x300) := by rfl
theorem test_mov_reads_no_dst : gives (step (setUp 0xC000 [0x4582, 0x0300] [(.gp 1, 7)] [])) [(.pc, 0xC004)] [(0x300, 7)] = true := by
  decide

/-- A block in capture mode on rising edges of CCIxA, with further control bits. -/
def captureBlock (more : Word) : CcBlock := { CcBlock.reset with ctl := 0x4100 ||| more }

/-- R375, R377: a capture takes TAR and sets CCIFG; a second one before a read sets COV as well. -/
theorem test_capture : (((captureBlock 0).inputChange 5 true false true).ccr, ((captureBlock 0).inputChange 5 true false true).ctl) =
    (5, 0x4101) := by decide
theorem test_capture_overflow :
    let b := ((captureBlock 0).inputChange 5 true false true).inputChange 6 true false false
    (b.inputChange 7 true false true).ctl = 0x4103 := by decide

/-- R375, SCS: a synchronised capture waits for a count. -/
theorem test_capture_synchronised : let b := (captureBlock 0x0800).inputChange 5 true false true
    (b.waiting, b.ctl, b.ccr, (b.counted 5 6 9 0).1.ctl) = (true, 0x4900, 0, 0x4901) := by decide

/-- R375: TACCR0 read by `MOV &0172h, R5` no longer counts as unread. -/
theorem test_capture_read :
    (match exec (.mov .word (.absolute 0x172) (.reg (.gp 1)))
      (State.reset.setTimer (State.reset.timer.mapBlock 0 fun b => { b with unread := true })) with
    | .next t => t.timer.blocks.map CcBlock.unread
    | _ => []) = [false, false, false] := by decide

/-- R201: at `MOV R5, &0172h` a free bit says whether TACCR0 counts as read, whatever MOV_READS_DST says. -/
theorem test_mov_to_taccr (reads : Bool) (n : Nat) : let s := State.reset.setDraws n
    s.noteDst .word (.write reads) (.mem 0x172) =
      (s.setTimer (if Config.freeBit n then s.timer.captureRead 0 else s.timer)).setDraws (n + 1) := by rfl
/-- R376, R377 (log 37): from TACCR0 = 1 in up/down mode, counting up, the next count is at 0 and up. -/
theorem test_updown_top_one : { TimerState.reset with
    tactl := 0x30, tar := 1, blocks := [{ CcBlock.reset with ccr := 1 }] }.nextTar = (0, false) := by decide

/-- E03, E06: words that are no instruction. -/
theorem test_illegal_E03 : step (setUp 0xC000 [0x1400] [] []) = .fault (.illegalEncoding 0x1400) := by rfl
theorem test_illegal_E06 : step (setUp 0xC000 [0x137F] [] []) = .fault (.illegalEncoding 0x137F) := by rfl

/-- A12, C20: operand forms the spec gives no meaning. -/
theorem test_refused_A12 : step (setUp 0xC000 [0x1030, 0x1234] [] []) = .refused (.unspecifiedOperand .constantNotWritable) := by
  rfl
theorem test_refused_C20 : step (setUp 0xC000 [0x4085, 0x0000] [(.gp 1, 0x200)] []) =
    .refused (.unspecifiedOperand .pcSourceWithIndexWord) := by rfl

/-- The interface places an instruction where the next step runs it. -/
theorem test_withFetchWord : gives (step (State.reset.withFetchWord 16 0x4314)) [(.gp 0, 1), (.pc, 2)] [] = true := by decide

/-! Witnesses: for every obligation with hypotheses, a concrete case that meets them. -/

theorem witness_DecodeOfEncode : (Instr.rla .word (.symbolic 0xFFFF)).wellFormed = true ∧
    (Instr.bic .byte (.indexed (.gp 11) 2) (.indexed .cg 0)).wellFormed = true := by decide

theorem witness_EncodeOfDecode : decode [0xC8D8, 2, 0, 7] = .ok (.bic .byte (.indexed (.gp 4) 2) (.indexed (.gp 4) 0), [7]) := by
  rfl

theorem witness_IllegalWords_unassigned :
    unassignedWord 0 ∧ unassignedWord 0x0FFF ∧ unassignedWord 0x1380 ∧ unassignedWord 0x1FFF := by
  unfold unassignedWord; decide

theorem witness_IllegalWords_excluded :
    excludedWord 0x10C0 ∧ excludedWord 0x10FF ∧ excludedWord 0x11C0 ∧ excludedWord 0x11FF ∧ excludedWord 0x12C0 ∧
      excludedWord 0x12FF ∧ excludedWord 0x1301 ∧ excludedWord 0x137F := by
  unfold excludedWord; decide

/-- The assigned words next to the holes, and the last one; with two index words there are enough. -/
theorem witness_IllegalWords_others :
    (¬unassignedWord 0x1000 ∧ ¬unassignedWord 0x137F ∧ ¬unassignedWord 0x2000 ∧ ¬unassignedWord 0xFFFF) ∧
    (¬excludedWord 0x1000 ∧ ¬excludedWord 0x10BF ∧ ¬excludedWord 0x1100 ∧ ¬excludedWord 0x1300 ∧ ¬excludedWord 0x2000) ∧
    extWords 0x1000 ≤ 2 ∧ extWords 0x1300 ≤ 2 ∧ extWords 0xFFFF ≤ 2 := by
  unfold unassignedWord excludedWord; decide

/-- A machine whose next word is no instruction. -/
def atIllegal (iw : Word) : State := setUp 0xC000 [iw] [] []

theorem witness_IllegalWords_unassigned_step : (atIllegal 0x0FFF).agenda = [] ∧ (atIllegal 0x0FFF).acceptable = none ∧
    (atIllegal 0x0FFF).cpuOff = false ∧ (atIllegal 0x0FFF).readWord (atIllegal 0x0FFF).pc = .ok 0x0FFF := ⟨rfl, rfl, rfl, rfl⟩
theorem witness_IllegalWords_excluded_step : (atIllegal 0x137F).agenda = [] ∧ (atIllegal 0x137F).acceptable = none ∧
    (atIllegal 0x137F).cpuOff = false ∧ (atIllegal 0x137F).readWord (atIllegal 0x137F).pc = .ok 0x137F := ⟨rfl, rfl, rfl, rfl⟩

theorem witness_InstructionLengthFromFirstWord :
    decode [0x40B2, 0x1234, 0x0200, 7] = .ok (.mov .word (.imm 0x1234) (.absolute 0x200), [7]) := by rfl

/-- A machine at `MOV #1234h, &0200h`. -/
def atMov : State := setUp 0xC000 [0x40B2, 0x1234, 0x0200] [] []

theorem witness_StepRunsTheDecodedInstruction : atMov.agenda = [] ∧ atMov.acceptable = none ∧ atMov.cpuOff = false ∧
    atMov.readWords atMov.pc 3 = .ok [0x40B2, 0x1234, 0x0200] ∧
    decode [0x40B2, 0x1234, 0x0200] = .ok (.mov .word (.imm 0x1234) (.absolute 0x200), []) := ⟨rfl, rfl, rfl, rfl, rfl⟩

/-- The machine `atMov` keeps what the invariant asks, and steps. -/
theorem witness_StepKeepsInvariant : atMov.Inv ∧ ∃ t, step atMov = .next t :=
  ⟨⟨by decide, by decide, by decide, by decide, by decide, by decide, by decide⟩, _, rfl⟩

/-- A machine with program memory from 0C000h on, whose environment raises reset. -/
def romMachine : State :=
  let s := setUp 0xC000 [] [] [(0xFFFE, 0xC001)]
  { s with
    platform := { defaultPlatform with memMap := port1Map ++ [⟨0xC000, 0x4000, .rom⟩, ⟨0, 0xC000, .ram⟩] }
    agenda := [.env .reset] }

theorem witness_ResetEventEffect : romMachine.agenda = .env .reset :: [] ∧
    romMachine.HoldsWord romMachine.platform.resetVector 0xC001 ∧
    romMachine.kindAt (evenWord romMachine.platform.resetVector) = .rom ∧
    romMachine.kindAt (evenWord romMachine.platform.resetVector + 1) = .rom :=
  ⟨rfl, ⟨.inr rfl, .inr rfl, rfl, rfl⟩, rfl, rfl⟩

theorem witness_PlatformNeverChanges : ∃ t, step atMov = .next t := ⟨_, rfl⟩

/-- A machine asleep in LPM0, with interrupts enabled or not. -/
def asleep (sr : Word) : State := setUp 0xC010 [] [(.sp, 0x400), (.sr, sr)] [(0xFFE4, 0xC200)]

theorem witness_OnlyInterruptOrResetWakes_idle :
    (asleep 0x18).agenda = [] ∧ (asleep 0x18).cpuOff = true ∧ (asleep 0x18).acceptable = none := ⟨rfl, rfl, rfl⟩
theorem witness_OnlyInterruptOrResetWakes_wake : (withP1 (asleep 0x18) 8 8).cpuOff = true ∧
    ∃ t, step (withP1 (asleep 0x18) 8 8) = .next t ∧ t.cpuOff = false := ⟨rfl, _, rfl, rfl⟩

theorem witness_StoppedForGood : let s := { withP1 (asleep 0x10) 8 8 with agenda := [.env (.pinChange .p1 3 true), .cpu] }
    s.cpuOff = true ∧ s.gie = false ∧ s.platform.nmiSources = [] ∧ s.nmi = [] ∧ Turn.env .reset ∉ s.agenda := by decide

theorem witness_HighestPriorityIsSelected :
    (withCtl0 (withP1 (inProgram 8) 1 1) 0x0011).acceptable = some ⟨0xFFF2, 25, [.ccifg 0]⟩ := by rfl

/-- Entries are ready: through P1's vector with several sources, through TACCR0's with one, and from LPM0. -/
theorem witness_InterruptEntryEffect_port :
    (withP1 (inProgram 0x000D) 8 8).EntryReady ⟨0xFFE4, 18, portSources .p1⟩ ∧
    (withP1 (inProgram 0x000D) 8 8).HoldsWord 0xFFE4 0xC200 ∧
    ∀ n ∈ cellsOf .word 0xFFE4, n ∉ entryCells (withP1 (inProgram 0x000D) 8 8) :=
  ⟨⟨rfl, rfl, rfl, by decide, by decide, by decide, by unfold stackRoom; decide⟩, ⟨.inl rfl, .inl rfl, rfl, rfl⟩, by decide⟩

theorem witness_EntryClearsSingleSourceFlag_single : (withCtl0 (inProgram 8) 0x0011).EntryReady ⟨0xFFF2, 25, [.ccifg 0]⟩ ∧
    ∃ t, step (withCtl0 (inProgram 8) 0x0011) = .next t :=
  ⟨⟨rfl, rfl, rfl, by decide, by decide, by decide, by unfold stackRoom; decide⟩, _, rfl⟩

theorem witness_EntryClearsSingleSourceFlag_several :
    (withP1 (inProgram 0x000D) 8 8).EntryReady ⟨0xFFE4, 18, portSources .p1⟩ ∧
    (∃ t, step (withP1 (inProgram 0x000D) 8 8) = .next t) ∧ ∀ i, portSources .p1 ≠ [i] :=
  ⟨witness_InterruptEntryEffect_port.1, ⟨_, rfl⟩, fun _ h => by cases h⟩

theorem witness_RetiUndoesInterruptEntry : (withP1 (asleep 0x18) 8 8).EntryReady ⟨0xFFE4, 18, portSources .p1⟩ ∧
    ∃ t, step (withP1 (asleep 0x18) 8 8) = .next t ∧
      let u := t.setGpr 0 7
      u.platform = (withP1 (asleep 0x18) 8 8).platform ∧ u.sp = t.sp ∧
      ∀ n ∈ entryCells (withP1 (asleep 0x18) 8 8), Memory.read u.mem n = Memory.read t.mem n :=
  ⟨⟨rfl, rfl, rfl, by decide, by decide, by decide, by unfold stackRoom; decide⟩, _, rfl, rfl, rfl, fun _ _ => rfl⟩

theorem witness_SlackAllowsEitherBehaviour : let s := { withP1 (inProgram 8) 8 8 with gieRose := true }
    s.agenda = [] ∧ s.acceptable = some ⟨0xFFE4, 18, portSources .p1⟩ ∧ s.slackOpen = true := ⟨rfl, rfl, rfl⟩

theorem witness_RegisterReadAfterWrite : Reg.gp 11 ≠ .gp 0 ∧ Reg.sp ≠ .cg := by decide

theorem witness_ByteMemoryReadAfterWrite :
    State.reset.kindAt 0xFFFF = .ram ∧ State.reset.kindAt 0 = .ram ∧ State.reset.kindAt 0x1F = .ram := by decide

theorem witness_WordsAreLittleEndian : let a : Word := 0xFFFF
    atMov.isRam (a &&& 0xFFFE) = true ∧ atMov.isRam ((a &&& 0xFFFE) + 1) = true := by decide
theorem witness_WordsAreLittleEndian_read : let a : Word := 0xC001
    atMov.isRam (a &&& 0xFFFE) = true ∧ atMov.isRam ((a &&& 0xFFFE) + 1) = true ∧
      atMov.readByte (a &&& 0xFFFE) = .ok 0xB2 ∧ atMov.readByte ((a &&& 0xFFFE) + 1) = .ok 0x40 :=
  ⟨rfl, rfl, rfl, rfl⟩

theorem witness_UnmappedAccesses : State.reset.kindAt (evenWord 0x21) = .port .p1 .pxin ∧
    State.reset.kindAt 0x42 = .port .p2 .pxsel2 ∧ State.reset.kindAt 0x177 = .timer (.taccr 2) ∧
    State.reset.kindAt (evenWord 0x161) = .timer .tactl ∧ State.reset.timer.read .tactl = some 0 ∧
    State.reset.kindAt (evenWord 0x41 + 1) = .port .p1 .pxsel2 ∧ State.reset.kindAt (evenWord 0x41) = .ram ∧
    State.reset.kindAt 0x12F = .unimplemented ∧ State.reset.kindAt (evenWord 0x12F + 1) = .unimplemented ∧ State.reset.kindAt (evenWord 0x12F) = .unimplemented ∧
    romMachine.kindAt 0xC000 = .rom ∧ romMachine.kindAt (evenWord 0xFFFF) = .rom := by decide

theorem witness_UnwrittenMemoryFaults : State.reset.kindAt 0x200 = .ram ∧ romMachine.kindAt 0xC000 = .rom ∧
    Memory.read State.reset.mem 0x200 = none ∧ Memory.read romMachine.mem 0xC000 = none := by decide

theorem witness_PortRegisterAccess : State.reset.kindAt 0x20 = .port .p1 .pxin ∧ State.reset.kindAt 0x42 = .port .p2 .pxsel2 ∧
    State.reset.p2.sel.getLsbD 7 = false ∧ State.reset.p2.sel2.getLsbD 7 = false := by
  decide

theorem witness_TimerRegisterWrites : State.reset.kindAt (evenWord 0x160) = .timer .tactl ∧ (4 : Word).getLsbD 2 = true ∧
    (0xFFFB : Word).getLsbD 2 = false ∧ State.reset.kindAt (evenWord 0x171) = .timer .tar ∧
    State.reset.kindAt (evenWord 0x172) = .timer (.taccr 0) ∧ State.reset.kindAt (evenWord 0x176) = .timer (.taccr 2) ∧
    State.reset.timer.blocks[0]? = some CcBlock.reset ∧ State.reset.timer.blocks[2]? = some CcBlock.reset := by decide

theorem witness_TacctlWrite : State.reset.kindAt (evenWord 0x162) = .timer (.tacctl 0) ∧
    State.reset.kindAt (evenWord 0x166) = .timer (.tacctl 2) ∧ State.reset.timer.blocks[0]? = some CcBlock.reset ∧
    State.reset.timer.blocks[2]? = some CcBlock.reset ∧ (0xFF1F : Word).extractLsb' 5 3 = 0 := by decide

theorem witness_AgentsNeverClearFlags : EnvAction.pinChange .p1 3 false ≠ .reset ∧
    (∀ k, EnvAction.pinChange .p1 3 false ≠ .nmiWithdraw k) ∧
    (∃ t, envStep (.pinChange .p1 3 false) (withP1 State.reset 8 0) = .ok t) ∧
    (withP1 State.reset 8 0).irqFlag (.port .p1 3) = true :=
  ⟨by decide, nofun, ⟨_, rfl⟩, by decide⟩

theorem witness_AgentsLeaveTheCpuAlone : EnvAction.timerCount ≠ .reset := by decide

/-- A machine with TACTL, TAR and TACCR0 given, counting down or up. -/
def counting (tactl tar ccr0 : Word) (down : Bool) : State :=
  State.reset.setTimer { TimerState.reset with
    tactl := tactl, tar := tar, down := down, blocks := [{ CcBlock.reset with ccr := ccr0 }, CcBlock.reset, CcBlock.reset] }

/-- Each mode, at the end of its range. -/
theorem witness_TimerCountEffect :
    ∀ s ∈ [counting 0x200 5 5 false, counting 0x210 5 5 false, counting 0x220 0xFFFF 5 false, counting 0x230 5 5 false,
      counting 0x230 1 5 true], s.timerClockStopped = false := by decide
theorem witness_TimerCountEffect_modes : [counting 0x200 5 5 false, counting 0x210 5 5 false, counting 0x220 0xFFFF 5 false,
    counting 0x230 5 5 false].map (fun s => (s.timer.mode, s.timer.blocks[0]?.isSome)) =
      [(0, true), (1, true), (2, true), (3, true)] := by decide

/-- A running machine whose block 1 is the given one. -/
def withBlock1 (b : CcBlock) : State :=
  let s := counting 0x220 5 5 false
  s.setTimer (s.timer.mapBlock 1 fun _ => b)

/-- Blocks in compare and in capture mode, with a capture waiting and without. -/
theorem witness_TimerCountEffect_blocks :
    [CcBlock.reset, captureBlock 0, { captureBlock 0x800 with waiting := true }].map
      (fun b => ((withBlock1 b).timerClockStopped, (withBlock1 b).timer.mode, (withBlock1 b).timer.blocks[1]? == some b, b.cap,
        b.waiting)) =
      [(false, 2, true, false, false), (false, 2, true, true, false), (false, 2, true, true, true)] := by decide

/-- A rising edge on CCI1A is selected, at once and synchronised; a falling one is not, and in compare mode none captures. -/
theorem witness_TimerCountEffect_capture : (withBlock1 (captureBlock 0)).timer.blocks[1]? = some (captureBlock 0) ∧
    (withBlock1 (captureBlock 0)).timer.mode ≠ 0 ∧ (captureBlock 0).cap = true ∧ (captureBlock 0).scs = false ∧
    selectedEdge (captureBlock 0).captureMode (captureBlock 0).cci ((captureBlock 0).setInput false true).cci ∧
    (captureBlock 0x800).cap = true ∧ (captureBlock 0x800).scs = true ∧
    selectedEdge (captureBlock 0x800).captureMode (captureBlock 0x800).cci ((captureBlock 0x800).setInput false true).cci ∧
    ¬selectedEdge (captureBlock 0).captureMode (captureBlock 0).cci ((captureBlock 0).setInput false false).cci ∧
    CcBlock.reset.cap = false := by
  unfold selectedEdge; decide

/-- A compare block in output mode `m` with TACCRx = 7. -/
def compareBlock (m : Word) : CcBlock := { CcBlock.reset with ctl := m <<< 5, ccr := 7 }

theorem witness_OutputModeTable : [0, 1, 2, 3, 4, 5, 6, 7].map (fun m => ((compareBlock m).cap, (compareBlock m).outMode)) =
    [(false, 0), (false, 1), (false, 2), (false, 3), (false, 4), (false, 5), (false, 6), (false, 7)] := by decide
theorem witness_OutputModeTable_events : (7 : Word) = (compareBlock 2).ccr ∧ (7 : Word) ≠ 9 ∧ (9 : Word) ≠ (compareBlock 2).ccr ∧
    (7 : Word) = (compareBlock 4).ccr ∧ (compareBlock 4).outMode ∈ [0, 1, 4, 5] ∧ (4 : Word).extractLsb' 5 3 = 0 := by decide

/-! Operands: R5 and R6 hold numbers, R7 the address of the bytes 81h, 02h; the stack lies at 0400h; PC is past the instruction
word. -/

def ready (sr a b : Word) : State :=
  setUp 0xC002 [] [(.sp, 0x400), (.sr, sr), (.gp 1, a), (.gp 2, b), (.gp 3, 0x200)]
    [(0x200, 0x0281), (0x400, 0xC400), (0x402, 0xC500)]

abbrev r5 : Src := .reg (.gp 1)
abbrev r6 : Dst := .reg (.gp 2)
abbrev at7 : Dst := .indexed (.gp 3) 1

/-- Register operands are ready whatever they hold. -/
theorem ready_registers (bw : Width) (use : DstUse) (flags : Bool) (sr a b : Word) (h : ∀ reads, use ≠ .write reads) :
    operandsReady bw r5 r6 use flags (ready sr a b) (a.setWidth bw.bits) (b.setWidth bw.bits) (ready sr a b) := by
  cases use <;> first | exact absurd rfl (h _) | (cases flags <;> cases bw <;> exact ⟨rfl, rfl, rfl, rfl, rfl, fun _ => rfl⟩)

/-- Byte operands in memory are ready: `0(R7)`, then `1(R7)`. -/
theorem ready_memory (use : DstUse) (flags : Bool) (h : ∀ reads, use ≠ .write reads) :
    operandsReady .byte (.indexed (.gp 3) 0) at7 use flags (ready 0 0 0) 0x81 2 (((ready 0 0 0).setPc 0xC004).setPc 0xC006) := by
  cases use <;> first | exact absurd rfl (h _) | (cases flags <;> exact ⟨rfl, rfl, rfl, rfl, rfl, fun _ => rfl⟩)

theorem witness_AddSubResults :
    operandsReady .word r5 r6 .readWrite true (ready 1 0x7FFF 0x8000) 0x7FFF 0x8000 (ready 1 0x7FFF 0x8000) ∧
    operandsReady .byte (.indexed (.gp 3) 0) at7 .readWrite true (ready 0 0 0) 0x81 2
      (((ready 0 0 0).setPc 0xC004).setPc 0xC006) :=
  ⟨ready_registers .word _ _ _ _ _ nofun, ready_memory _ _ nofun⟩

theorem witness_LogicResults :
    operandsReady .byte r5 r6 .readWrite true (ready 0 0x80 0xFF) 0x80 0xFF (ready 0 0x80 0xFF) ∧
    operandsReady .word r5 (.reg .sr) .readWrite false (ready 8 0xFFFF 0) 0xFFFF 8 (ready 8 0xFFFF 0) :=
  ⟨ready_registers .byte _ _ _ _ _ nofun, rfl, rfl, rfl, rfl, rfl, fun _ => rfl⟩

theorem witness_CompareAndTestResults :
    operandsReady .word r5 r6 .read true (ready 0 0x8000 0x7FFF) 0x8000 0x7FFF (ready 0 0x8000 0x7FFF) ∧
    operandsReady .byte r5 (.reg .sr) .read true (ready 8 0 0) 0 8 (ready 8 0 0) :=
  ⟨ready_registers .word _ _ _ _ _ nofun, rfl, rfl, rfl, rfl, rfl, fun _ => rfl⟩

theorem witness_CompareThenJump :
    operandsReady .word r5 r6 .read true (ready 0 0x8000 0x7FFF) 0x8000 0x7FFF (ready 0 0x8000 0x7FFF) ∧
    operandsReady .byte r5 r6 .read true (ready 0 0xFF 0xFF) 0xFF 0xFF (ready 0 0xFF 0xFF) :=
  ⟨ready_registers .word _ _ _ _ _ nofun, ready_registers .byte _ _ _ _ _ nofun⟩

/-- To memory that holds no value yet, and to R3, which discards; with MOV_READS_DST to memory that holds one. -/
theorem witness_MoveResult : ∀ dst ∈ [Dst.absolute 0xFFFF, .reg .cg],
    operandsReady .word (.autoinc (.gp 3)) dst (.write (ready 0 0 0).platform.movReadsDst) false
      (ready 0 0 0) 0x0281 0 (dstLocated .word (.autoinc (.gp 3)) dst (ready 0 0 0)) := by
  intro dst h
  rcases List.mem_pair.1 h with rfl | rfl <;> exact ⟨rfl, rfl, rfl, rfl, rfl, fun _ => rfl⟩
theorem witness_MoveResult_reads : let s := movReads (ready 0 7 0)
    operandsReady .word r5 (.absolute 0x200) (.write s.platform.movReadsDst) false s 7 0x0281
      (s.setPc 0xC004) :=
  ⟨rfl, rfl, rfl, rfl, rfl, fun _ => rfl⟩

theorem witness_DecimalAddResult_dadd :
    operandsReady .word r5 r6 .readWrite true (ready 1 0x0001 0x9999) 0x0001 0x9999 (ready 1 0x0001 0x9999) ∧
    decimalDigits 4 0x0001 = true ∧ decimalDigits 4 0x9999 = true :=
  ⟨ready_registers .word _ _ _ _ _ nofun, by decide, by decide⟩
theorem witness_DecimalAddResult_dadc :
    destinationReady .byte r6 (ready 1 0 0x99) 0x99 (ready 1 0 0x99) ∧ decimalDigits 2 0x99 = true :=
  ⟨⟨rfl, rfl, rfl, rfl, rfl, fun _ => rfl⟩, by decide⟩
theorem witness_DecimalAddResult_dadd_open :
    operandsReady .word r5 r6 .readWrite true (ready 0 0x000A 1) 0x000A 1 (ready 0 0x000A 1) ∧ decimalDigits 4 0x000A = false :=
  ⟨ready_registers .word _ _ _ _ _ nofun, by decide⟩
theorem witness_DecimalAddResult_dadc_open :
    destinationReady .word r6 (ready 0 0 0xF000) 0xF000 (ready 0 0 0xF000) ∧ decimalDigits 4 0xF000 = false :=
  ⟨⟨rfl, rfl, rfl, rfl, rfl, fun _ => rfl⟩, by decide⟩

theorem witness_RotateRightResults :
    modifyReady .word r5 true (ready 1 0x0001 0) 0x0001 (ready 1 0x0001 0) ∧ (ready 1 0x0001 0).carry = true ∧
    modifyReady .byte (.autoinc (.gp 3)) true (ready 0 0 0) 0x81 ((ready 0 0 0).setGpr 3 0x201) ∧ (ready 0 0 0).carry = false :=
  ⟨⟨rfl, rfl, rfl, rfl⟩, rfl, ⟨rfl, rfl, rfl, rfl⟩, rfl⟩

theorem witness_SwapAndExtendResults : modifyReady .word (.reg .sr) false (ready 0xF 0 0) 0xF (ready 0xF 0 0) ∧
    modifyReady .word (.indirect (.gp 3)) true (ready 0 0 0) 0x0281 (ready 0 0 0) :=
  ⟨⟨rfl, rfl, rfl, rfl⟩, rfl, rfl, rfl, rfl⟩

/-- `PUSH.B @SP+`, whose operand moves SP first. -/
theorem witness_PushResult : (ready 0 0 0).sp[0] = false ∧ Src.autoinc .sp ≠ .reg .sp ∧
    sourceReady .byte (.autoinc .sp) (ready 0 0 0) 0 ((ready 0 0 0).setSp 0x402) ∧
    ((ready 0 0 0).setSp 0x402).isRam (0x402 - 2) = true ∧ ((ready 0 0 0).setSp 0x402).isRam (0x402 - 1) = true :=
  ⟨rfl, by decide, ⟨rfl, rfl⟩, rfl, rfl⟩
/-- `PUSH SP` with SP at the bottom of the address space. -/
theorem witness_PushResult_sp : State.reset.sp[0] = false ∧ State.reset.isRam (State.reset.sp - 2) = true ∧
    State.reset.isRam (State.reset.sp - 1) = true := ⟨rfl, rfl, rfl⟩

theorem witness_CallResult : (ready 0 0 0).sp[0] = false ∧
    sourceReady .word (.indexed .sp 2) (ready 0 0 0) 0xC500 ((ready 0 0 0).setPc 0xC004) ∧
    ((ready 0 0 0).setPc 0xC004).isRam (0x400 - 2) = true ∧ ((ready 0 0 0).setPc 0xC004).isRam (0x400 - 1) = true :=
  ⟨rfl, ⟨rfl, rfl⟩, rfl, rfl⟩

theorem witness_RetUndoesCall : (ready 0 0 0).sp[0] = false ∧ (ready 0 0 0).pc[0] = false ∧
    sourceReady .word (.indexed .sp 2) (ready 0 0 0) 0xC500 ((ready 0 0 0).setPc 0xC004) ∧
    ∃ t, exec (.call (.indexed .sp 2)) (ready 0 0 0) = .next t ∧
      let w := t.setGpr 11 1
      w.platform = (ready 0 0 0).platform ∧ w.sp = t.sp ∧ ∀ n ∈ cellsOf .word t.sp, Memory.read w.mem n = Memory.read t.mem n :=
  ⟨rfl, rfl, ⟨rfl, rfl⟩, _, rfl, rfl, rfl, fun _ _ => rfl⟩

theorem witness_RetiResult : (ready 0 0 0).sp[0] = false ∧ (ready 0 0 0).readWord (ready 0 0 0).sp = .ok 0xC400 ∧
    (ready 0 0 0).readWord ((ready 0 0 0).sp + 2) = .ok 0xC500 := ⟨rfl, rfl, rfl⟩

theorem witness_EmulatedArithmeticResults :
    destinationReady .word r6 (ready 1 0 0xFFFF) 0xFFFF (ready 1 0 0xFFFF) ∧
    destinationReady .byte at7 (ready 0 0 0) 2 ((ready 0 0 0).setPc 0xC004) :=
  ⟨⟨rfl, rfl, rfl, rfl, rfl, fun _ => rfl⟩, rfl, rfl, rfl, rfl, rfl, fun _ => rfl⟩
theorem witness_EmulatedArithmeticResults_tst :
    operandsReady .word (.const .zero) (.reg .sp) .read true (ready 0 0 0) 0 0x400 (ready 0 0 0) :=
  ⟨rfl, rfl, rfl, rfl, rfl, fun _ => rfl⟩

/-- A symbolic operand, whose second index word lies 2 further on. -/
theorem witness_RotateLeftResults : let s := ready 1 0 0
    let dst : Dst := .symbolic 0x41FE
    s.pc[0] = false ∧ (dst.asSrc.wellFormed && dst.wellFormed) = true ∧
    operandsReady .byte dst.asSrc dst.again .readWrite true s 0x81 0x81 ((s.setPc 0xC004).setPc 0xC006) :=
  ⟨rfl, rfl, rfl, rfl, rfl, rfl, rfl, fun _ => rfl⟩

theorem witness_BranchReturnPopClear_br : sourceReady .word (.indirect (.gp 3)) (ready 0 0 0) 0x0281 (ready 0 0 0) := ⟨rfl, rfl⟩
theorem witness_BranchReturnPopClear_ret : (ready 0 0 0).readWord (ready 0 0 0).sp = .ok 0xC400 := by rfl
/-- POP to 0(SP), with the default MOV_READS_DST and with the other. -/
theorem witness_BranchReturnPopClear_pop : ∀ s ∈ [ready 0 0 0, movReads (ready 0 0 0)],
    let use : DstUse := .write s.platform.movReadsDst
    let p := (s.setSp (s.sp + 2)).noteLoad .word s.sp
    s.load .word s.sp = .ok 0xC400 ∧ twoOperandRefusal .word (.autoinc .sp) (.indexed .sp 0) use false = none ∧
    readDst .word use (dstLoc (.indexed .sp 0) p).1 (dstLoc (.indexed .sp 0) p).2 =
      .ok (if s.platform.movReadsDst then 0xC500 else 0) ∧
    writableLoc .word (dstLoc (.indexed .sp 0) p).1 (dstLoc (.indexed .sp 0) p).2 = true := by
  intro s h
  rcases List.mem_pair.1 h with rfl | rfl <;> exact ⟨rfl, rfl, rfl, rfl⟩
theorem witness_BranchReturnPopClear_clr : let s := ready 0 0 0
    let use : DstUse := .write s.platform.movReadsDst
    twoOperandRefusal .word (.const .zero) (.reg .pc) use false = none ∧
    readDst .word use (dstLoc (.reg .pc) s).1 (dstLoc (.reg .pc) s).2 = .ok 0 ∧
    writableLoc .word (dstLoc (.reg .pc) s).1 (dstLoc (.reg .pc) s).2 = true := ⟨rfl, rfl, rfl⟩

theorem witness_RefusedForms : (∀ r, Dst.absolute 0x200 ≠ .reg r) ∧ (∀ y, Dst.absolute 0x200 ≠ .indexed .cg y) ∧
    ∃ k, Src.const .minusOne = .const k := ⟨nofun, nofun, _, rfl⟩

/-! Frames: every instruction they name answers a next state (see `completes_next`), storing to memory or to a register. -/

/-- Every instruction of a list completes in a state. -/
def allComplete (is : List Instr) (s : State) : Bool := is.all (completes · s)

theorem witness_FlagWritingFrame : let d : Dst := .indexed (.gp 3) 0
    (Src.autoinc (.gp 3)).wellFormed = true ∧ d.asSrc.wellFormed = true ∧ allComplete
      [.add .byte (.autoinc (.gp 3)) d, .addc .byte (.autoinc (.gp 3)) d, .sub .byte (.autoinc (.gp 3)) d,
        .subc .byte (.autoinc (.gp 3)) d, .dadd .byte (.autoinc (.gp 3)) d, .xor .byte (.autoinc (.gp 3)) d,
        .and .byte (.autoinc (.gp 3)) d, .adc .byte d, .dadc .byte d, .sbc .byte d, .inc .byte d, .incd .byte d, .dec .byte d,
        .decd .byte d, .inv .byte d, .rla .byte d, .rlc .byte d] (ready 0 0 0) = true := by decide

theorem witness_CompareFrame : (Src.autoinc (.gp 3)).wellFormed = true ∧ allComplete
    [.cmp .word (.autoinc (.gp 3)) (.reg .sr), .bit .word (.autoinc (.gp 3)) (.reg .sr), .tst .byte at7] (ready 0 0 0) = true := by
  decide

theorem witness_MoveFrame : (Src.autoinc (.gp 3)).wellFormed = true ∧ allComplete
    [.mov .byte (.autoinc (.gp 3)) (.indexed (.gp 3) 0), .bic .byte (.autoinc (.gp 3)) (.indexed (.gp 3) 0),
      .bis .byte (.autoinc (.gp 3)) (.indexed (.gp 3) 0), .mov .word (.autoinc (.gp 3)) (.reg .sr),
      .bis .word (.autoinc (.gp 3)) (.reg .sr), .br (.autoinc (.gp 3)), .ret, .pop .word (.indexed .sp 0),
      .pop .word (.reg .sr), .clr .word (.absolute 0xFFFF)] (ready 0 0 0) = true := by decide

theorem witness_SingleOperandFrame : (Src.autoinc (.gp 3)).wellFormed = true ∧ (Src.reg .sr).wellFormed = true ∧ allComplete
    [.rrc .byte (.autoinc (.gp 3)), .rra .byte (.autoinc (.gp 3)), .sxt (.autoinc (.gp 3)), .swpb (.reg .sr),
      .swpb (.autoinc (.gp 3)), .push .byte (.autoinc (.gp 3)), .call (.autoinc (.gp 3)), .reti] (ready 0 0 0) = true := by decide

end Sys2Proof.Tests
end

section
/-! The proofs of 20_memory.md: a byte store to RAM and the byte reads after it. -/

namespace Sys2Proof.Machine

@[simp] theorem State.setMem_kindAt (s : State) (m : List Host.Cell) (a : Word) : (s.setMem m).kindAt a = s.kindAt a := rfl

/-- A byte read at RAM or program memory is a read of the cell, no device's. -/
theorem State.readByte_eq_readCell {s : State} {a : Word} (h : s.kindAt a = .ram ∨ s.kindAt a = .rom) :
    s.readByte a = s.readCell a := by
  rcases h with hk | hk <;> simp only [State.readByte, hk]

/-- A byte of memory depends on its own cell and the map alone. -/
theorem State.readCell_setMem_of_read_eq {s : State} {m : List Host.Cell} {a : Word}
    (h : Memory.read m a.toNat = Memory.read s.mem a.toNat) : (s.setMem m).readCell a = s.readCell a := by
  simp only [State.readCell, State.setMem_kindAt, State.setMem_mem, h]

/-- New memory that agrees at one address leaves the byte read there as it was, whatever kind the map gives it. -/
theorem State.readByte_setMem_of_read_eq {s : State} {m : List Host.Cell} {a : Word}
    (h : Memory.read m a.toNat = Memory.read s.mem a.toNat) : (s.setMem m).readByte a = s.readByte a := by
  simp only [State.readByte, State.setMem_kindAt, State.setMem_port, State.setMem_draws,
    State.readCell_setMem_of_read_eq h]

/-- A byte put in the cell of an address of RAM or program memory is the byte read there. -/
theorem State.readByte_setMem_write_same {s : State} {a : Word} (v : Byte) (h : s.kindAt a = .ram ∨ s.kindAt a = .rom) :
    (s.setMem (Memory.write s.mem a.toNat v)).readByte a = .ok v := by
  rw [State.readByte_eq_readCell (by simpa using h)]
  exact State.readCell_of_mem (by simpa using h) (Memory.read_write_same s.mem a.toNat v)

/-- A byte stored at one address leaves the byte read at every other as it was: different addresses have different cells. -/
theorem State.readByte_setMem_write_other {s : State} {a b : Word} (v : Byte) (h : b ≠ a) :
    (s.setMem (Memory.write s.mem a.toNat v)).readByte b = s.readByte b :=
  State.readByte_setMem_of_read_eq
    (Memory.read_write_other s.mem a.toNat b.toNat v fun e => h (BitVec.eq_of_toNat_eq e))

/-- Settles O22: the store to RAM is `State.writeByte_ram`, and the reads after it are the two rules above. -/
theorem byteMemoryReadAfterWrite : Obligations.ByteMemoryReadAfterWrite := by
  intro s a v hk
  have hram : s.isRam a = true := by simp only [State.isRam, hk, beq_self_eq_true]
  refine ⟨s.setMem (Memory.write s.mem a.toNat v), State.writeByte_ram v hram, ?same, ?other, ?cells⟩
  case same => exact State.readByte_setMem_write_same v (.inl hk)
  case other => exact fun b hb => State.readByte_setMem_write_other v hb
  case cells => exact fun n hn => Memory.read_write_other s.mem a.toNat n v hn

end Sys2Proof.Machine
end

section
/-! The proofs of 30_encoding.md: which words the decoder refuses (R118, R119), and that it reads every other word with as
many index words as R102 counts. -/

namespace Sys2Proof

/-! A decoder that takes index words off the front of the stream (30_encoding.md R101). -/

/-- Given at least `n` words, `f` answers and leaves the stream less its first `n` words. -/
def TakesWords {α : Type} (f : List Word → Except DecodeError (α × List Word)) (n : Nat) : Prop :=
  ∀ ws, n ≤ ws.length → ∃ x, f ws = .ok (x, ws.drop n)

/-- An operand or instruction that is complete without an index word. -/
theorem takesWords_ok {α : Type} (x : α) : TakesWords (fun ws => .ok (x, ws)) 0 :=
  fun _ _ => ⟨x, rfl⟩

theorem takesWords_takeIndex {α : Type} (k : Word → α) : TakesWords (takeIndex · k) 1
  | x :: _, _ => ⟨k x, rfl⟩

/-- A 4-bit field is the field of the register it names (10_state.md R20). -/
theorem Reg.field_ofField {n : Nat} (h : n < 16) : (Reg.ofField n).field = n := by
  match n with
  | 0 | 1 | 2 | 3 => rfl
  | k + 4 =>
    have hk : k % 12 = k := Nat.mod_eq_of_lt (by omega)
    simp [Reg.ofField, Reg.field, Fin.ofNat, hk]

/-- Each source mode takes the index words R102 counts for it (30_encoding.md R98, R100). -/
theorem takesWords_decodeSrc {as : Nat} (h : as < 4) (r : Reg) :
    TakesWords (decodeSrc as r) (srcExtWords as r.field) := by
  match as, r with
  | 0, .cg | 0, .pc | 0, .sp | 0, .sr | 0, .gp _ => exact takesWords_ok _
  | 1, .cg => exact takesWords_ok _
  | 1, .pc | 1, .sp | 1, .sr | 1, .gp _ => exact takesWords_takeIndex _
  | 2, .cg | 2, .pc | 2, .sp | 2, .sr | 2, .gp _ => exact takesWords_ok _
  | 3, .pc => exact takesWords_takeIndex _
  | 3, .cg | 3, .sp | 3, .sr | 3, .gp _ => exact takesWords_ok _

/-- Each destination mode takes as many index words as its bit Ad says (30_encoding.md R99, R102). -/
theorem takesWords_decodeDst {ad : Nat} (h : ad < 2) (r : Reg) : TakesWords (decodeDst ad r) ad := by
  match ad, r with
  | 0, _ => exact takesWords_ok _
  | 1, .cg | 1, .pc | 1, .sp | 1, .sr | 1, .gp _ => exact takesWords_takeIndex _

/-! The formats, in the terms of R102. -/

theorem srcField_lt (iw : Word) : srcField iw < 16 := Nat.mod_lt _ (by decide)
theorem adField_lt (iw : Word) : adField iw < 2 := Nat.mod_lt _ (by decide)
theorem bwField_lt (iw : Word) : bwField iw < 2 := Nat.mod_lt _ (by decide)
theorem asField_lt (iw : Word) : asField iw < 4 := Nat.mod_lt _ (by decide)
theorem dstField_lt (iw : Word) : dstField iw < 16 := Nat.mod_lt _ (by decide)
theorem op2Field_lt (iw : Word) : op2Field iw < 8 := Nat.mod_lt _ (by decide)

/-- A source operand decoded from its fields takes the index words R102 counts for them. -/
theorem takesWords_decodeSrc_ofField (iw : Word) {n : Nat} (hn : n < 16) :
    TakesWords (decodeSrc (asField iw) (Reg.ofField n)) (srcExtWords (asField iw) n) := by
  have h := takesWords_decodeSrc (asField_lt iw) (Reg.ofField n)
  rwa [Reg.field_ofField hn] at h

theorem takesWords_decodeFormatI (iw : Word) :
    TakesWords (decodeFormatI iw) (srcExtWords (asField iw) (srcField iw) + adField iw) := by
  intro ws hlen
  obtain ⟨src, hs⟩ := takesWords_decodeSrc_ofField iw (srcField_lt iw) ws (by omega)
  have hrest : adField iw ≤ (ws.drop (srcExtWords (asField iw) (srcField iw))).length := by
    rw [List.length_drop]; omega
  obtain ⟨dst, hd⟩ := takesWords_decodeDst (adField_lt iw) (Reg.ofField (dstField iw)) _ hrest
  exact ⟨formatIOf (opField iw) (Width.ofField (bwField iw)) src dst,
    by simp only [decodeFormatI, hs, hd, List.drop_drop]⟩

theorem takesWords_decodeOperand (iw : Word) (k : Src → Instr) :
    TakesWords (decodeOperand iw · k) (srcExtWords (asField iw) (dstField iw)) := by
  intro ws hlen
  obtain ⟨src, hs⟩ := takesWords_decodeSrc_ofField iw (dstField_lt iw) ws hlen
  exact ⟨k src, by simp only [decodeOperand, hs]⟩

/-- Opcode and width of a Format II word name an instruction of one operand: opcodes 0 to 5, the odd ones as words alone
(30_encoding.md R95, R119). -/
def OperandForm (iw : Word) : Prop := op2Field iw < 6 ∧ (bwField iw = 0 ∨ op2Field iw % 2 = 0)

/-- A Format II word of such an opcode and width is decoded as its one operand is. -/
theorem decodeFormatII_eq_decodeOperand {iw : Word} (h : OperandForm iw) :
    ∃ k, ∀ ws, decodeFormatII iw ws = decodeOperand iw ws k := by
  obtain ⟨hop, hbw⟩ := h
  unfold decodeFormatII
  generalize op2Field iw = op at hop hbw
  match op with
  | 0 | 2 | 4 => exact ⟨_, fun _ => rfl⟩
  | 1 | 3 | 5 =>
    have hb : bwField iw = 0 := by omega
    rw [hb]
    exact ⟨_, fun _ => rfl⟩

/-- The byte forms of SWPB, SXT and CALL are excluded (30_encoding.md R119). -/
theorem decodeFormatII_byteForm {iw : Word} (hop : op2Field iw < 6) (hodd : op2Field iw % 2 = 1) (hbw : bwField iw = 1)
    (ws : List Word) : decodeFormatII iw ws = .error (.excludedVariant iw) := by
  unfold decodeFormatII
  rw [hbw]
  generalize op2Field iw = op at hop hodd
  match op with
  | 1 | 3 | 5 => rfl

/-- Opcode 6 of Format II is RETI in one word alone (30_encoding.md R95, R119). -/
theorem decodeFormatII_reti {iw : Word} (hop : op2Field iw = 6) (ws : List Word) :
    decodeFormatII iw ws = if iw = 0x1300 then .ok (.reti, ws) else .error (.excludedVariant iw) := by
  simp only [decodeFormatII, hop]

/-- Opcode 7 of Format II is unassigned (30_encoding.md R118). -/
theorem decodeFormatII_unassigned {iw : Word} (hop : op2Field iw = 7) (ws : List Word) :
    decodeFormatII iw ws = .error (.unassigned iw) := by
  simp only [decodeFormatII, hop]

/-! The decoder and the count of index words, an equation per format. -/

theorem decode_jump {iw : Word} (h : iw.toNat / 8192 = 1) (rest : List Word) :
    decode (iw :: rest) = .ok (jumpOf (condField iw) (offField iw), rest) := by
  simp only [decode, if_pos h]

theorem decode_formatII {iw : Word} (h : iw.toNat / 1024 = 4) (rest : List Word) :
    decode (iw :: rest) = decodeFormatII iw rest := by
  rw [decode, if_neg (by omega), if_pos h]

theorem decode_formatI {iw : Word} (h : 4 ≤ opField iw) (rest : List Word) :
    decode (iw :: rest) = decodeFormatI iw rest := by
  have hop := h
  rw [opField] at hop
  rw [decode, if_neg (by omega), if_neg (by omega), if_pos h]

theorem decode_noFormat {iw : Word} (hj : iw.toNat / 8192 ≠ 1) (h2 : iw.toNat / 1024 ≠ 4) (h1 : opField iw < 4)
    (rest : List Word) : decode (iw :: rest) = .error (.unassigned iw) := by
  rw [decode, if_neg hj, if_neg h2, if_neg (by omega)]

theorem extWords_jump {iw : Word} (h : iw.toNat / 8192 = 1) : extWords iw = 0 := if_pos h

theorem extWords_formatII {iw : Word} (h : iw.toNat / 1024 = 4) (ha : OperandForm iw) :
    extWords iw = srcExtWords (asField iw) (dstField iw) := by
  rw [OperandForm] at ha
  rw [extWords, if_neg (by omega), if_pos h, if_pos ha]

theorem extWords_formatII_noOperand {iw : Word} (h : iw.toNat / 1024 = 4) (ha : ¬OperandForm iw) :
    extWords iw = 0 := by
  rw [OperandForm] at ha
  rw [extWords, if_neg (by omega), if_pos h, if_neg ha]

theorem extWords_formatI {iw : Word} (h : 4 ≤ opField iw) :
    extWords iw = srcExtWords (asField iw) (srcField iw) + adField iw := by
  have hop := h
  rw [opField] at hop
  rw [extWords, if_neg (by omega), if_neg (by omega), if_pos h]

theorem extWords_noFormat {iw : Word} (hj : iw.toNat / 8192 ≠ 1) (h2 : iw.toNat / 1024 ≠ 4) (h1 : opField iw < 4) :
    extWords iw = 0 := by
  rw [extWords, if_neg hj, if_neg h2, if_neg (by omega)]

end Sys2Proof

namespace Sys2Proof.Machine

/-! The address ranges of R118 and R119 as fields of the word. -/

/-- Unassigned are Format II's opcode 7 and the words of no format (30_encoding.md R118). -/
theorem unassignedWord_iff {iw : Word} : unassignedWord iw ↔ (iw.toNat / 1024 = 4 ∧ op2Field iw = 7) ∨
    (iw.toNat / 8192 ≠ 1 ∧ iw.toNat / 1024 ≠ 4 ∧ opField iw < 4) := by
  have := iw.isLt
  rw [unassignedWord, op2Field, opField]
  omega

/-- Excluded are the byte forms of SWPB, SXT and CALL, and all words of opcode 6 but RETI's (30_encoding.md R119). -/
theorem excludedWord_iff {iw : Word} : excludedWord iw ↔ iw.toNat / 1024 = 4 ∧
    ((op2Field iw < 6 ∧ op2Field iw % 2 = 1 ∧ bwField iw = 1) ∨ (op2Field iw = 6 ∧ iw ≠ 0x1300)) := by
  have hne : iw ≠ 0x1300 ↔ iw.toNat ≠ 0x1300 := by rw [ne_eq, ← BitVec.toNat_inj]; rfl
  rw [excludedWord, op2Field, bwField, hne]
  omega

theorem decode_unassignedWord {iw : Word} (h : unassignedWord iw) (rest : List Word) :
    decode (iw :: rest) = .error (.unassigned iw) := by
  obtain ⟨h2, hop⟩ | ⟨hj, h2, h1⟩ := unassignedWord_iff.mp h
  · rw [decode_formatII h2, decodeFormatII_unassigned hop]
  · exact decode_noFormat hj h2 h1 rest

theorem decode_excludedWord {iw : Word} (h : excludedWord iw) (rest : List Word) :
    decode (iw :: rest) = .error (.excludedVariant iw) := by
  obtain ⟨h2, ⟨hop, hodd, hbw⟩ | ⟨hop, hne⟩⟩ := excludedWord_iff.mp h
  · rw [decode_formatII h2, decodeFormatII_byteForm hop hodd hbw]
  · rw [decode_formatII h2, decodeFormatII_reti hop, if_neg hne]

/-- Of the Format II words without an operand, RETI's alone is an instruction (30_encoding.md R95). -/
theorem eq_reti_of_formatII {iw : Word} (h2 : iw.toNat / 1024 = 4) (ha : ¬OperandForm iw) (hu : ¬unassignedWord iw)
    (he : ¬excludedWord iw) : op2Field iw = 6 ∧ iw = 0x1300 := by
  have hlt := op2Field_lt iw
  have hbw := bwField_lt iw
  have hne7 : op2Field iw ≠ 7 := fun h => hu (unassignedWord_iff.mpr (.inl ⟨h2, h⟩))
  have hbyte : ¬(op2Field iw < 6 ∧ op2Field iw % 2 = 1 ∧ bwField iw = 1) :=
    fun h => he (excludedWord_iff.mpr ⟨h2, .inl h⟩)
  rw [OperandForm] at ha
  have hop : op2Field iw = 6 := by omega
  exact ⟨hop, not_not.mp fun hne => he (excludedWord_iff.mpr ⟨h2, .inr ⟨hop, hne⟩⟩)⟩

/-- A word that is neither unassigned nor excluded decodes, given its index words (30_encoding.md R102, R106, R107). -/
theorem takesWords_decode {iw : Word} (hu : ¬unassignedWord iw) (he : ¬excludedWord iw) :
    TakesWords (fun rest => decode (iw :: rest)) (extWords iw) := by
  by_cases hj : iw.toNat / 8192 = 1
  case pos =>
    simp only [decode_jump hj, extWords_jump hj]
    exact takesWords_ok _
  by_cases h2 : iw.toNat / 1024 = 4
  case pos =>
    simp only [decode_formatII h2]
    by_cases ha : OperandForm iw
    case pos =>
      obtain ⟨k, hk⟩ := decodeFormatII_eq_decodeOperand ha
      simp only [hk, extWords_formatII h2 ha]
      exact takesWords_decodeOperand iw k
    case neg =>
      obtain ⟨hop, rfl⟩ := eq_reti_of_formatII h2 ha hu he
      simp only [decodeFormatII_reti hop, if_true, extWords_formatII_noOperand h2 ha]
      exact takesWords_ok _
  have h1 : 4 ≤ opField iw := by
    by_contra h1
    exact hu (unassignedWord_iff.mpr (.inr ⟨hj, h2, by omega⟩))
  simp only [decode_formatI h1, extWords_formatI h1]
  exact takesWords_decodeFormatI iw

/-- A word that is no instruction takes no index word: it is refused as soon as it is read. -/
theorem extWords_of_illegal {iw : Word} (h : unassignedWord iw ∨ excludedWord iw) : extWords iw = 0 := by
  rw [unassignedWord_iff, excludedWord_iff] at h
  obtain (⟨h2, hop⟩ | ⟨hj, h2, h1⟩) | ⟨h2, hex⟩ := h
  · exact extWords_formatII_noOperand h2 fun ⟨hlt, _⟩ => by omega
  · exact extWords_noFormat hj h2 h1
  · exact extWords_formatII_noOperand h2 fun ⟨hlt, hwidth⟩ => by omega

/-! The step on a word that is no instruction (40_operands.md R130). -/

/-- With the turn the CPU's, no request to accept and the CPU on, a step is one instruction. -/
theorem step_eq_executeOne {s : State} (hturn : s.agenda = []) (hacc : s.acceptable = none) (hon : s.cpuOff = false) :
    step s = executeOne s := by
  simp only [step, stepTurn, hturn, cpuStep, hacc, hon, Bool.false_eq_true, if_false]

/-- A word that takes no index word is the whole of what is fetched. -/
theorem State.fetchWords_of_extWords_zero {s : State} {iw : Word} (hpc : s.readWord s.pc = .ok iw)
    (hext : extWords iw = 0) : s.fetchWords = .ok [iw] := by
  simp only [State.fetchWords, hpc, hext, State.readWords]

/-- Words the decoder refuses are the fault IllegalEncoding of the first of them (00_scope.md R10). -/
theorem executeOne_of_decode_error {s : State} {iw : Word} {ws : List Word} {e : DecodeError}
    (hws : s.fetchWords = .ok (iw :: ws)) (hdec : decode (iw :: ws) = .error e) :
    executeOne s = .fault (.illegalEncoding iw) := by
  simp only [executeOne, State.fetch, hws, hdec, List.headD_cons]

/-- Settles O3: the two refusals, the count of index words of every other word, and the fault of a step on a refused one. -/
theorem illegalWords : Obligations.IllegalWords := by
  intro iw rest
  refine ⟨fun h => decode_unassignedWord h rest, fun h => decode_excludedWord h rest,
    fun hu he hlen => takesWords_decode hu he rest hlen, ?fault⟩
  case fault =>
    intro h s hturn hacc hon hpc
    have hws : s.fetchWords = .ok [iw] := s.fetchWords_of_extWords_zero hpc (extWords_of_illegal h)
    rw [step_eq_executeOne hturn hacc hon]
    obtain hu | he := h
    · exact executeOne_of_decode_error hws (decode_unassignedWord hu [])
    · exact executeOne_of_decode_error hws (decode_excludedWord he [])

end Sys2Proof.Machine
end

section
/-! The proofs of 41_single_operand.md: what RETI completes with (R167), and which words of its opcode are illegal (R119). -/

namespace Sys2Proof.Machine

/-- The word after an even address is at an even address, as the stack's are (10_state.md R23). -/
theorem evenWord_add_two {v : Word} (h : v[0] = false) : evenWord (v + 2) = v + 2 :=
  evenWord_of_bit0 (by simp [BitVec.getElem_add, h])

/-- With the word at SP readable a pop completes, with that word (20_memory.md R74). -/
theorem State.pop_of_readWord {s : State} {v : Word} (h : s.readWord s.sp = .ok v) :
    s.pop = .ok (v, (s.noteLoad .word s.sp).setSp (s.sp + 2)) := by
  simp only [State.pop, h]

/-- With both words on the stack readable a return from interrupt completes (41_single_operand.md R167). -/
theorem State.returnFromInterrupt_of_readWord {s : State} {sr pc : Word} (hsr : s.readWord s.sp = .ok sr)
    (hpc : s.readWord (evenWord (s.sp + 2)) = .ok pc) :
    s.returnFromInterrupt = .ok ((s.afterPops sr).setPc pc) := by
  have hpop : (((s.noteLoad .word s.sp).setSp (s.sp + 2)).setSr sr).pop = .ok (pc, s.afterPops sr) :=
    State.pop_of_readWord ((s.readWord_afterPop s.sp _ (s.sp + 2) sr).trans hpc)
  simp only [State.returnFromInterrupt, State.pop_of_readWord hsr, hpop]

/-- Two pops from an even SP: each read leaves its note, the first word goes to SR, and SP is 4 more. -/
theorem State.afterPops_of_even {s : State} (hsp : s.sp[0] = false) (sr : Word) :
    s.afterPops sr = (((s.noteLoad .word s.sp).noteLoad .word (s.sp + 2)).setSr sr).setSp (s.sp + 4) := by
  have hfour : s.sp + 2 + 2 = s.sp + 4 := BitVec.add_assoc s.sp 2 2
  rw [State.afterPops, evenWord_add_two hsp, hfour]
  rfl

/-- Settles O48: the words by the decoder's excluded range, the result by the two pops of `State.returnFromInterrupt`. -/
theorem retiResult : Obligations.RetiResult := by
  refine ⟨rfl, fun iw hlo hhi rest => decode_excludedWord (.inr (.inr (.inr ⟨hlo, hhi⟩))) rest, ?result⟩
  case result =>
    intro s sr pc hsp hsr hpc
    rw [← evenWord_add_two hsp] at hpc
    rw [exec_reti, State.returnFromInterrupt_of_readWord hsr hpc, State.afterPops_of_even hsp, outcome]

end Sys2Proof.Machine
end

section
/-! The proofs of 44_emulated.md: the instructions that clear or set bits of SR by a generated constant (R247, R251 to R253). -/

namespace Sys2Proof.Machine

/-- A generated constant and SR as a word operand pair are ready in every state, and evaluating them changes nothing. -/
theorem operandsReady_const_sr (c : CgConst) (s : State) :
    operandsReady .word (.const c) (.reg .sr) .readWrite false s (constValue c) s.sr s :=
  ⟨rfl, rfl, rfl, rfl, rfl, fun _ => rfl⟩

/-- BIC of a generated constant and SR completes in every state, with the constant's bits cleared (43_two_operand.md R210). -/
theorem exec_of_bic_const_sr {i : Instr} {c : CgConst} {s : State}
    (hi : exec i s = outcome (twoOperand .word (.const c) (.reg .sr) .readWrite false (fun sv dv _ _ => bicW sv dv) s)) :
    exec i s = .next (s.setSr (s.sr &&& ~~~constValue c)) := by
  obtain ⟨t, hwrite, hexec⟩ := twoOperand_completes hi (operandsReady_const_sr c s) (by decide)
  have ht : s.setSr (~~~constValue c &&& s.sr) = t := Except.ok.inj hwrite
  rw [hexec, ← ht, BitVec.and_comm]

/-- BIS of a generated constant and SR completes in every state, with the constant's bits set (43_two_operand.md R211). -/
theorem exec_of_bis_const_sr {i : Instr} {c : CgConst} {s : State}
    (hi : exec i s = outcome (twoOperand .word (.const c) (.reg .sr) .readWrite false (fun sv dv _ _ => bisW sv dv) s)) :
    exec i s = .next (s.setSr (s.sr ||| constValue c)) := by
  obtain ⟨t, hwrite, hexec⟩ := twoOperand_completes hi (operandsReady_const_sr c s) (by decide)
  have ht : s.setSr (constValue c ||| s.sr) = t := Except.ok.inj hwrite
  rw [hexec, ← ht, BitVec.or_comm]

/-- Settles O53: the words by evaluating the encoder, each result by the rule of BIC or BIS with a constant and SR. -/
theorem flagBitInstructions : Obligations.FlagBitInstructions := by
  refine ⟨⟨rfl, rfl, rfl, rfl, rfl, rfl, rfl, rfl⟩, fun s => ⟨?clrc, ?setc, ?setn, ?setz⟩⟩
  case clrc => exact exec_of_bic_const_sr (c := .one) (exec_clrc s)
  case setc => exact exec_of_bis_const_sr (c := .one) (exec_setc s)
  case setn => exact exec_of_bis_const_sr (c := .four) (exec_setn s)
  case setz => exact exec_of_bis_const_sr (c := .two) (exec_setz s)

end Sys2Proof.Machine
end

section
/-! The proofs of 60_exceptions.md: what an interrupt entry pushes, clears and loads, and what it leaves alone (R310, R311). -/

namespace Sys2Proof.Machine

/-! The stack's addresses (10_state.md R23). -/

/-- Down a word from an even address is an even address, as every top of the stack is. -/
theorem evenWord_sub_two {v : Word} (h : v[0] = false) : evenWord (v - 2) = v - 2 :=
  evenWord_of_bit0 (by rw [BitVec.sub_eq_add_neg, BitVec.getElem_add]; simp [h])

theorem Word.sub_two_sub_two (v : Word) : v - 2 - 2 = v - 4 := by bv_omega

theorem Word.sub_two_add_one (v : Word) : v - 2 + 1 = v - 1 := by bv_omega

/-- Two pushes down from an even SP. -/
theorem evenWord_sub_four {v : Word} (h : v[0] = false) : evenWord (v - 4) = v - 4 := by
  have htwo : (v - 2)[0] = false := by rw [← evenWord_sub_two h, evenWord_bit0]
  rw [← Word.sub_two_sub_two, evenWord_sub_two htwo]

/-- The two words an entry pushes share no byte. -/
theorem cellsOf_sub_two_disjoint {sp : Word} (hsp : sp[0] = false) {n : Nat} (hn : n ∈ cellsOf .word (sp - 2)) :
    n ∉ cellsOf .word (sp - 4) := by
  simp only [cellsOf, evenWord_sub_two hsp, evenWord_sub_four hsp, List.mem_cons, List.not_mem_nil, or_false] at hn ⊢
  bv_omega

/-! Words that memory holds. -/

/-- A word stays held where its two bytes and the map stay. -/
theorem State.HoldsWord.congr {s t : State} {a w : Word} (h : s.HoldsWord a w) (hp : t.platform = s.platform)
    (hm : ∀ n ∈ cellsOf .word a, Memory.read t.mem n = Memory.read s.mem n) : t.HoldsWord a w := by
  have hk : ∀ b, t.kindAt b = s.kindAt b := fun b => by rw [State.kindAt, State.kindAt, hp]
  exact ⟨by rw [hk]; exact h.lowKind, by rw [hk]; exact h.highKind,
    (hm _ (by simp [cellsOf])).trans h.low, (hm _ (by simp [cellsOf])).trans h.high⟩

/-- A word pushed to RAM from an even SP: SP and memory change, the word lies where SP points, all other bytes stay
(20_memory.md R74). -/
theorem State.push_word_changes_mem {s : State} (v : Word) (hsp : s.sp[0] = false) (hlow : s.isRam (s.sp - 2) = true)
    (hhigh : s.isRam (s.sp - 1) = true) :
    ∃ m, s.push .word v = .ok ((s.setSp (s.sp - 2)).setMem m) ∧
      ((s.setSp (s.sp - 2)).setMem m).HoldsWord (s.sp - 2) v ∧
      ∀ n, n ∉ cellsOf .word (s.sp - 2) → Memory.read m n = Memory.read s.mem n := by
  obtain ⟨t, hpush, hholds, rfl⟩ := State.push_word_ram (s := s) v (by rwa [evenWord_sub_two hsp])
    (by rwa [evenWord_sub_two hsp, Word.sub_two_add_one])
  obtain ⟨hframe, -⟩ := State.push_frame hpush
  refine ⟨_, hpush, hholds, fun n hn => hframe.mem n ?_⟩
  rintro bw a ⟨⟩
  rwa [evenWord_sub_two hsp]

/-! The state between the two pushes and the vector (60_exceptions.md R310, R311). -/

/-- A state with the pins settled, SP two words further down and memory `m`: what the two pushes of an entry leave. -/
def State.afterPushes (s : State) (m : List Host.Cell) : State := (s.settlePins.setSp (s.sp - 4)).setMem m

@[simp] theorem State.afterPushes_mem (s : State) (m : List Host.Cell) : (s.afterPushes m).mem = m := rfl
@[simp] theorem State.afterPushes_sp (s : State) (m : List Host.Cell) : (s.afterPushes m).sp = evenWord (s.sp - 4) := rfl
@[simp] theorem State.afterPushes_nmi (s : State) (m : List Host.Cell) : (s.afterPushes m).nmi = s.nmi := rfl
@[simp] theorem State.afterPushes_timer (s : State) (m : List Host.Cell) : (s.afterPushes m).timer = s.timer := rfl
@[simp] theorem State.afterPushes_port (s : State) (m : List Host.Cell) (x : PortId) :
    (s.afterPushes m).port x = { s.port x with maySet := 0 } := by simp [State.afterPushes]

/-- With an even SP and room on the stack both pushes of an entry complete: PC lies a word below the old top of the stack, SR a
word below PC, and no other byte of memory changes. -/
theorem State.entryPushes_of_stackRoom {s : State} (hsp : s.sp[0] = false) (hroom : stackRoom s) :
    ∃ s1 m, s.settlePins.push .word s.pc = .ok s1 ∧ s1.push .word s.sr = .ok (s.afterPushes m) ∧
      (s.afterPushes m).HoldsWord (s.sp - 2) s.pc ∧ (s.afterPushes m).HoldsWord (s.sp - 4) s.sr ∧
      ∀ n, n ∉ entryCells s → Memory.read m n = Memory.read s.mem n := by
  obtain ⟨hram1, hram2, hram3, hram4⟩ := hroom
  obtain ⟨m1, hpushPc, hholdsPc, hmem1⟩ := State.push_word_changes_mem (s := s.settlePins) s.pc hsp hram2 hram1
  simp only [State.settlePins_sp, State.settlePins_mem] at hpushPc hholdsPc hmem1
  generalize hs1 : (s.settlePins.setSp (s.sp - 2)).setMem m1 = s1 at hpushPc hholdsPc
  have hsp1 : s1.sp = s.sp - 2 := by rw [← hs1]; exact evenWord_sub_two hsp
  have hram : ∀ a, s1.isRam a = s.isRam a := fun a => by rw [← hs1]; rfl
  have hodd : s.sp - 2 - 1 = s.sp - 3 := by bv_omega
  obtain ⟨m2, hpushSr, hholdsSr, hmem2⟩ := State.push_word_changes_mem (s := s1) s.sr
    (by rw [hsp1, ← evenWord_sub_two hsp, evenWord_bit0])
    (by rwa [hram, hsp1, Word.sub_two_sub_two]) (by rwa [hram, hsp1, hodd])
  rw [hsp1, Word.sub_two_sub_two] at hpushSr hholdsSr hmem2
  have hafter : (s1.setSp (s.sp - 4)).setMem m2 = s.afterPushes m2 := by rw [← hs1]; rfl
  have hmem : s1.mem = m1 := by rw [← hs1]; rfl
  rw [hafter] at hpushSr hholdsSr
  refine ⟨s1, m2, hpushPc, hpushSr, ?pc, hholdsSr, ?frame⟩
  case pc =>
    exact hholdsPc.congr (by rw [← hs1]; rfl) fun n hn => hmem2 n (cellsOf_sub_two_disjoint hsp hn)
  case frame =>
    intro n hn
    rw [entryCells, List.mem_append, not_or] at hn
    rw [hmem2 n hn.2, hmem, hmem1 n hn.1]

/-! The vector (60_exceptions.md R304, R310). -/

/-- The pushes leave the flags, the enables, GIE and the vectors alone, so that an entry goes through the vector selected at the
step boundary (log 16). -/
theorem State.entryVector_afterPushes {s : State} {v : VectorEntry} (h : s.acceptable = some v) (m : List Host.Cell) :
    (s.afterPushes m).entryVector v = v := by
  have hflag : (s.afterPushes m).irqFlag = s.irqFlag := by
    funext i; cases i <;> simp [State.irqFlag]
  have henable : (s.afterPushes m).irqEnable = s.irqEnable := by
    funext i; cases i <;> simp [State.irqEnable]
  have hsame : (s.afterPushes m).acceptable = s.acceptable := State.selectVector_congr hflag henable s.gie s.platform.vectors
  rw [State.entryVector, hsame, h, Option.getD_some]

/-! Clearing a single-source flag (60_exceptions.md R312). -/

/-- A port's registers but PxIFG do not depend on its flags. -/
theorem PortState.read_ifg (p : PortState) (f : Byte) (d : Nat) {r : PortReg} (hr : r ≠ .pxifg) :
    PortState.read { p with ifg := f } d r = p.read d r := by
  cases r with
  | pxifg => exact absurd rfl hr
  | _ => rfl

/-- No port register reads the note of which flags are at risk. -/
@[simp] theorem PortState.read_maySet (p : PortState) (b : Byte) (d : Nat) (r : PortReg) :
    PortState.read { p with maySet := b } d r = p.read d r := by cases r <;> rfl

theorem State.clearIrqFlag_portRead (s : State) (i : IrqSource) (x : PortId) (d : Nat) {r : PortReg} (hr : r ≠ .pxifg) :
    ((s.clearIrqFlag i).port x).read d r = (s.port x).read d r := by
  cases i with
  | port y k =>
    by_cases hxy : x = y
    · subst hxy
      rw [State.clearIrqFlag, State.setPort_port, PortState.read_ifg _ _ _ hr]
    · rw [State.clearIrqFlag, State.setPort_port_ne _ _ _ _ hxy]
  | taifg | ccifg y => rw [State.clearIrqFlag, State.setTimer_port]
  | nmi k => rw [State.clearIrqFlag, State.setNmi_port]

/-- Clearing the CCIFG bit of one block is lost where every flag is taken as 0. -/
theorem TimerState.noFlags_mapBlock_clear (t : TimerState) (x : Nat) :
    (t.mapBlock x fun b => { b with ctl := b.ctl &&& 0xFFFE }).noFlags = t.noFlags := by
  simp only [TimerState.mapBlock, TimerState.noFlags, TimerState.mk.injEq, true_and]
  refine List.ext_getElem? fun i => ?_
  simp only [List.getElem?_map, List.getElem?_modify]
  cases t.blocks[i]? <;> by_cases hxi : x = i <;> simp [hxi, BitVec.and_assoc]

theorem State.clearIrqFlag_noFlags (s : State) (i : IrqSource) : (s.clearIrqFlag i).timer.noFlags = s.timer.noFlags := by
  cases i with
  | taifg => simp [State.clearIrqFlag, TimerState.noFlags, BitVec.and_assoc]
  | ccifg x => exact s.timer.noFlags_mapBlock_clear x
  | port x k => rw [State.clearIrqFlag, State.setPort_timer]
  | nmi k => rw [State.clearIrqFlag, State.setNmi_timer]

theorem State.clearSingleSource_portRead (s : State) (v : VectorEntry) (x : PortId) (d : Nat) {r : PortReg}
    (hr : r ≠ .pxifg) : ((s.clearSingleSource v).port x).read d r = (s.port x).read d r := by
  unfold State.clearSingleSource
  split
  · exact s.clearIrqFlag_portRead _ x d hr
  · rfl

theorem State.clearSingleSource_noFlags (s : State) (v : VectorEntry) :
    (s.clearSingleSource v).timer.noFlags = s.timer.noFlags := by
  unfold State.clearSingleSource
  split
  · exact s.clearIrqFlag_noFlags _
  · rfl

/-! The entry as a whole (60_exceptions.md R310). -/

/-- The end of an entry through vector `v`, whose word is `w`: the single-source flag and SR cleared, PC loaded. -/
def State.entered (s : State) (v : VectorEntry) (w : Word) : State :=
  (((s.clearSingleSource v).setSr 0).setPc w).setGieRose false

/-- What the end of an entry keeps: SP, R4 to R15, memory, the agenda, the platform. -/
theorem State.entered_kept (s : State) (v : VectorEntry) (w : Word) :
    (s.entered v w).sp = s.sp ∧ (s.entered v w).gpr = s.gpr ∧ (s.entered v w).mem = s.mem ∧
      (s.entered v w).agenda = s.agenda ∧ (s.entered v w).platform = s.platform := by
  obtain ⟨-, hsp, -, hgpr, hmem, -, -, hagenda, hplatform⟩ := s.clearSingleSource_kept v
  exact ⟨hsp, hgpr, hmem, hagenda, hplatform⟩

theorem State.entered_portRead (s : State) (v : VectorEntry) (w : Word) (x : PortId) (d : Nat) {r : PortReg}
    (hr : r ≠ .pxifg) : ((s.entered v w).port x).read d r = (s.port x).read d r := by
  simpa [State.entered] using s.clearSingleSource_portRead v x d hr

/-- The end of an entry changes no byte of memory, so that every word held before it is held after it. -/
theorem State.HoldsWord.entered {s : State} {a u : Word} (h : s.HoldsWord a u) (v : VectorEntry) (w : Word) :
    (s.entered v w).HoldsWord a u := by
  obtain ⟨-, -, hmem, -, hplatform⟩ := s.entered_kept v w
  exact h.congr hplatform fun n _ => by rw [hmem]

/-- With the two pushes done, `v` still selected and its word readable, the entry completes. -/
theorem State.takeInterrupt_eq_entered {s s1 s2 : State} {v : VectorEntry} {w : Word}
    (hpc : s.settlePins.push .word s.pc = .ok s1) (hsr : s1.push .word s.sr = .ok s2) (hvector : s2.entryVector v = v)
    (hw : s2.HoldsWord v.address w) : s.takeInterrupt v = .ok (s2.entered v w) := by
  obtain ⟨-, -, -, -, hmem, -, -, -, hplatform⟩ := s2.clearSingleSource_kept v
  have hread : ((s2.clearSingleSource v).setSr 0).readWord v.address = .ok w :=
    (hw.congr hplatform fun n _ => congrArg (Memory.read · n) hmem).readWord
  simp only [State.takeInterrupt, hpc, hsr, hvector, hread, State.entered]

/-- With an entry ready the step is the entry (60_exceptions.md R303). -/
theorem State.EntryReady.step_eq {s : State} {v : VectorEntry} (h : s.EntryReady v) :
    step s = outcome (s.takeInterrupt v) := by
  simp only [step, stepTurn, h.turn, cpuStep, h.request, h.noSlack, Bool.false_eq_true, if_false]

/-- Settles O16: the two pushes, the vector they leave selected, and the end of the entry with what it keeps. -/
theorem interruptEntryEffect : Obligations.InterruptEntryEffect := by
  intro s v w hready hw hapart
  obtain ⟨s1, m, hpushPc, hpushSr, hholdsPc, hholdsSr, hmem⟩ :=
    State.entryPushes_of_stackRoom hready.spEven hready.room
  have hvector := State.entryVector_afterPushes hready.request m
  have hword : (s.afterPushes m).HoldsWord v.address w := hw.congr rfl fun n hn => hmem n (hapart n hn)
  obtain ⟨hsp, hgpr, hkept, hagenda, hplatform⟩ := (s.afterPushes m).entered_kept v w
  rw [State.afterPushes_sp, evenWord_sub_four hready.spEven] at hsp
  refine ⟨(s.afterPushes m).entered v w, ?step, hsp, (hholdsPc.entered v w).readWord, ?sr, rfl, rfl, hgpr, hplatform,
    hagenda.trans hready.turn, ?ports, (s.afterPushes m).clearSingleSource_noFlags v, ?mem⟩
  case step => rw [hready.step_eq, State.takeInterrupt_eq_entered hpushPc hpushSr hvector hword, outcome]
  case sr => rw [hsp]; exact (hholdsSr.entered v w).readWord
  case ports =>
    intro x d r hr
    have hne : r ≠ .pxifg := by rintro rfl; simp at hr
    rw [State.entered_portRead _ v w x d hne, State.afterPushes_port, PortState.read_maySet]
  case mem =>
    intro n hn
    rw [hkept, State.afterPushes_mem, hmem n hn]

end Sys2Proof.Machine
end

section
/-! The proofs of 30_encoding.md: the decoder and the encoder undo each other, format by format (R91 to R101), and the length of an
instruction follows from its first word (R102). -/

namespace Sys2Proof

/-! The fields of registers, widths and operands. -/

/-- A register is the one its field names (10_state.md R20). -/
theorem Reg.ofField_field (r : Reg) : Reg.ofField r.field = r := by
  cases r with
  | gp i =>
    have hi : i.val % 12 = i.val := Nat.mod_eq_of_lt i.isLt
    simp [Reg.field, Reg.ofField, Fin.ofNat, hi]
  | _ => rfl

theorem Width.ofField_field (bw : Width) : Width.ofField bw.field = bw := by cases bw <;> rfl

theorem Width.field_ofField {n : Nat} (h : n < 2) : (Width.ofField n).field = n := by
  match n with
  | 0 | 1 => rfl

theorem Width.field_lt (bw : Width) : bw.field < 2 := by cases bw <;> decide

theorem Width.bits_pos (bw : Width) : 0 < bw.bits := by cases bw <;> decide

/-- A well-formed source operand is read back from its fields and index words (30_encoding.md R98, R100). -/
theorem decodeSrc_encodeSrc {s : Src} (h : s.wellFormed = true) (rest : List Word) :
    decodeSrc (encodeSrc s).1 (encodeSrc s).2.1 ((encodeSrc s).2.2 ++ rest) = .ok (s, rest) := by
  cases s with
  | const c => cases c <;> rfl
  | imm v | symbolic x | absolute x => rfl
  | reg r | indirect r => cases r <;> first | rfl | exact absurd h (by decide)
  | indexed r x | autoinc r => cases r <;> first | rfl | exact absurd h Bool.false_ne_true

/-- A destination operand is read back from its fields and index words, but `x(PC)` and `x(SR)`, which are the symbolic and the
absolute mode (30_encoding.md R99). -/
theorem decodeDst_encodeDst {d : Dst} (h : d.wellFormed = true) (rest : List Word) :
    decodeDst (encodeDst d).1 (encodeDst d).2.1 ((encodeDst d).2.2 ++ rest) = .ok (d, rest) := by
  cases d with
  | reg r | symbolic x | absolute x => rfl
  | indexed r x => cases r <;> first | rfl | exact absurd h Bool.false_ne_true

/-- `f` took the index words `xs` off the front of `ws`. -/
theorem takeIndex_ok {α : Type} {k : Word → α} {ws rest : List Word} {y : α} (h : takeIndex ws k = .ok (y, rest)) :
    ∃ x, y = k x ∧ ws = x :: rest := by
  cases ws with
  | nil => cases h
  | cons x ws => cases h; exact ⟨x, rfl, rfl⟩

/-- A decoded source operand is well-formed and has the fields and index words it was decoded from. -/
theorem encodeSrc_of_decodeSrc {as : Nat} (has : as < 4) {r : Reg} {ws rest : List Word} {s : Src}
    (h : decodeSrc as r ws = .ok (s, rest)) :
    s.wellFormed = true ∧ ∃ xs, encodeSrc s = (as, r, xs) ∧ xs ++ rest = ws := by
  match as, r with
  | 0, .cg | 0, .pc | 0, .sp | 0, .sr | 0, .gp _ => cases h; exact ⟨rfl, [], rfl, rfl⟩
  | 1, .cg => cases h; exact ⟨rfl, [], rfl, rfl⟩
  | 1, .pc | 1, .sp | 1, .sr | 1, .gp _ => obtain ⟨x, rfl, rfl⟩ := takeIndex_ok h; exact ⟨rfl, [x], rfl, rfl⟩
  | 2, .cg | 2, .pc | 2, .sp | 2, .sr | 2, .gp _ => cases h; exact ⟨rfl, [], rfl, rfl⟩
  | 3, .pc => obtain ⟨x, rfl, rfl⟩ := takeIndex_ok h; exact ⟨rfl, [x], rfl, rfl⟩
  | 3, .cg | 3, .sp | 3, .sr | 3, .gp _ => cases h; exact ⟨rfl, [], rfl, rfl⟩

/-- A decoded destination operand is well-formed and has the fields and index words it was decoded from. -/
theorem encodeDst_of_decodeDst {ad : Nat} (had : ad < 2) {r : Reg} {ws rest : List Word} {d : Dst}
    (h : decodeDst ad r ws = .ok (d, rest)) :
    d.wellFormed = true ∧ ∃ xs, encodeDst d = (ad, r, xs) ∧ xs ++ rest = ws := by
  match ad, r with
  | 0, _ => cases h; exact ⟨rfl, [], rfl, rfl⟩
  | 1, .cg | 1, .pc | 1, .sp | 1, .sr | 1, .gp _ => obtain ⟨x, rfl, rfl⟩ := takeIndex_ok h; exact ⟨rfl, [x], rfl, rfl⟩

/-! The instruction words of the three formats, and their fields. -/

/-- The instruction word of Format I (30_encoding.md R91). -/
def wordI (op rs ad b as rd : Nat) : Word := BitVec.ofNat 16 (op * 4096 + rs * 256 + ad * 128 + b * 64 + as * 16 + rd)

/-- The instruction word of Format II (30_encoding.md R92). -/
def wordII (op b as r : Nat) : Word := BitVec.ofNat 16 (4096 + op * 128 + b * 64 + as * 16 + r)

/-- The instruction word of a jump (30_encoding.md R93). -/
def wordJump (c : Nat) (off : BitVec 10) : Word := BitVec.ofNat 16 (8192 + c * 1024 + off.toNat)

theorem wordI_fields {op rs ad b as rd : Nat} (hop : op < 16) (hrs : rs < 16) (had : ad < 2) (hb : b < 2) (has : as < 4)
    (hrd : rd < 16) : opField (wordI op rs ad b as rd) = op ∧ srcField (wordI op rs ad b as rd) = rs ∧
      adField (wordI op rs ad b as rd) = ad ∧ bwField (wordI op rs ad b as rd) = b ∧
      asField (wordI op rs ad b as rd) = as ∧ dstField (wordI op rs ad b as rd) = rd := by
  simp only [opField, srcField, adField, bwField, asField, dstField, wordI, BitVec.toNat_ofNat]
  omega

theorem wordII_fields {op b as r : Nat} (hop : op < 8) (hb : b < 2) (has : as < 4) (hr : r < 16) :
    (wordII op b as r).toNat / 1024 = 4 ∧ op2Field (wordII op b as r) = op ∧ bwField (wordII op b as r) = b ∧
      asField (wordII op b as r) = as ∧ dstField (wordII op b as r) = r := by
  simp only [op2Field, bwField, asField, dstField, wordII, BitVec.toNat_ofNat]
  omega

theorem wordJump_fields {c : Nat} (hc : c < 8) (off : BitVec 10) :
    (wordJump c off).toNat / 8192 = 1 ∧ condField (wordJump c off) = c ∧ offField (wordJump c off) = off := by
  have hoff := off.isLt
  have hword : (wordJump c off).toNat = 8192 + c * 1024 + off.toNat := by
    rw [wordJump, BitVec.toNat_ofNat]; omega
  refine ⟨by omega, by rw [condField]; omega, BitVec.eq_of_toNat_eq ?_⟩
  rw [offField, BitVec.toNat_ofNat]
  omega

/-- A word of an opcode from 4 on is put together from its fields. -/
theorem wordI_of_fields (iw : Word) :
    wordI (opField iw) (srcField iw) (adField iw) (bwField iw) (asField iw) (dstField iw) = iw := by
  apply BitVec.eq_of_toNat_eq
  simp only [opField, srcField, adField, bwField, asField, dstField, wordI, BitVec.toNat_ofNat]
  omega

theorem wordII_of_fields {iw : Word} (h : iw.toNat / 1024 = 4) :
    wordII (op2Field iw) (bwField iw) (asField iw) (dstField iw) = iw := by
  apply BitVec.eq_of_toNat_eq
  simp only [op2Field, bwField, asField, dstField, wordII, BitVec.toNat_ofNat]
  omega

theorem wordJump_of_fields {iw : Word} (h : iw.toNat / 8192 = 1) : wordJump (condField iw) (offField iw) = iw := by
  apply BitVec.eq_of_toNat_eq
  simp only [condField, offField, wordJump, BitVec.toNat_ofNat]
  omega

theorem encodeFormatI_eq (op : Nat) (bw : Width) (s : Src) (d : Dst) : encodeFormatI op bw s d =
    wordI op (encodeSrc s).2.1.field (encodeDst d).1 bw.field (encodeSrc s).1 (encodeDst d).2.1.field ::
      ((encodeSrc s).2.2 ++ (encodeDst d).2.2) := rfl

theorem encodeFormatII_eq (op : Nat) (bw : Width) (s : Src) : encodeFormatII op bw s =
    wordII op bw.field (encodeSrc s).1 (encodeSrc s).2.1.field :: (encodeSrc s).2.2 := rfl

theorem encodeJump_eq (c : Nat) (off : BitVec 10) : encodeJump c off = [wordJump c off] := rfl

/-! Core instructions by format. -/

/-- The Format II instruction of an opcode from 0 to 5 (30_encoding.md R95). -/
def formatIIOf (op : Nat) (bw : Width) (s : Src) : Instr :=
  match op with
  | 0 => .rrc bw s
  | 1 => .swpb s
  | 2 => .rra bw s
  | 3 => .sxt s
  | 4 => .push bw s
  | _ => .call s

/-- An instruction with words of its own: of Format I, of Format II (with an operand, or RETI), or a jump
(30_encoding.md R94 to R96). -/
inductive CoreForm : Instr → Prop
  | formatI (op : Nat) (bw : Width) (s : Src) (d : Dst) (hop : 4 ≤ op ∧ op < 16) : CoreForm (formatIOf op bw s d)
  | formatII (op : Nat) (bw : Width) (s : Src) (hop : op < 6) (hbw : bw.field = 0 ∨ op % 2 = 0) :
      CoreForm (formatIIOf op bw s)
  | reti : CoreForm .reti
  | jump (c : Nat) (off : BitVec 10) (hc : c < 8) : CoreForm (jumpOf c off)

/-- What the encoder, well-formedness and expansion say of a Format I instruction, whatever its opcode. -/
theorem formatIOf_spec {op : Nat} (hop : 4 ≤ op ∧ op < 16) (bw : Width) (s : Src) (d : Dst) :
    encodeCore (formatIOf op bw s d) = encodeFormatI op bw s d ∧
      (formatIOf op bw s d).wellFormed = (s.wellFormed && d.wellFormed) ∧
      (formatIOf op bw s d).expand = formatIOf op bw s d := by
  obtain ⟨hlo, hhi⟩ := hop
  interval_cases op <;> exact ⟨rfl, rfl, rfl⟩

/-- The same of a Format II instruction: SWPB, SXT and CALL have no width. -/
theorem formatIIOf_spec {op : Nat} (hop : op < 6) {bw : Width} (hbw : bw.field = 0 ∨ op % 2 = 0) (s : Src) :
    encodeCore (formatIIOf op bw s) = encodeFormatII op bw s ∧
      (formatIIOf op bw s).wellFormed = s.wellFormed ∧ (formatIIOf op bw s).expand = formatIIOf op bw s := by
  match op with
  | 0 | 2 | 4 => exact ⟨rfl, rfl, rfl⟩
  | 1 | 3 | 5 =>
    cases bw with
    | word => exact ⟨rfl, rfl, rfl⟩
    | byte => exact absurd hbw (by decide)

/-- The same of a jump. -/
theorem jumpOf_spec {c : Nat} (hc : c < 8) (off : BitVec 10) :
    encodeCore (jumpOf c off) = encodeJump c off ∧ (jumpOf c off).wellFormed = true ∧
      (jumpOf c off).expand = jumpOf c off := by
  interval_cases c <;> exact ⟨rfl, rfl, rfl⟩

/-- A core instruction is its own expansion (44_emulated.md R230). -/
theorem CoreForm.expand_eq {i : Instr} (h : CoreForm i) : i.expand = i := by
  cases h with
  | formatI op bw s d hop => exact (formatIOf_spec hop bw s d).2.2
  | formatII op bw s hop hbw => exact (formatIIOf_spec hop hbw s).2.2
  | reti => rfl
  | jump c off hc => exact (jumpOf_spec hc off).2.2

/-- Every instruction is a spelling of one with words of its own (44_emulated.md R230). -/
theorem Instr.expand_coreForm (i : Instr) : CoreForm i.expand := by
  have hI : ∀ op bw s d, (4 ≤ op ∧ op < 16) → CoreForm (formatIOf op bw s d) := CoreForm.formatI
  cases i with
  | rrc bw s => exact .formatII 0 bw s (by decide) (.inr rfl)
  | swpb s => exact .formatII 1 .word s (by decide) (.inl rfl)
  | rra bw s => exact .formatII 2 bw s (by decide) (.inr rfl)
  | sxt s => exact .formatII 3 .word s (by decide) (.inl rfl)
  | push bw s => exact .formatII 4 bw s (by decide) (.inr rfl)
  | call s => exact .formatII 5 .word s (by decide) (.inl rfl)
  | reti => exact .reti
  | jne o => exact .jump 0 o (by decide)
  | jeq o => exact .jump 1 o (by decide)
  | jnc o => exact .jump 2 o (by decide)
  | jc o => exact .jump 3 o (by decide)
  | jn o => exact .jump 4 o (by decide)
  | jge o => exact .jump 5 o (by decide)
  | jl o => exact .jump 6 o (by decide)
  | jmp o => exact .jump 7 o (by decide)
  | mov | br | nop | ret | clr | pop => exact hI 4 _ _ _ (by decide)
  | add | inc | incd | rla => exact hI 5 _ _ _ (by decide)
  | addc | adc | rlc => exact hI 6 _ _ _ (by decide)
  | subc | sbc => exact hI 7 _ _ _ (by decide)
  | sub | dec | decd => exact hI 8 _ _ _ (by decide)
  | cmp | tst => exact hI 9 _ _ _ (by decide)
  | dadd | dadc => exact hI 10 _ _ _ (by decide)
  | bit => exact hI 11 _ _ _ (by decide)
  | bic | dint | clrc | clrn | clrz => exact hI 12 _ _ _ (by decide)
  | bis | eint | setc | setn | setz => exact hI 13 _ _ _ (by decide)
  | xor | inv => exact hI 14 _ _ _ (by decide)
  | and => exact hI 15 _ _ _ (by decide)

/-- The second operand of RLA and RLC is well-formed where the first is. -/
theorem Dst.again_wellFormed (d : Dst) : d.again.wellFormed = d.wellFormed := by cases d <;> rfl

/-- Expansion keeps operands well-formed: those it adds are a constant, `@SP+`, a register, or RLA's and RLC's one operand again. -/
theorem Instr.expand_wellFormed {i : Instr} (h : i.wellFormed = true) : i.expand.wellFormed = true := by
  cases i with
  | rla bw d | rlc bw d => simpa [Instr.wellFormed, Instr.expand, Dst.again_wellFormed] using h
  | br s => simpa [Instr.wellFormed, Instr.expand, Dst.wellFormed] using h
  | _ => exact h

/-! The decoder after the encoder. -/

theorem decode_encodeFormatI {op : Nat} (hop : 4 ≤ op ∧ op < 16) (bw : Width) {s : Src} {d : Dst}
    (hs : s.wellFormed = true) (hd : d.wellFormed = true) (rest : List Word) :
    decode (encodeFormatI op bw s d ++ rest) = .ok (formatIOf op bw s d, rest) := by
  obtain ⟨hfop, hfs, hfad, hfbw, hfas, hfd⟩ := wordI_fields hop.2 (encodeSrc s).2.1.field_lt (encodeDst_words d).1
    bw.field_lt (encodeSrc_words s hs).1 (encodeDst d).2.1.field_lt
  rw [encodeFormatI_eq, List.cons_append, decode_formatI (by rw [hfop]; exact hop.1), decodeFormatI]
  simp only [hfop, hfs, hfad, hfbw, hfas, hfd, Reg.ofField_field, Width.ofField_field, List.append_assoc,
    decodeSrc_encodeSrc hs, decodeDst_encodeDst hd]

/-- Format II with an operand is decoded by its opcode, its width and its one operand (30_encoding.md R95). -/
theorem decodeFormatII_eq_formatIIOf {iw : Word} (h : OperandForm iw) (ws : List Word) :
    decodeFormatII iw ws = decodeOperand iw ws (formatIIOf (op2Field iw) (Width.ofField (bwField iw))) := by
  obtain ⟨hop, hbw⟩ := h
  unfold decodeFormatII
  generalize op2Field iw = op at hop hbw
  match op with
  | 0 | 2 | 4 => rfl
  | 1 | 3 | 5 => rw [show bwField iw = 0 by omega]; rfl

theorem decode_encodeFormatII {op : Nat} (hop : op < 6) {bw : Width} (hbw : bw.field = 0 ∨ op % 2 = 0) {s : Src}
    (hs : s.wellFormed = true) (rest : List Word) :
    decode (encodeFormatII op bw s ++ rest) = .ok (formatIIOf op bw s, rest) := by
  obtain ⟨hf, hfop, hfbw, hfas, hfd⟩ := wordII_fields (Nat.lt_trans hop (by decide)) bw.field_lt (encodeSrc_words s hs).1
    (encodeSrc s).2.1.field_lt
  rw [encodeFormatII_eq, List.cons_append, decode_formatII hf,
    decodeFormatII_eq_formatIIOf (by rw [OperandForm, hfop, hfbw]; exact ⟨hop, hbw⟩), decodeOperand]
  simp only [hfop, hfbw, hfas, hfd, Reg.ofField_field, Width.ofField_field, decodeSrc_encodeSrc hs]

theorem decode_encodeJump {c : Nat} (hc : c < 8) (off : BitVec 10) (rest : List Word) :
    decode (encodeJump c off ++ rest) = .ok (jumpOf c off, rest) := by
  obtain ⟨hf, hfc, hfoff⟩ := wordJump_fields hc off
  rw [encodeJump_eq, List.singleton_append, decode_jump hf, hfc, hfoff]

/-- The words of a well-formed core instruction decode to it. -/
theorem decode_encodeCore {i : Instr} (h : CoreForm i) (hi : i.wellFormed = true) (rest : List Word) :
    decode (encodeCore i ++ rest) = .ok (i, rest) := by
  cases h with
  | formatI op bw s d hop =>
    obtain ⟨henc, hwf, -⟩ := formatIOf_spec hop bw s d
    obtain ⟨hs, hd⟩ : s.wellFormed = true ∧ d.wellFormed = true := by rwa [hwf, Bool.and_eq_true] at hi
    rw [henc, decode_encodeFormatI hop bw hs hd]
  | formatII op bw s hop hbw =>
    obtain ⟨henc, hwf, -⟩ := formatIIOf_spec hop hbw s
    rw [henc, decode_encodeFormatII hop hbw (hwf ▸ hi)]
  | reti => rfl
  | jump c off hc => rw [(jumpOf_spec hc off).1, decode_encodeJump hc]

/-! The encoder after the decoder. -/

/-- What the decoder answers is a well-formed core instruction with the words it took: the statement of the round trip. -/
def DecodedFrom (ws : List Word) (i : Instr) (rest : List Word) : Prop :=
  CoreForm i ∧ i.wellFormed = true ∧ encodeCore i ++ rest = ws

theorem decodedFrom_formatI {iw : Word} (hop : 4 ≤ opField iw) {ws rest : List Word} {i : Instr}
    (h : decodeFormatI iw ws = .ok (i, rest)) : DecodedFrom (iw :: ws) i rest := by
  unfold decodeFormatI at h
  split at h
  · cases h
  rename_i s ws1 hs
  split at h
  · cases h
  rename_i d ws2 hd
  cases h
  obtain ⟨hws, xs, hencs, rfl⟩ := encodeSrc_of_decodeSrc (asField_lt iw) hs
  obtain ⟨hwd, ys, hencd, rfl⟩ := encodeDst_of_decodeDst (adField_lt iw) hd
  have hop16 : opField iw < 16 := by have := iw.isLt; rw [opField]; omega
  obtain ⟨henc, hwf, -⟩ := formatIOf_spec ⟨hop, hop16⟩ (Width.ofField (bwField iw)) s d
  refine ⟨.formatI _ _ s d ⟨hop, hop16⟩, by rw [hwf, hws, hwd]; rfl, ?words⟩
  case words =>
    rw [henc, encodeFormatI_eq, hencs, hencd]
    simp only [Reg.field_ofField (srcField_lt iw), Reg.field_ofField (dstField_lt iw), Width.field_ofField (bwField_lt iw),
      wordI_of_fields, List.cons_append, List.append_assoc]

theorem decodedFrom_formatII {iw : Word} (hf : iw.toNat / 1024 = 4) (ha : OperandForm iw) {ws rest : List Word} {i : Instr}
    (h : decodeFormatII iw ws = .ok (i, rest)) : DecodedFrom (iw :: ws) i rest := by
  rw [decodeFormatII_eq_formatIIOf ha, decodeOperand] at h
  split at h
  · cases h
  rename_i s ws1 hs
  cases h
  obtain ⟨hws, xs, hencs, rfl⟩ := encodeSrc_of_decodeSrc (asField_lt iw) hs
  have hbw := Width.field_ofField (bwField_lt iw)
  have hwidth : (Width.ofField (bwField iw)).field = 0 ∨ op2Field iw % 2 = 0 := by rw [hbw]; exact ha.2
  obtain ⟨henc, hwf, -⟩ := formatIIOf_spec ha.1 hwidth s
  refine ⟨.formatII _ _ s ha.1 hwidth, hwf.trans hws, ?words⟩
  case words =>
    rw [henc, encodeFormatII_eq, hencs]
    simp only [Reg.field_ofField (dstField_lt iw), hbw, wordII_of_fields hf, List.cons_append]

/-- Whatever the decoder answers, it took the words of a well-formed core instruction. -/
theorem decodedFrom_of_decode {ws rest : List Word} {i : Instr} (h : decode ws = .ok (i, rest)) :
    DecodedFrom ws i rest := by
  cases ws with
  | nil => cases h
  | cons iw ws =>
    have hu : ¬Machine.unassignedWord iw := fun hu => by rw [Machine.decode_unassignedWord hu] at h; cases h
    have he : ¬Machine.excludedWord iw := fun he => by rw [Machine.decode_excludedWord he] at h; cases h
    by_cases hj : iw.toNat / 8192 = 1
    case pos =>
      rw [decode_jump hj] at h
      cases h
      have hc : condField iw < 8 := Nat.mod_lt _ (by decide)
      obtain ⟨henc, hwf, -⟩ := jumpOf_spec hc (offField iw)
      exact ⟨.jump _ _ hc, hwf, by rw [henc, encodeJump_eq, wordJump_of_fields hj]; rfl⟩
    by_cases h2 : iw.toNat / 1024 = 4
    case pos =>
      rw [decode_formatII h2] at h
      by_cases ha : OperandForm iw
      case pos => exact decodedFrom_formatII h2 ha h
      case neg =>
        obtain ⟨hop, rfl⟩ := Machine.eq_reti_of_formatII h2 ha hu he
        rw [decodeFormatII_reti hop, if_pos rfl] at h
        cases h
        exact ⟨.reti, rfl, rfl⟩
    have h1 : 4 ≤ opField iw := by
      by_contra h1
      exact hu (Machine.unassignedWord_iff.mpr (.inr ⟨hj, h2, by omega⟩))
    rw [decode_formatI h1] at h
    exact decodedFrom_formatI h1 h

/-! The length (30_encoding.md R102). -/

/-- A well-formed core instruction has the words its first word counts. -/
theorem CoreForm.wordCount {i : Instr} (h : CoreForm i) (hi : i.wellFormed = true) :
    ∃ iw xs, encodeCore i = iw :: xs ∧ extWords iw = xs.length := by
  cases h with
  | formatI op bw s d hop =>
    obtain ⟨henc, hwf, -⟩ := formatIOf_spec hop bw s d
    rw [henc]
    exact Laws.WordCount.formatI hop bw d (Laws.WordCount.both (hwf ▸ hi))
  | formatII op bw s hop hbw =>
    obtain ⟨henc, hwf, -⟩ := formatIIOf_spec hop hbw s
    rw [henc]
    exact Laws.WordCount.formatII hop bw hbw (hwf ▸ hi)
  | reti => exact ⟨_, _, rfl, by decide⟩
  | jump c off hc => rw [(jumpOf_spec hc off).1]; exact Laws.WordCount.jump hc off

/-- The decoder takes the index words its first word counts, and they are there. -/
theorem rest_of_decode {iw : Word} {ws rest : List Word} {i : Instr} (h : decode (iw :: ws) = .ok (i, rest)) :
    extWords iw ≤ ws.length ∧ rest = ws.drop (extWords iw) := by
  obtain ⟨hcore, hwf, hwords⟩ := decodedFrom_of_decode h
  obtain ⟨jw, xs, henc, hlen⟩ := hcore.wordCount hwf
  rw [henc, List.cons_append] at hwords
  cases hwords
  rw [hlen]
  exact ⟨by simp, by simp⟩

/-- The bits R102 names are the fields the decoder reads. -/
theorem extractLsb'_eq_field (iw : Word) : (iw.extractLsb' 4 2).toNat = asField iw ∧
    (iw.extractLsb' 0 4).toNat = dstField iw ∧ (iw.extractLsb' 8 4).toNat = srcField iw ∧
    (iw.extractLsb' 7 1).toNat = adField iw ∧ (iw.extractLsb' 12 4).toNat = opField iw ∧
    (iw.extractLsb' 13 3 = 0b001#3 ↔ iw.toNat / 8192 = 1) ∧ (iw.extractLsb' 10 6 = 0b000100#6 ↔ iw.toNat / 1024 = 4) := by
  have := iw.isLt
  simp only [← BitVec.toNat_inj, BitVec.extractLsb'_toNat, BitVec.toNat_ofNat, Nat.shiftRight_eq_div_pow, asField, dstField,
    srcField, adField, opField, true_and]
  and_intros <;> omega

/-- The formula of R102 in the decoder's fields. -/
theorem Machine.instructionLength_eq_fields (iw : Word) : Machine.instructionLength iw =
    if iw.toNat / 8192 = 1 then some 1
    else if iw.toNat / 1024 = 4 then some (1 + srcExtWords (asField iw) (dstField iw))
    else if 4 ≤ opField iw then some (1 + srcExtWords (asField iw) (srcField iw) + adField iw)
    else none := by
  obtain ⟨has, hdst, hsrc, had, hop, hjump, htwo⟩ := extractLsb'_eq_field iw
  simp only [Machine.instructionLength, has, hdst, hsrc, had, hop, hjump, htwo, srcExtWords]

/-- The formula of R102 counts one word and the index words the decoder takes, for every word that is an instruction's first. -/
theorem Machine.instructionLength_eq {iw : Word} (hu : ¬Machine.unassignedWord iw) (he : ¬Machine.excludedWord iw) :
    Machine.instructionLength iw = some (extWords iw + 1) := by
  rw [Machine.instructionLength_eq_fields]
  by_cases hj : iw.toNat / 8192 = 1
  case pos => rw [if_pos hj, extWords_jump hj]
  by_cases h2 : iw.toNat / 1024 = 4
  case pos =>
    rw [if_neg hj, if_pos h2]
    by_cases ha : OperandForm iw
    case pos => rw [extWords_formatII h2 ha, Nat.add_comm]
    case neg =>
      obtain ⟨-, rfl⟩ := Machine.eq_reti_of_formatII h2 ha hu he
      decide
  have h1 : 4 ≤ opField iw := by
    by_contra h1
    exact hu (Machine.unassignedWord_iff.mpr (.inr ⟨hj, h2, by omega⟩))
  rw [if_neg hj, if_neg h2, if_pos h1, extWords_formatI h1]
  congr 1
  omega

/-- Settles O1: every instruction is a spelling of a core one, and each format's decoder reads back its encoder's words. -/
theorem decodeOfEncode : Obligations.DecodeOfEncode :=
  fun i rest hi => decode_encodeCore i.expand_coreForm (Instr.expand_wellFormed hi) rest

/-- Settles O2: by the format of the first word, the fields it was decoded from are those it is encoded to. -/
theorem encodeOfDecode : Obligations.EncodeOfDecode := by
  intro ws rest i h
  obtain ⟨hcore, hwf, hwords⟩ := decodedFrom_of_decode h
  exact ⟨hwf, hcore.expand_eq, by rwa [encode, hcore.expand_eq]⟩

/-- Settles O4: R102 counts the index words that the decoder takes. -/
theorem instructionLengthFromFirstWord : Obligations.InstructionLengthFromFirstWord := by
  refine ⟨fun iw more rest i h => ?formula, by decide, by decide⟩
  case formula =>
    have hu : ¬Machine.unassignedWord iw := fun hu => by rw [Machine.decode_unassignedWord hu] at h; cases h
    have he : ¬Machine.excludedWord iw := fun he => by rw [Machine.decode_excludedWord he] at h; cases h
    obtain ⟨hlen, hrest⟩ := rest_of_decode h
    exact ⟨extWords iw + 1, Machine.instructionLength_eq hu he, Nat.succ_le_succ hlen, hrest⟩

/-- Settles O5: each word list is evaluated. -/
theorem sampleWordsDecode : Obligations.SampleWordsDecode := by
  refine ⟨?rrc, ?call, ?reti, ?jne, ?cmp, ?bic, ?xor⟩ <;> rfl

end Sys2Proof
end

section
/-! The proofs about steps: what every instruction and every agent keeps (10_state.md, 20_memory.md, 60_exceptions.md section 8),
which request is accepted (60_exceptions.md R302 to R306), and what a CPU that is off can do (R331, R332). -/

namespace Sys2Proof.Machine

/-! The two fields of the model's own (logs 12, 15) stand outside the invariant. -/

theorem State.setAgenda_inv {s : State} (l : List Turn) (hs : s.Inv) : (s.setAgenda l).Inv := { hs with }

theorem State.setGieRose_inv {s : State} (b : Bool) (hs : s.Inv) : (s.setGieRose b).Inv := { hs with }

/-! The shared frames keep the platform (20_memory.md R71). -/

theorem srcState_platform (bw : Width) (src : Src) (s : State) : (srcState bw src s).platform = s.platform := by
  cases src <;> simp [srcState, srcLoc]

theorem dstLoc_platform (dst : Dst) (s : State) : (dstLoc dst s).2.platform = s.platform := (dstLoc_frame dst s).1.platform

theorem writeLoc_platform {bw : Width} {loc : Loc} {res : BitVec bw.bits} {s t : State} (h : writeLoc bw loc res s = .ok t) :
    t.platform = s.platform := by
  obtain ⟨r, -, rfl⟩ | ⟨a, -, hstore⟩ | ⟨-, rfl⟩ := writeLoc_ok h
  · exact s.writeReg_platform r _
  · exact (State.store_frame hstore).1.platform
  · rfl

theorem twoOperand_platform {bw : Width} {src : Src} {dst : Dst} {use : DstUse} {flags : Bool}
    {f : BitVec bw.bits → BitVec bw.bits → Bool → Nat → Alu bw.bits} {s t : State}
    (h : twoOperand bw src dst use flags f s = .ok t) : t.platform = s.platform := by
  obtain ⟨-, sv, dv, u, -, -, rfl, hend⟩ := twoOperand_ok h
  have hu : ((dstLocated bw src dst s).noteDst bw use (dstAfterSrc bw src dst s)).platform = s.platform := by
    rw [State.noteDst_platform, dstLocated, dstLoc_platform, srcState_platform]
  split at hend
  · cases hend; exact (State.applyAlu_platform _ _).trans hu
  · exact (writeLoc_platform hend).trans ((State.applyAlu_platform _ _).trans hu)

theorem modifyOperand_platform {bw : Width} {src : Src} {flags : Bool}
    {f : BitVec bw.bits → Bool → Nat → Alu bw.bits} {s t : State} (h : modifyOperand bw src flags f s = .ok t) :
    t.platform = s.platform := by
  obtain ⟨-, v, u, -, rfl, hwrite⟩ := modifyOperand_ok h
  rw [writeLoc_platform hwrite, State.applyAlu_platform, srcState_platform]

theorem pushOperand_platform {bw : Width} {src : Src} {s t : State} (h : pushOperand bw src s = .ok t) :
    t.platform = s.platform := by
  obtain ⟨v, -, hpush⟩ := pushOperand_ok h
  exact (State.push_frame hpush).1.platform.trans (srcState_platform bw src s)

theorem callOperand_platform {src : Src} {s t : State} (h : callOperand src s = .ok t) : t.platform = s.platform := by
  obtain ⟨target, s2, -, hpush, rfl⟩ := callOperand_ok h
  exact (State.push_frame hpush).1.platform.trans (srcState_platform .word src s)

theorem State.returnFromInterrupt_platform {s t : State} (h : s.returnFromInterrupt = .ok t) : t.platform = s.platform := by
  obtain ⟨sr, pc, -, -, rfl⟩ := State.returnFromInterrupt_ok h
  rfl

theorem jumpIf_platform (c : Bool) (off : BitVec 10) (s : State) : (jumpIf c off s).platform = s.platform := by
  unfold jumpIf; split <;> rfl

/-! Every instruction is one of the shared frames. -/

/-- An emulated instruction means its expansion (44_emulated.md R230). -/
theorem exec_expand (i : Instr) (s : State) : exec i s = exec i.expand s := by cases i <;> rfl

/-- The shared frame an instruction's completion came from. -/
inductive FrameRun (s t : State) : Prop
  | twoOperand {bw : Width} {src : Src} {dst : Dst} {use : DstUse} {flags : Bool}
      {f : BitVec bw.bits → BitVec bw.bits → Bool → Nat → Alu bw.bits} (h : twoOperand bw src dst use flags f s = .ok t)
  | modify {bw : Width} {src : Src} {flags : Bool} {f : BitVec bw.bits → Bool → Nat → Alu bw.bits}
      (h : modifyOperand bw src flags f s = .ok t)
  | push {bw : Width} {src : Src} (h : pushOperand bw src s = .ok t)
  | call {src : Src} (h : callOperand src s = .ok t)
  | reti (h : s.returnFromInterrupt = .ok t)
  | jump (c : Bool) (off : BitVec 10) (h : jumpIf c off s = t)

/-- An instruction that completes ran one of the shared frames: its core form says which. -/
theorem exec_frameRun {i : Instr} {s t : State} (h : exec i s = .next t) : FrameRun s t := by
  rw [exec_expand] at h
  generalize i.expand = j, i.expand_coreForm = hcore at h
  cases hcore with
  | formatI op bw src dst hop =>
    obtain ⟨hlo, hhi⟩ := hop
    interval_cases op <;> exact .twoOperand (outcome_next.mp h)
  | formatII op bw src hop hbw =>
    match op with
    | 0 | 1 | 2 | 3 => exact .modify (outcome_next.mp h)
    | 4 => exact .push (outcome_next.mp h)
    | 5 => exact .call (outcome_next.mp h)
  | reti => exact .reti (outcome_next.mp h)
  | jump c off hc =>
    interval_cases c <;> exact .jump _ off (Host.Outcome.next.inj h)

theorem exec_keepsInv {i : Instr} {s t : State} (h : exec i s = .next t) (hs : s.Inv) : t.Inv := by
  cases exec_frameRun h with
  | twoOperand h => exact twoOperand_inv h hs
  | modify h => exact modifyOperand_inv h hs
  | push h => exact pushOperand_inv h hs
  | call h => exact callOperand_inv h hs
  | reti h => exact State.returnFromInterrupt_inv h hs
  | jump c off h => exact h ▸ jumpIf_inv c off hs

theorem exec_platform {i : Instr} {s t : State} (h : exec i s = .next t) : t.platform = s.platform := by
  cases exec_frameRun h with
  | twoOperand h => exact twoOperand_platform h
  | modify h => exact modifyOperand_platform h
  | push h => exact pushOperand_platform h
  | call h => exact callOperand_platform h
  | reti h => exact State.returnFromInterrupt_platform h
  | jump c off h => exact h ▸ jumpIf_platform c off s

theorem executeOne_inv {s t : State} (h : executeOne s = .next t) (hs : s.Inv) : t.Inv := by
  obtain ⟨i, u, -, hexec, rfl⟩ := executeOne_next h
  exact State.setGieRose_inv _ (exec_keepsInv hexec (State.startInstr_inv hs))

theorem executeOne_platform {s t : State} (h : executeOne s = .next t) : t.platform = s.platform := by
  obtain ⟨i, u, -, hexec, rfl⟩ := executeOne_next h
  exact (exec_platform hexec :)

theorem State.takeInterrupt_platform {s t : State} {v : VectorEntry} (h : s.takeInterrupt v = .ok t) :
    t.platform = s.platform := by
  obtain ⟨s1, s2, u, target, hpc, hsr, -, -, rfl⟩ := State.takeInterrupt_ok h
  obtain ⟨-, -, -, -, -, -, -, -, hclear⟩ := s2.clearSingleSource_kept u
  exact hclear.trans ((State.push_frame hsr).1.platform.trans (State.push_frame hpc).1.platform)

theorem cpuStep_inv {s t : State} (h : cpuStep s = .next t) (hs : s.Inv) : t.Inv := by
  have hstart : ∀ s', s' = s ∨ s' = s.setDraws (s.draws + 1) → s'.Inv := by
    rintro s' (rfl | rfl)
    · exact hs
    · exact State.setDraws_inv _ hs
  obtain ⟨v, s', -, hs', hentry⟩ | ⟨s', hs', -, hinstr, -⟩ | ⟨-, -, rfl⟩ := cpuStep_next h
  · exact State.takeInterrupt_inv hentry (hstart s' hs')
  · exact executeOne_inv hinstr (hstart s' hs')
  · exact hs

theorem cpuStep_platform {s t : State} (h : cpuStep s = .next t) : t.platform = s.platform := by
  have hstart : ∀ s', s' = s ∨ s' = s.setDraws (s.draws + 1) → s'.platform = s.platform := by
    rintro s' (rfl | rfl) <;> rfl
  obtain ⟨v, s', -, hs', hentry⟩ | ⟨s', hs', -, hinstr, -⟩ | ⟨-, -, rfl⟩ := cpuStep_next h
  · exact (State.takeInterrupt_platform hentry).trans (hstart s' hs')
  · exact (executeOne_platform hinstr).trans (hstart s' hs')
  · rfl

/-- Settles O7: by who moves, every instruction, entry and agent keeping the invariant. -/
theorem stepKeepsInvariant : Obligations.StepKeepsInvariant := by
  intro s t hs h
  obtain ⟨-, hcpu⟩ | ⟨rest, -, hcpu⟩ | ⟨a, rest, -, henv⟩ := step_next h
  · exact cpuStep_inv hcpu hs
  · exact cpuStep_inv hcpu (State.setAgenda_inv rest hs)
  · exact envStep_inv henv (State.setAgenda_inv rest hs)

/-- Settles O8: the reset state's fields are evaluated. -/
theorem resetMeetsInvariant : Obligations.ResetMeetsInvariant where
  memWf := ⟨List.Pairwise.nil, nofun⟩
  pcEven := rfl
  spEven := rfl
  srReserved := rfl
  taclrZero := rfl
  ctlReadOnly := by decide
  blockCount := rfl

/-! The agents other than the CPU (20_memory.md R76). -/

theorem sameCpu.refl (s : State) : sameCpu s s := ⟨rfl, rfl, rfl, rfl, rfl⟩

theorem sameCpu.trans {s t u : State} (hst : sameCpu s t) (htu : sameCpu t u) : sameCpu s u := by
  obtain ⟨hpc, hsp, hsr, hgpr, hmem⟩ := hst
  obtain ⟨hpc', hsp', hsr', hgpr', hmem'⟩ := htu
  exact ⟨hpc'.trans hpc, hsp'.trans hsp, hsr'.trans hsr, hgpr'.trans hgpr, hmem'.trans hmem⟩

/-- What no agent but a reset event changes: the CPU, the platform, the agenda. -/
def AgentKeeps (s t : State) : Prop := sameCpu s t ∧ t.platform = s.platform ∧ t.agenda = s.agenda

theorem agentKeeps_refl (s : State) : AgentKeeps s s := ⟨sameCpu.refl s, rfl, rfl⟩

theorem agentKeeps_setTimer (s : State) (t : TimerState) : AgentKeeps s (s.setTimer t) := ⟨sameCpu.refl s, rfl, rfl⟩

theorem agentKeeps_setNmi (s : State) (l : List Nat) : AgentKeeps s (s.setNmi l) := ⟨sameCpu.refl s, rfl, rfl⟩

theorem agentKeeps_setPort (s : State) (x : PortId) (p : PortState) : AgentKeeps s (s.setPort x p) := by
  cases x <;> exact ⟨sameCpu.refl s, rfl, rfl⟩

theorem agentKeeps_timerChange (s : State) (f : TimerState → TimerState) : AgentKeeps s (s.timerChange f) := by
  unfold State.timerChange
  split
  · exact agentKeeps_refl s
  · exact agentKeeps_setTimer s _

theorem agentKeeps_timerTick (s : State) (f : TimerState → Nat → TimerState × Nat) : AgentKeeps s (s.timerTick f) := by
  unfold State.timerTick
  split
  · exact agentKeeps_refl s
  · exact ⟨sameCpu.refl s, rfl, rfl⟩

theorem agentKeeps_requestNmi (s : State) (k : Nat) : AgentKeeps s (s.requestNmi k) := by
  unfold State.requestNmi
  split
  · exact agentKeeps_setNmi s _
  · exact agentKeeps_refl s

/-- An agent other than a reset event always completes and leaves the CPU alone. -/
theorem envStep_agentKeeps {a : EnvAction} (ha : a ≠ .reset) (s : State) : ∃ t, envStep a s = .ok t ∧ AgentKeeps s t := by
  cases a with
  | reset => exact absurd rfl ha
  | pinChange | maySetFlag => exact ⟨_, rfl, agentKeeps_setPort s _ _⟩
  | timerCount | timerClock => exact ⟨_, rfl, agentKeeps_timerTick s _⟩
  | captureInput => exact ⟨_, rfl, agentKeeps_setTimer s _⟩
  | nmiRequest k => exact ⟨_, rfl, agentKeeps_requestNmi s k⟩
  | nmiWithdraw k => exact ⟨_, rfl, agentKeeps_setNmi s _⟩
  | _ => exact ⟨_, rfl, agentKeeps_timerChange s _⟩

theorem envStep_platform {a : EnvAction} {s t : State} (h : envStep a s = .ok t) : t.platform = s.platform := by
  by_cases ha : a = .reset
  · subst ha
    obtain ⟨-, -, -, -, -, -, -, -, hplatform, -⟩ := State.resetEvent_ok h
    exact hplatform
  · obtain ⟨u, hu, -, hplatform, -⟩ := envStep_agentKeeps ha s
    rw [hu] at h
    cases h
    exact hplatform

/-- Settles O32. -/
theorem agentsLeaveTheCpuAlone : Obligations.AgentsLeaveTheCpuAlone :=
  fun _ s ha => envStep_agentKeeps ha s

/-- Settles O11: by who moves. -/
theorem platformNeverChanges : Obligations.PlatformNeverChanges := by
  intro s t h
  obtain ⟨-, hcpu⟩ | ⟨rest, -, hcpu⟩ | ⟨a, rest, -, henv⟩ := step_next h
  · exact cpuStep_platform hcpu
  · exact (cpuStep_platform hcpu :)
  · exact (envStep_platform henv :)

/-! Which request is accepted (60_exceptions.md R302 to R306). -/

/-- No vector is selected exactly when none is pending. -/
theorem State.selectVector_eq_none_iff (s : State) (g : Bool) (l : List VectorEntry) :
    s.selectVector g l = none ↔ ∀ v ∈ l, s.vectorPending g v = false := by
  induction l with
  | nil => simp [State.selectVector]
  | cons v rest ih =>
    rw [State.selectVector, List.forall_mem_cons, ← ih]
    cases s.selectVector g rest <;> cases s.vectorPending g v <;> simp
    split <;> simp

/-- The selected vector is listed and pending, and no pending one has a higher priority. -/
theorem State.selectVector_eq_some {s : State} {g : Bool} {l : List VectorEntry} {v : VectorEntry}
    (h : s.selectVector g l = some v) : v ∈ l ∧ s.vectorPending g v = true ∧
      ∀ u ∈ l, s.vectorPending g u = true → u.priority ≤ v.priority := by
  induction l generalizing v with
  | nil => cases h
  | cons w rest ih =>
    rw [State.selectVector] at h
    split at h
    · rename_i hrest
      have hnone := (s.selectVector_eq_none_iff g rest).mp hrest
      split at h
      · rename_i hw
        cases h
        refine ⟨List.mem_cons_self, hw, fun u hu hpend => ?_⟩
        rcases List.mem_cons.mp hu with rfl | hu
        · exact Nat.le_refl _
        · rw [hnone u hu] at hpend; cases hpend
      · cases h
    · rename_i u hrest
      obtain ⟨hmem, hpend, hmax⟩ := ih hrest
      split at h
      · rename_i hw
        cases h
        simp only [Bool.and_eq_true, decide_eq_true_eq] at hw
        refine ⟨List.mem_cons_self, hw.1, fun x hx hxp => ?_⟩
        rcases List.mem_cons.mp hx with rfl | hx
        · exact Nat.le_refl _
        · exact Nat.le_trans (hmax x hx hxp) hw.2
      · rename_i hw
        cases h
        refine ⟨List.mem_cons_of_mem _ hmem, hpend, fun x hx hxp => ?_⟩
        rcases List.mem_cons.mp hx with rfl | hx
        · simp only [hxp, Bool.true_and, decide_eq_true_eq, Nat.not_le] at hw
          exact Nat.le_of_lt hw
        · exact hmax x hx hxp

/-- No request is acceptable exactly when no vector of the platform is pending. -/
theorem State.acceptable_eq_none_iff (s : State) :
    s.acceptable = none ↔ ∀ v ∈ s.platform.vectors, s.vectorPending s.gie v = false :=
  s.selectVector_eq_none_iff s.gie s.platform.vectors

/-- Settles O14: a vector is selected when one is pending, and `State.vectorPending_iff` says when it is. -/
theorem acceptanceCondition : Obligations.AcceptanceCondition := by
  intro s
  rw [← Option.ne_none_iff_exists', ne_eq, s.acceptable_eq_none_iff]
  simp only [not_forall, Bool.not_eq_false, s.vectorPending_iff, exists_prop]

/-- Settles O15: what is known of the selected vector, with `State.vectorPending_iff` for pending. -/
theorem highestPriorityIsSelected : Obligations.HighestPriorityIsSelected := by
  intro s v h pending
  obtain ⟨hmem, hpend, hmax⟩ := State.selectVector_eq_some h
  exact ⟨hmem, (s.vectorPending_iff _ v).mp hpend, fun u hu hpu => hmax u hu ((s.vectorPending_iff _ u).mpr hpu)⟩

/-- Which request is acceptable does not depend on whose turn it is. -/
theorem State.acceptable_setAgenda (s : State) (l : List Turn) : (s.setAgenda l).acceptable = s.acceptable :=
  State.selectVector_congr (by funext i; cases i <;> simp [State.irqFlag]) (by funext i; cases i <;> simp [State.irqEnable])
    s.gie s.platform.vectors

/-! The CPU off (60_exceptions.md R331, R332). -/

/-- With the CPU off and nothing to accept the CPU's turn changes nothing. -/
theorem cpuStep_idle {s : State} (hoff : s.cpuOff = true) (hacc : s.acceptable = none) : cpuStep s = .next s := by
  simp only [cpuStep, hacc, hoff, if_true]

/-- A CPU step that ends CPUOFF accepted a request. -/
theorem cpuStep_wakes {s t : State} (hoff : s.cpuOff = true) (h : cpuStep s = .next t) (ht : t.cpuOff = false) :
    ∃ v, s.acceptable = some v := by
  obtain ⟨v, s', hv, -⟩ | ⟨s', -, hon, -⟩ | ⟨-, -, rfl⟩ := cpuStep_next h
  · exact ⟨v, hv⟩
  · rw [hoff] at hon; cases hon
  · rw [hoff] at ht; cases ht

/-- Settles O12: the idle step, and by who moves what can end CPUOFF. -/
theorem onlyInterruptOrResetWakes : Obligations.OnlyInterruptOrResetWakes := by
  refine ⟨fun s hturn hoff hacc => ?idle, fun s t hoff h ht => ?wakes⟩
  case idle =>
    simp only [step, stepTurn, hturn]
    exact cpuStep_idle hoff hacc
  case wakes =>
    obtain ⟨hturn, hcpu⟩ | ⟨rest, hturn, hcpu⟩ | ⟨a, rest, hturn, henv⟩ := step_next h
    · exact .inr ⟨.inl hturn, cpuStep_wakes hoff hcpu ht⟩
    · obtain ⟨v, hv⟩ := cpuStep_wakes (s := s.setAgenda rest) hoff hcpu ht
      exact .inr ⟨.inr ⟨rest, hturn⟩, v, s.acceptable_setAgenda rest ▸ hv⟩
    · by_cases ha : a = .reset
      · exact .inl ⟨rest, ha ▸ hturn⟩
      · obtain ⟨u, hu, ⟨-, -, hsr, -⟩, -⟩ := envStep_agentKeeps ha (s.setAgenda rest)
        rw [hu] at henv
        cases henv
        rw [State.cpuOff, hsr] at ht
        exact absurd (hoff.symm.trans ht) (by decide)

/-- The CPU off, no request it could accept, and none to come but by a reset event (60_exceptions.md R331,
70_reset_and_hazards.md R418). -/
structure State.Stopped (s : State) : Prop where
  off : s.cpuOff = true
  gie : s.gie = false
  noNmiSource : s.platform.nmiSources = []
  noNmi : s.nmi = []
  noReset : Turn.env .reset ∉ s.agenda

/-- Without GIE and nonmaskable requests nothing is acceptable. -/
theorem State.Stopped.acceptable {s : State} (h : s.Stopped) : s.acceptable = none := by
  rw [s.acceptable_eq_none_iff]
  intro v _
  rw [← Bool.not_eq_true, s.vectorPending_iff]
  rintro ⟨i, -, hflag, -, hgie | ⟨k, rfl⟩⟩
  · rw [h.gie] at hgie; cases hgie
  · simp [State.irqFlag, h.noNmi] at hflag

/-- The state with a shorter agenda is stopped as well. -/
theorem State.Stopped.setAgenda {s : State} (h : s.Stopped) {turn : Turn} {rest : List Turn} (hturn : s.agenda = turn :: rest) :
    (s.setAgenda rest).Stopped where
  off := h.off
  gie := h.gie
  noNmiSource := h.noNmiSource
  noNmi := h.noNmi
  noReset hr := h.noReset (hturn ▸ List.mem_cons_of_mem _ hr)

/-- A platform without nonmaskable sources never gets a nonmaskable request. -/
theorem envStep_noNmi {a : EnvAction} {s t : State} (h : envStep a s = .ok t) (hsrc : s.platform.nmiSources = [])
    (hnmi : s.nmi = []) : t.nmi = [] := by
  have hchange : ∀ f, (s.timerChange f).nmi = [] := fun f => by unfold State.timerChange; split <;> exact hnmi
  have htick : ∀ f, (s.timerTick f).nmi = [] := fun f => by unfold State.timerTick; split <;> exact hnmi
  cases a with
  | reset =>
    obtain ⟨-, -, -, -, -, hnone, -⟩ := State.resetEvent_ok h
    exact hnone
  | pinChange | maySetFlag => cases h; rw [State.setPort_nmi, hnmi]
  | timerCount | timerClock => cases h; exact htick _
  | captureInput => cases h; exact hnmi
  | nmiRequest k => cases h; simp [State.requestNmi, hsrc, hnmi]
  | nmiWithdraw k => cases h; simp [hnmi]
  | _ => cases h; exact hchange _

/-- A stopped machine makes a step, stays stopped, and keeps what the CPU owns. -/
theorem State.Stopped.step {s : State} (h : s.Stopped) : ∃ t, step s = .next t ∧ t.Stopped ∧ sameCpu s t := by
  unfold Machine.step stepTurn
  split
  case h_1 => exact ⟨s, cpuStep_idle h.off h.acceptable, h, sameCpu.refl s⟩
  case h_2 rest hturn =>
    have hrest := h.setAgenda hturn
    exact ⟨_, cpuStep_idle hrest.off hrest.acceptable, hrest, sameCpu.refl s⟩
  case h_3 a rest hturn =>
    have hrest := h.setAgenda hturn
    have ha : a ≠ .reset := by
      rintro rfl
      exact h.noReset (hturn ▸ List.mem_cons_self)
    obtain ⟨t, ht, hcpu, hplatform, hagenda⟩ := envStep_agentKeeps ha (s.setAgenda rest)
    obtain ⟨-, -, hsr, -⟩ := id hcpu
    refine ⟨t, by rw [ht, outcome], ⟨?_, ?_, ?_, envStep_noNmi ht hrest.noNmiSource hrest.noNmi, ?_⟩, hcpu⟩
    · rw [State.cpuOff, hsr]; exact h.off
    · rw [State.gie, hsr]; exact h.gie
    · rw [hplatform]; exact h.noNmiSource
    · rw [hagenda]; exact hrest.noReset

/-- One more step at the front of a run. -/
theorem run_succ_of_step {s t : State} (k : Nat) (h : step s = .next t) :
    Host.Core.run Sys2Proof.core (k + 1) s = Host.Core.run Sys2Proof.core k t := by
  have hcore : Sys2Proof.core.step s = .next t := h
  simp only [Host.Core.run, hcore]

/-- A stopped machine runs on, keeping what the CPU owns: by induction on the steps, each leaving it stopped. -/
theorem State.Stopped.run {s : State} (h : s.Stopped) (k : Nat) :
    ∃ t : State, Host.Core.run Sys2Proof.core k s = .next t ∧ sameCpu s t := by
  induction k generalizing s with
  | zero => exact ⟨s, rfl, sameCpu.refl s⟩
  | succ k ih =>
    obtain ⟨u, hstep, hstopped, hsame⟩ := h.step
    obtain ⟨t, hrun, hsame'⟩ := ih hstopped
    exact ⟨t, (run_succ_of_step k hstep).trans hrun, hsame.trans hsame'⟩

/-- Settles O13: the premise is `State.Stopped`, which every step keeps. -/
theorem stoppedForGood : Obligations.StoppedForGood :=
  fun k _ hoff hgie hsrc hnmi hreset => State.Stopped.run ⟨hoff, hgie, hsrc, hnmi, hreset⟩ k

/-! The CPU's turn (40_operands.md R130, 60_exceptions.md R303). -/

/-- A shorter read of words from the same address gives the first of them. -/
theorem State.readWords_take {s : State} {a : Word} {n : Nat} {ws : List Word} (h : s.readWords a n = .ok ws) {m : Nat}
    (hm : m ≤ n) : s.readWords a m = .ok (ws.take m) := by
  induction n generalizing a ws m with
  | zero =>
    obtain rfl : m = 0 := Nat.le_zero.mp hm
    rw [List.take_zero, State.readWords]
  | succ n ih =>
    rw [State.readWords] at h
    split at h
    · cases h
    rename_i w hw
    split at h
    · cases h
    rename_i rest hrest
    cases h
    cases m with
    | zero => rw [List.take_zero, State.readWords]
    | succ m => simp only [State.readWords, hw, ih hrest (Nat.le_of_succ_le_succ hm), List.take_succ_cons]

theorem State.readWords_length {s : State} {a : Word} {n : Nat} {ws : List Word} (h : s.readWords a n = .ok ws) :
    ws.length = n := by
  induction n generalizing a ws with
  | zero => cases h; rfl
  | succ n ih =>
    rw [State.readWords] at h
    split at h
    · cases h
    split at h
    · cases h
    rename_i rest hrest
    cases h
    rw [List.length_cons, ih hrest]

/-- An instruction decoded from a stream is decoded from its own words alone. -/
theorem decode_take {iw : Word} {more rest : List Word} {i : Instr} (h : decode (iw :: more) = .ok (i, rest)) :
    decode (iw :: more.take (extWords iw)) = .ok (i, []) := by
  obtain ⟨hcore, hwf, hwords⟩ := decodedFrom_of_decode h
  obtain ⟨jw, xs, henc, hlen⟩ := hcore.wordCount hwf
  rw [henc, List.cons_append] at hwords
  cases hwords
  have hdec := decode_encodeCore hcore hwf []
  rw [henc, List.append_nil] at hdec
  rwa [hlen, List.take_left]

/-- What the words from PC on decode to is what is fetched (40_operands.md R131). -/
theorem State.fetch_of_readWords {s : State} {n : Nat} {ws rest : List Word} {i : Instr} (hread : s.readWords s.pc n = .ok ws)
    (hdec : decode ws = .ok (i, rest)) : s.fetch = .ok i := by
  cases n with
  | zero => cases hread; cases hdec
  | succ n =>
    rw [State.readWords] at hread
    split at hread
    · cases hread
    rename_i iw hiw
    split at hread
    · cases hread
    rename_i more hmore
    cases hread
    have hlen : extWords iw ≤ n := by
      have := (rest_of_decode hdec).1
      rwa [State.readWords_length hmore] at this
    simp only [State.fetch, State.fetchWords, hiw, State.readWords_take hmore hlen, decode_take hdec]

/-- Settles O6: the step is one instruction, and its fetch is what the words decode to. -/
theorem stepRunsTheDecodedInstruction : Obligations.StepRunsTheDecodedInstruction := by
  intro s n ws rest i hturn hacc hon hread hdec
  have hstart : s.startInstr = s.settlePins.setPc (s.pc + 2) := rfl
  simp only [step_eq_executeOne hturn hacc hon, executeOne, State.fetch_of_readWords hread hdec, hstart]
  cases exec i (s.settlePins.setPc (s.pc + 2)) <;> rfl

/-- Settles O19: with the slack open the CPU's turn is the choice by the free bit. -/
theorem slackAllowsEitherBehaviour : Obligations.SlackAllowsEitherBehaviour := by
  intro s v hturn hacc hslack
  simp only [step, stepTurn, hturn, cpuStep, hacc, hslack, if_true]

end Sys2Proof.Machine
end

section
/-! The proofs of 10_state.md and 20_memory.md: registers (R20 to R30), memory accesses (R62 to R73), and the reset values (R36, R401,
R402). -/

namespace Sys2Proof.Machine

/-! Registers. -/

/-- Settles O20: `State.readReg_writeReg_same` at each register, and `State.readReg_writeReg_other`. -/
theorem registerReadAfterWrite : Obligations.RegisterReadAfterWrite := by
  intro s v
  refine ⟨s.readReg_writeReg_same .pc v, s.readReg_writeReg_same .sp v, s.readReg_writeReg_same .sr v, rfl, rfl, ?gp, ?other⟩
  case gp => exact fun i => s.readReg_writeReg_same (.gp i) v
  case other => exact fun r q hq => s.readReg_writeReg_other r q v hq

/-- Settles O21: a byte result is a register write of the byte, zero-extended; the location of R3 discards. -/
theorem byteResultClearsHighByte : Obligations.ByteResultClearsHighByte := by
  refine ⟨fun i v s => ⟨s.writeReg (.gp i) (v.setWidth 16), rfl, ?same, ?other⟩, fun bw v s => ⟨rfl, rfl, rfl⟩⟩
  case same => exact s.readReg_writeReg_same (.gp i) _
  case other => exact fun q hq => s.readReg_writeReg_other (.gp i) q _ hq

/-! Words in memory (20_memory.md R63, R64). -/

theorem State.kindAt_of_isRam {s : State} {a : Word} (h : s.isRam a = true) : s.kindAt a = .ram := by
  simpa [State.isRam] using h

/-- A word access ignores bit 0 of its address. -/
theorem State.readWord_evenWord (s : State) (a : Word) : s.readWord (evenWord a) = s.readWord a := by
  simp only [State.readWord, evenWord_evenWord]

theorem State.writeWord_evenWord (s : State) (a v : Word) : s.writeWord (evenWord a) v = s.writeWord a v := by
  simp only [State.writeWord, evenWord_evenWord]

/-- The two bytes of a held word, as byte reads see them. -/
theorem State.HoldsWord.readByte {s : State} {a w : Word} (h : s.HoldsWord a w) :
    s.readByte (evenWord a) = .ok (w.extractLsb' 0 8) ∧ s.readByte (evenWord a + 1) = .ok (w.extractLsb' 8 8) := by
  rw [State.readByte_eq_readCell h.lowKind, State.readByte_eq_readCell h.highKind]
  exact ⟨State.readCell_of_mem h.lowKind h.low, State.readCell_of_mem h.highKind h.high⟩

/-- A word read of RAM is the two bytes read there, the upper one above. -/
theorem State.readWord_of_readByte {s : State} {a : Word} {lo hi : Byte} (hlow : s.isRam (evenWord a) = true)
    (hhigh : s.isRam (evenWord a + 1) = true) (hlo : s.readByte (evenWord a) = .ok lo)
    (hhi : s.readByte (evenWord a + 1) = .ok hi) : s.readWord a = .ok (hi ++ lo) := by
  have hkl := State.kindAt_of_isRam hlow
  have hkh := State.kindAt_of_isRam hhigh
  rw [State.readByte_eq_readCell (.inl hkl)] at hlo
  rw [State.readByte_eq_readCell (.inl hkh)] at hhi
  simp only [State.readWord, State.isMemory, hkl, hkh, hlo, hhi, beq_self_eq_true, Bool.true_or, Bool.and_self, if_true]

/-- Settles O23: bit 0 is cleared at once, a stored word is held, and a word read is its two byte reads. -/
theorem wordsAreLittleEndian : Obligations.WordsAreLittleEndian := by
  refine ⟨fun s a v => ⟨(s.readWord_evenWord a).symm, (s.writeWord_evenWord a v).symm⟩, fun s a v hlow hhigh => ?stored,
    fun s a lo hi hlow hhigh hlo hhi => ⟨hi ++ lo, State.readWord_of_readByte hlow hhigh hlo hhi, ?value⟩⟩
  case stored =>
    have hholds := State.holdsWord_write (v := v) hlow hhigh
    exact ⟨_, State.writeWord_ram v hlow hhigh, hholds.readWord, hholds.readByte.1, hholds.readByte.2⟩
  case value =>
    have hlt := lo.isLt
    rw [BitVec.toNat_append, ← Nat.shiftLeft_add_eq_or_of_lt hlt, Nat.shiftLeft_eq]

/-! Accesses MEM_MAP does not allow (20_memory.md R72, R73). -/

/-- A word read where there is no timer register and not two bytes of memory. -/
theorem State.readWord_unmapped {s : State} {a : Word} (htimer : ∀ r, s.kindAt (evenWord a) ≠ .timer r)
    (hmem : s.isMemory (evenWord a) = false ∨ s.isMemory (evenWord a + 1) = false) :
    s.readWord a = .error (.fault (.unmappedAccess (evenWord a))) := by
  unfold State.readWord
  split
  · rename_i r hk; exact absurd hk (htimer r)
  · rw [if_neg]; rcases hmem with h | h <;> simp only [h, Bool.false_and, Bool.and_false, Bool.false_eq_true, not_false_iff]

/-- A word write where there is no timer register and not two bytes of RAM. -/
theorem State.writeWord_unmapped {s : State} {a : Word} (v : Word) (htimer : ∀ r, s.kindAt (evenWord a) ≠ .timer r)
    (hram : s.isRam (evenWord a) = false ∨ s.isRam (evenWord a + 1) = false) :
    s.writeWord a v = .error (.fault (.unmappedAccess (evenWord a))) := by
  unfold State.writeWord
  split
  · rename_i r hk; exact absurd hk (htimer r)
  · rw [if_neg]; rcases hram with h | h <;> simp only [h, Bool.false_and, Bool.and_false, Bool.false_eq_true, not_false_iff]

/-- A word access of which a byte is a port register or unimplemented. -/
theorem State.wordAccess_unmapped {s : State} {a : Word} (v : Word) (htimer : ∀ r, s.kindAt (evenWord a) ≠ .timer r)
    {b : Word} (hb : b = evenWord a ∨ b = evenWord a + 1) (hk : (∃ x r, s.kindAt b = .port x r) ∨ s.kindAt b = .unimplemented) :
    s.readWord a = .error (.fault (.unmappedAccess (evenWord a))) ∧
      s.writeWord a v = .error (.fault (.unmappedAccess (evenWord a))) := by
  have hno : s.isMemory b = false ∧ s.isRam b = false := by
    rcases hk with ⟨x, r, hk⟩ | hk <;> simp [State.isMemory, State.isRam, hk]
  rcases hb with rfl | rfl
  · exact ⟨State.readWord_unmapped htimer (.inl hno.1), State.writeWord_unmapped v htimer (.inl hno.2)⟩
  · exact ⟨State.readWord_unmapped htimer (.inr hno.1), State.writeWord_unmapped v htimer (.inr hno.2)⟩

/-- A byte access at a timer register or an unimplemented address. -/
theorem State.byteAccess_unmapped {s : State} {a : Word} (b : Byte)
    (hk : (∃ r, s.kindAt a = .timer r) ∨ s.kindAt a = .unimplemented) :
    s.readByte a = .error (.fault (.unmappedAccess a)) ∧ s.writeByte a b = .error (.fault (.unmappedAccess a)) := by
  rcases hk with ⟨r, hk⟩ | hk <;> simp [State.readByte, State.readCell, State.writeByte, hk]

/-- A word write at a timer register. -/
theorem State.writeWord_timer {s : State} {a v : Word} {r : TimerReg} {t : TimerState} (hk : s.kindAt (evenWord a) = .timer r)
    (ht : s.timer.write r v = some t) : s.writeWord a v = .ok (s.setTimer t) := by
  simp only [State.writeWord, hk, ht]

/-- A byte write at a port register. -/
theorem State.writeByte_port {s : State} {a : Word} {x : PortId} {r : PortReg} (v : Byte) (hk : s.kindAt a = .port x r) :
    s.writeByte a v = .ok (s.setPort x ((s.port x).write r v)) := by
  simp only [State.writeByte, hk]

/-- A byte read at a port register. -/
theorem State.readByte_port {s : State} {a : Word} {x : PortId} {r : PortReg} (hk : s.kindAt a = .port x r) :
    s.readByte a = .ok ((s.port x).read s.draws r) := by
  simp only [State.readByte, hk]

/-- A timer register that can be read can be written. -/
theorem TimerState.write_of_read {t : TimerState} {r : TimerReg} {w : Word} (h : t.read r = some w) (v : Word) :
    ∃ t', t.write r v = some t' := by
  cases r with
  | tactl | tar => exact ⟨_, rfl⟩
  | tacctl x | taccr x =>
    obtain ⟨b, hb, -⟩ := Option.map_eq_some_iff.mp h
    exact ⟨_, by rw [TimerState.write, hb, Option.map_some]⟩

/-- Settles O24: each clause by the kind of the address, or of the two addresses of a word. -/
theorem unmappedAccesses : Obligations.UnmappedAccesses := by
  intro s a v b
  refine ⟨fun x r hk => ?portWord, fun r hk => State.byteAccess_unmapped b (.inl ⟨r, hk⟩),
    fun hk => State.byteAccess_unmapped b (.inr hk), fun hk => ?unimplementedWord,
    fun hk htimer => State.wordAccess_unmapped v htimer (.inr rfl) hk, fun hk => ?romByte, fun hk => ?romWord,
    fun x r hk => ⟨State.readByte_port hk, _, State.writeByte_port b hk⟩, fun r w hk hw => ?timerWord⟩
  case portWord => exact State.wordAccess_unmapped v (fun q hq => by rw [hk] at hq; cases hq) (.inl rfl) (.inl ⟨x, r, hk⟩)
  case unimplementedWord => exact State.wordAccess_unmapped v (fun q hq => by rw [hk] at hq; cases hq) (.inl rfl) (.inr hk)
  case romByte => simp only [State.writeByte, hk]
  case romWord =>
    exact State.writeWord_unmapped v (fun q hq => by rw [hk] at hq; cases hq) (.inl (by rw [State.isRam, hk]; rfl))
  case timerWord =>
    obtain ⟨t, ht⟩ := TimerState.write_of_read hw v
    exact ⟨State.readWord_timer hk hw, _, State.writeWord_timer hk ht⟩

/-- Settles O25: the read is of the cell, which holds nothing. -/
theorem unwrittenMemoryFaults : Obligations.UnwrittenMemoryFaults := by
  intro s a hk hnone
  rw [State.readByte_eq_readCell hk]
  rcases hk with hk | hk <;> simp only [State.readCell, hk, hnone]

/-! Reset (10_state.md R36, 70_reset_and_hazards.md R401, R402). -/

/-- Where no block has its flag set, no block's flag is read as set. -/
theorem getElem?_ccifg_eq_false {l : List CcBlock} (h : ∀ b ∈ l, b.ccifg = false) (x : Nat) :
    (l[x]?.map CcBlock.ccifg).getD false = false := by
  cases hx : l[x]? with
  | none => rfl
  | some b => exact h b (List.mem_of_getElem? hx)

/-- With TACTL, the blocks' flags and the port flags 0, no maskable source requests. -/
theorem State.requesting_eq_false {s : State} (htactl : s.timer.tactl = 0) (hblocks : ∀ b ∈ s.timer.blocks, b.ccifg = false)
    (hports : ∀ x, (s.port x).ifg = 0) {i : IrqSource} (hi : irqNonmaskable i = false) : s.requesting i = false := by
  have hflag : s.irqFlag i = false := by
    cases i with
    | taifg => simp [State.irqFlag, TimerState.taifg, htactl]
    | ccifg x => exact getElem?_ccifg_eq_false hblocks x
    | port x k => simp [State.irqFlag, hports]
    | nmi k => cases hi
  rw [State.requesting, hflag, Bool.false_and]

/-- Settles O9: the reset state's fields are evaluated; a source without a set flag does not request. -/
theorem resetValues : Obligations.ResetValues := by
  refine ⟨rfl, fun r hr d => ?ports, rfl, by decide, fun i => ?requests⟩
  case ports =>
    simp only [List.mem_cons, List.not_mem_nil, or_false] at hr
    rcases hr with rfl | rfl | rfl | rfl | rfl | rfl <;> rfl
  case requests =>
    cases i with
    | nmi k => rfl
    | _ => exact State.requesting_eq_false rfl (by decide) (fun x => by cases x <;> rfl) rfl

/-- A reset event keeps what is not RAM (10_state.md R36, R37). -/
theorem Memory.read_resetMemory {map : List Region} {n : Nat} (hn : kindIn map n ≠ .ram) (d : Nat) (m : List Host.Cell) :
    Memory.read (resetMemory map d m) n = Memory.read m n := by
  induction m with
  | nil => rfl
  | cons c rest ih =>
    change Memory.read ((if kindIn map c.1 = .ram then (c.1, Config.freeByte d c.1) else c) :: resetMemory map d rest) n = _
    simp only [Memory.read]
    by_cases hc : c.1 = n
    · rw [if_neg (c := kindIn map c.1 = .ram) (hc ▸ hn), ih]
    · have hfst : (if kindIn map c.1 = .ram then (c.1, Config.freeByte d c.1) else c).1 = c.1 := by split <;> rfl
      rw [hfst, if_neg hc, if_neg hc, ih]

/-- A word in program memory outlives a reset event. -/
theorem State.HoldsWord.afterReset {s t : State} {a w : Word} {d : Nat} (h : s.HoldsWord a w)
    (hlow : s.kindAt (evenWord a) = .rom) (hhigh : s.kindAt (evenWord a + 1) = .rom) (hplatform : t.platform = s.platform)
    (hmem : t.mem = resetMemory s.platform.memMap d s.mem) : t.HoldsWord a w := by
  refine h.congr hplatform fun n hn => ?_
  rw [hmem]
  have hrom : ∀ b, s.kindAt b = .rom → kindIn s.platform.memMap b.toNat ≠ .ram := fun b hb hr => by
    rw [State.kindAt, hr] at hb; cases hb
  simp only [cellsOf, List.mem_cons, List.not_mem_nil, or_false] at hn
  rcases hn with rfl | rfl
  · exact Memory.read_resetMemory (hrom _ hlow) d s.mem
  · exact Memory.read_resetMemory (hrom _ hhigh) d s.mem

/-- A reset event whose vector lies in program memory completes, and takes that vector. -/
theorem State.resetEvent_completes {s : State} {w : Word} (h : s.HoldsWord s.platform.resetVector w)
    (hlow : s.kindAt (evenWord s.platform.resetVector) = .rom)
    (hhigh : s.kindAt (evenWord s.platform.resetVector + 1) = .rom) : ∃ t, s.resetEvent = .ok t ∧ t.pc = evenWord w := by
  unfold State.resetEvent
  simp only
  split
  · rename_i e hread
    cases hread.symm.trans (State.HoldsWord.readWord (h.afterReset hlow hhigh rfl rfl))
  · rename_i v hread
    cases hread.symm.trans (State.HoldsWord.readWord (h.afterReset hlow hhigh rfl rfl))
    exact ⟨_, rfl, rfl⟩

/-- What a port's registers read after a reset event (60_exceptions.md R351, 90_conflicts.md C7). -/
theorem PortState.read_puc (p : PortState) (d : Nat) (r : PortReg) : p.puc.read d r =
    match r with
    | .pxin => p.level
    | .pxout => p.out
    | .pxies => p.ies
    | .pxdir | .pxifg | .pxie | .pxsel | .pxsel2 | .pxren => 0 := by
  cases r with
  | pxin =>
    have hall : p.level &&& 255#8 = p.level := BitVec.and_allOnes
    simp [PortState.read, PortState.input, PortState.modulePins, PortState.puc, hall]
  | _ => rfl

@[simp] theorem CcBlock.puc_ctl (b : CcBlock) : b.puc.ctl = 0 := rfl

/-- What a capture/compare block reads after a reset event: SCCI and CCI at most (60_exceptions.md R372, R375). -/
theorem CcBlock.readCtl_puc (b : CcBlock) : b.puc.readCtl &&& 0xFBF7#16 = 0#16 := by
  rw [CcBlock.readCtl, CcBlock.puc_ctl]
  split <;> split <;> decide

/-- Settles O10: the event completes, and `State.resetEvent_ok` says what it leaves. -/
theorem resetEventEffect : Obligations.ResetEventEffect := by
  intro s rest w hturn hholds hlow hhigh
  obtain ⟨t, ht, hpc⟩ := State.resetEvent_completes (s := s.setAgenda rest)
    (hholds.congr (t := s.setAgenda rest) rfl fun _ _ => rfl) hlow hhigh
  obtain ⟨hsr, -, hp1, hp2, hpuc, -, -, hagenda, -⟩ := State.resetEvent_ok ht
  have hport : ∀ x, t.port x = (s.port x).puc := by
    rintro (_ | _)
    · exact hp1
    · exact hp2
  have htimer : t.timer = s.timer.puc := hpuc
  have hblock : ∀ b ∈ t.timer.blocks, ∃ c : CcBlock, b = c.puc := by
    rw [htimer]
    intro b hb
    obtain ⟨c, -, rfl⟩ := List.mem_map.mp hb
    exact ⟨c, rfl⟩
  refine ⟨t, by simp only [step, stepTurn, hturn, envStep, ht, outcome], hsr, hpc, ?cleared, ?kept, ?levels,
    by rw [htimer]; rfl, ?blocks, ?requests, hagenda⟩
  case cleared =>
    intro x d r hr
    simp only [List.mem_cons, List.not_mem_nil, or_false] at hr
    rw [hport, PortState.read_puc]
    rcases hr with rfl | rfl | rfl | rfl | rfl | rfl <;> rfl
  case kept =>
    intro x d r hr
    rw [hport, PortState.read_puc]
    obtain rfl | rfl := List.mem_pair.mp hr <;> rfl
  case levels => exact fun x d => by rw [hport, PortState.read_puc]
  case blocks =>
    intro b hb
    obtain ⟨c, rfl⟩ := hblock b hb
    exact ⟨c.readCtl_puc, rfl, by simp [CcBlock.cap], by simp [CcBlock.ccie]⟩
  case requests =>
    refine fun i hi => State.requesting_eq_false (by rw [htimer]; rfl) (fun b hb => ?_) (fun x => by rw [hport]; rfl) hi
    obtain ⟨c, rfl⟩ := hblock b hb
    simp [CcBlock.ccifg]

end Sys2Proof.Machine
end

section
/-! The proofs of 60_exceptions.md sections 7 and 8: the port registers and the pin agent (R351 to R363), Timer_A's registers and the
timer agent (R370 to R377). -/

namespace Sys2Proof.Machine

/-! Port registers (60_exceptions.md R351 to R360). -/

/-- A port register but PxIN reads back what was written. -/
theorem PortState.read_write_same (p : PortState) {r : PortReg} (hr : r ≠ .pxin) (v : Byte) (d : Nat) :
    (p.write r v).read d r = v := by
  cases r with
  | pxin => exact absurd rfl hr
  | _ => rfl

/-- A write to a port register leaves what the others read, but PxIN, whose digital I/O pins PxSEL and PxSEL2 choose. -/
theorem PortState.read_write_other (p : PortState) {r q : PortReg} (hq : q ≠ r) (hsel : q = .pxin → r ≠ .pxsel ∧ r ≠ .pxsel2)
    (v : Byte) (d : Nat) : (p.write r v).read d q = p.read d q := by
  cases q with
  | pxin =>
    obtain ⟨hsel, hsel2⟩ := hsel rfl
    cases r with
    | pxsel => exact absurd rfl hsel
    | pxsel2 => exact absurd rfl hsel2
    | _ => rfl
  | _ => cases r <;> first | rfl | exact absurd rfl hq

theorem PortState.write_level (p : PortState) (r : PortReg) (v : Byte) : (p.write r v).level = p.level := by cases r <;> rfl

/-- PxIN reads the level of a digital I/O pin (60_exceptions.md R353, R359). -/
theorem PortState.input_getLsbD_of_io (p : PortState) (d : Nat) (k : Fin 8) (hk : p.isIo k = true) :
    (p.input d).getLsbD k = p.level.getLsbD k := by
  have hmodule : p.modulePins.getLsbD k = false := by rw [p.modulePins_getLsbD, hk]; rfl
  simp only [PortState.input, BitVec.getLsbD_or, BitVec.getLsbD_and, BitVec.getLsbD_not, hmodule, k.isLt, decide_true,
    Bool.not_false, Bool.and_true, Bool.and_false, Bool.or_false]

/-- Settles O26: the write goes to the register, and each register's reads are the rules above. -/
theorem portRegisterAccess : Obligations.PortRegisterAccess := by
  intro s a x r v hk
  have hport : (s.setPort x ((s.port x).write r v)).port x = (s.port x).write r v := s.setPort_port x _
  refine ⟨_, State.writeByte_port v hk, fun hr => ?same, fun hr => ?pxin, fun q d hq hsel => ?other, ?level,
    fun y hy => s.setPort_port_ne x y _ hy, s.setPort_mem x _, s.setPort_timer x _, fun d k hsel hsel2 => ?pins⟩
  case same =>
    have hk' : (s.setPort x ((s.port x).write r v)).kindAt a = .port x r := by rw [State.kindAt, State.setPort_platform]; exact hk
    rw [State.readByte_port hk', hport, PortState.read_write_same _ hr]
  case pxin => subst hr; cases x <;> rfl
  case other => rw [hport, PortState.read_write_other _ hq hsel]
  case level => rw [hport, PortState.write_level]
  case pins => exact PortState.input_getLsbD_of_io _ d k (by rw [PortState.isIo, hsel, hsel2]; rfl)

/-- Settles O27: each address is looked up in the default map. -/
theorem p1RegisterAddresses : Obligations.P1RegisterAddresses := by rfl

/-! The pin agent (60_exceptions.md R363). -/

/-- The flags after `PinChange(x, k, new)`: pin `k`'s is set on the selected edge of a digital I/O pin, the others stay. -/
theorem PortState.pinChange_ifg_getLsbD (p : PortState) (k j : Fin 8) (new : Bool) : (p.pinChange k new).ifg.getLsbD j =
    (p.ifg.getLsbD j || (decide (j = k) && (p.isIo k &&
      (if p.ies.getLsbD k then p.level.getLsbD k && !new else !p.level.getLsbD k && new)))) := by
  simp only [PortState.pinChange]
  generalize (p.isIo k && (if p.ies.getLsbD k then p.level.getLsbD k && !new else !p.level.getLsbD k && new)) = set
  cases set with
  | false => rw [if_neg (by decide), Bool.and_false, Bool.or_false]
  | true =>
    rw [if_pos rfl, setBit_getLsbD _ _ _ _ j.isLt, Bool.and_true]
    by_cases hj : j = k
    · rw [if_pos (congrArg Fin.val hj), decide_eq_true hj, Bool.or_true]
    · rw [if_neg (fun e => hj (Fin.ext e)), decide_eq_false hj, Bool.or_false]

/-- Settles O30: the level's and the flag's bit are set by `setBit`, every other bit stays. -/
theorem pinChangeSetsFlagOnEdge : Obligations.PinChangeSetsFlagOnEdge := by
  intro s x k new
  have hport : (s.setPort x ((s.port x).pinChange k new)).port x = (s.port x).pinChange k new := s.setPort_port x _
  obtain ⟨hcpu, -⟩ := agentKeeps_setPort s x ((s.port x).pinChange k new)
  refine ⟨_, rfl, hcpu, ?level, ?flag, fun j hj => ?others, fun y hy => s.setPort_port_ne x y _ hy, s.setPort_timer x _⟩
  case level =>
    rw [hport]
    exact (setBit_getLsbD _ k k new k.isLt).trans (if_pos rfl)
  case flag => rw [hport, PortState.pinChange_ifg_getLsbD, decide_eq_true rfl, Bool.true_and, PortState.isIo]
  case others =>
    rw [hport, PortState.pinChange_ifg_getLsbD, decide_eq_false hj, Bool.false_and, Bool.or_false]
    exact ⟨(setBit_getLsbD _ k j new j.isLt).trans (if_neg fun e => hj (Fin.ext e)), rfl⟩

/-! Timer_A's registers (60_exceptions.md R372 to R375). -/

/-- A word read at a timer register after a timer write. -/
theorem State.readWord_setTimer {s : State} {a w : Word} {r : TimerReg} {t : TimerState}
    (hk : s.kindAt (evenWord a) = .timer r) (hr : t.read r = some w) : (s.setTimer t).readWord a = .ok w :=
  State.readWord_timer (s := s.setTimer t) hk hr

/-- Changing a block that exists sets it at its place. -/
theorem TimerState.mapBlock_eq_set {t : TimerState} {x : Nat} {b : CcBlock} (hb : t.blocks[x]? = some b) (f : CcBlock → CcBlock) :
    t.mapBlock x f = { t with blocks := t.blocks.set x (f b) } := by
  rw [TimerState.mapBlock, List.modify_eq_set_getElem?, hb]
  rfl

/-- The block at a place that was set. -/
theorem getElem?_set_of_some {l : List CcBlock} {x : Nat} {b : CcBlock} (hb : l[x]? = some b) (c : CcBlock) :
    (l.set x c)[x]? = some c := by
  obtain ⟨hx, -⟩ := List.getElem?_eq_some_iff.mp hb
  rw [List.getElem?_set_self hx]

/-- Settles O28: what each register write stores, and what the read of TACCRx as an operand leaves. -/
theorem timerRegisterWrites : Obligations.TimerRegisterWrites := by
  refine ⟨fun s a v hk => ?tactl, fun s a v hk => ?tar, fun s a v x b hk hb => ?taccr, fun s a x b hk hb => ?operand⟩
  case tactl =>
    have htactl : (s.timer.writeTactl v).tactl = v &&& 0xFFFB := by unfold TimerState.writeTactl; simp only; split <;> rfl
    refine ⟨s.setTimer (s.timer.writeTactl v), State.writeWord_timer hk rfl,
      State.readWord_setTimer hk (by rw [TimerState.read, htactl]), ?_, ?_, ?_⟩ <;>
      simp only [State.setTimer_timer, TimerState.writeTactl]
    · split <;> rfl
    · intro hclear; rw [if_pos hclear]; exact ⟨rfl, rfl, rfl⟩
    · intro hkeep; rw [if_neg (by rw [hkeep]; decide)]; exact ⟨rfl, rfl, rfl⟩
  case tar => exact ⟨_, State.writeWord_timer hk rfl, State.readWord_setTimer hk rfl, rfl⟩
  case taccr =>
    refine ⟨_, State.writeWord_timer hk (by rw [TimerState.write, hb, Option.map_some]), State.readWord_setTimer hk ?_, rfl⟩
    rw [TimerState.read, getElem?_set_of_some hb, Option.map_some]
  case operand =>
    have hk' : s.skipWord.kindAt (evenWord a) = .timer (.taccr x) := hk
    have hread : s.skipWord.readWord a = .ok b.ccr :=
      State.readWord_timer hk' (by rw [TimerState.read, State.skipWord_timer, hb, Option.map_some])
    refine ⟨srcState .word (.absolute a) s, ?_, ?_⟩
    · simp only [evalSrc, srcLoc, readLoc, State.load, hread]
    · have htimer : (srcState .word (.absolute a) s).timer = s.timer.captureRead x := by
        simp only [srcState, srcLoc, State.noteRead, State.noteLoad, State.loadTimer, hk', State.skipWord_timer]
      rw [htimer, TimerState.captureRead, TimerState.mapBlock_eq_set hb]

/-- One bit of TACCTLx as read (60_exceptions.md R375). -/
theorem CcBlock.readCtl_getLsbD (b : CcBlock) (i : Nat) : b.readCtl.getLsbD i =
    (b.ctl.getLsbD i || (b.scci && decide (i = 10)) || (b.cci && decide (i = 3))) := by
  have h10 : (0x0400 : Word) = BitVec.twoPow 16 10 := by decide
  have h3 : (0x0008 : Word) = BitVec.twoPow 16 3 := by decide
  have hbit : ∀ (c : Bool) (n : Nat), n < 16 →
      (if c then BitVec.twoPow 16 n else 0).getLsbD i = (c && decide (i = n)) := by
    intro c n hn
    cases c
    · simp
    · rw [if_pos rfl, BitVec.getLsbD_twoPow]
      simp only [hn, decide_true, Bool.true_and, eq_comm]
  rw [CcBlock.readCtl, BitVec.getLsbD_or, BitVec.getLsbD_or, h10, h3, hbit _ 10 (by decide), hbit _ 3 (by decide)]

/-- The bits of TACCTLx that a write stores: all but 10, 9 and 3 (60_exceptions.md R375). -/
theorem tacctlMask_getLsbD (v : Word) {i : Nat} (hi : i < 16) :
    (v &&& 0xF9F7).getLsbD i = (v.getLsbD i && decide (i ≠ 10 ∧ i ≠ 9 ∧ i ≠ 3)) := by
  have hmask : ∀ i < 16, (0xF9F7 : Word).getLsbD i = decide (i ≠ 10 ∧ i ≠ 9 ∧ i ≠ 3) := by decide
  rw [BitVec.getLsbD_and, hmask i hi]

/-- The output mode that a write of TACCTLx selects (60_exceptions.md R375). -/
theorem tacctlMask_outMode (v : Word) : (v &&& 0xF9F7).toNat / 32 % 8 = 0 ↔ v.extractLsb' 5 3 = 0 := by
  have hbits : (v &&& 0xF9F7).extractLsb' 5 3 = v.extractLsb' 5 3 := by
    rw [BitVec.extractLsb'_and]
    exact BitVec.and_allOnes
  rw [← hbits, ← BitVec.toNat_inj, BitVec.extractLsb'_toNat, Nat.shiftRight_eq_div_pow]
  rfl

/-- OUTx after a write of TACCTLx: bit 2 of the word in output mode 000 (60_exceptions.md R376). -/
theorem CcBlock.writeCtl_outx (b : CcBlock) (v : Word) :
    (b.writeCtl v).outx = if v.extractLsb' 5 3 = 0 then v.getLsbD 2 else b.outx := by
  simp only [CcBlock.writeCtl, CcBlock.outMode, tacctlMask_outMode]
  split <;> rfl

/-- Settles O29: the block written is `CcBlock.writeCtl`, and each of its bits read back is that of the word, or SCCI or CCI. -/
theorem tacctlWrite : Obligations.TacctlWrite := by
  intro s a v x b hk hb
  obtain ⟨hctl, hscci, -⟩ := b.writeCtl_stores v
  have hset := getElem?_set_of_some hb (b.writeCtl v)
  have hbit : ∀ i < 16, (b.writeCtl v).readCtl.getLsbD i = ((v.getLsbD i && decide (i ≠ 10 ∧ i ≠ 9 ∧ i ≠ 3)) ||
      (b.scci && decide (i = 10)) || ((b.writeCtl v).cci && decide (i = 3))) := by
    intro i hi
    rw [CcBlock.readCtl_getLsbD, hctl, hscci, tacctlMask_getLsbD v hi]
  refine ⟨s.setTimer { s.timer with blocks := s.timer.blocks.set x (b.writeCtl v) }, b.writeCtl v,
    State.writeWord_timer hk (by rw [TimerState.write, hb, Option.map_some]), hset,
    State.readWord_setTimer hk (by rw [TimerState.read, hset, Option.map_some]), fun i hi h10 h9 h3 => ?_, ?_, ?_, ?_,
    b.writeCtl_outx v, fun y hy => List.getElem?_set_ne hy.symm, rfl, rfl⟩
  · rw [hbit i hi]; simp [h10, h9, h3]
  · rw [hbit 10 (by decide)]; simp
  · rw [hbit 9 (by decide)]; simp
  · rw [hbit 3 (by decide)]; simp

/-! The output mode table (60_exceptions.md R376). -/

/-- OUTx of a compare block after a count. -/
theorem CcBlock.counted_outx (b : CcBlock) (old tar tar0 : Word) (d : Nat) (hc : b.cap = false) :
    (b.counted old tar tar0 d).1.outx =
      if tar == b.ccr && tar == tar0 && outModeUsesEqu0 b.outMode then Config.freeBit d
      else if tar == b.ccr then equxOut b.outMode b.outx
      else if tar == tar0 then equ0Out b.outMode b.outx else b.outx := by
  simp only [CcBlock.counted, hc, Bool.false_eq_true, if_false]
  split_ifs <;> rfl

/-- The effects of the two events obey the table; where both act and coincide OUTx may be anything. -/
theorem outputTable_of_events {mode : Nat} (hm : mode < 8) (equx equ0 old free : Bool) :
    outputTable mode equx equ0 old
      (if equx && equ0 && outModeUsesEqu0 mode then free
       else if equx then equxOut mode old else if equ0 then equ0Out mode old else old) := by
  interval_cases mode <;> cases equx <;> cases equ0 <;> simp [outputTable, outModeUsesEqu0, equxOut, equ0Out]

theorem CcBlock.outMode_lt (b : CcBlock) : b.outMode < 8 := Nat.mod_lt _ (by decide)

/-- A count moves OUTx of a compare block by the table. -/
theorem CcBlock.counted_outputTable (b : CcBlock) (old tar tar0 : Word) (d : Nat) (hc : b.cap = false) :
    outputTable b.outMode (tar == b.ccr) (tar == tar0) b.outx (b.counted old tar tar0 d).1.outx := by
  rw [b.counted_outx old tar tar0 d hc]
  exact outputTable_of_events b.outMode_lt _ _ _ _

/-- Settles O34: counting by the table, and the write of TACCTLx in output mode 000. -/
theorem outputModeTable : Obligations.OutputModeTable :=
  ⟨fun b old tar tar0 d hc => b.counted_outputTable old tar tar0 d hc, fun b v hv => by rw [b.writeCtl_outx v, if_pos hv]⟩

/-! The timer agent (60_exceptions.md R371, R377). -/

theorem TimerState.count_of_stopped {t : TimerState} (h : t.mode = 0) (d : Nat) : t.count d = (t, d) := if_pos h

/-- A count while the timer runs. -/
theorem TimerState.count_of_running {t : TimerState} (h : t.mode ≠ 0) (d : Nat) : (t.count d).1 =
    { t with tar := t.nextTar.1, down := t.nextTar.2, blocks := (countedBlocks t.tar t.nextTar.1 t.ccr0 t.blocks d).1,
             tactl := if t.nextTar.1 = 0 then t.tactl ||| 1 else t.tactl } := by
  rw [TimerState.count, if_neg h]

/-- Up mode (60_exceptions.md R377). -/
theorem TimerState.nextTar_up {t : TimerState} (h : t.mode = 1) :
    t.nextTar = (if t.tar = t.ccr0 then 0 else t.tar + 1, t.down) := by simp only [TimerState.nextTar, h]

/-- Continuous mode: after 0FFFFh comes 0 (60_exceptions.md R377). -/
theorem TimerState.nextTar_continuous {t : TimerState} (h : t.mode = 2) : t.nextTar = (t.tar + 1, t.down) := by
  simp only [TimerState.nextTar, h]
  split
  · rename_i hmax; rw [hmax]; rfl
  · rfl

/-- Up/down mode (60_exceptions.md R377; log 37). -/
theorem TimerState.nextTar_upDown {t : TimerState} (h : t.mode = 3) : t.nextTar =
    if t.down = true ∨ t.tar = t.ccr0 then (t.tar - 1, decide (t.tar - 1 ≠ 0)) else (t.tar + 1, false) := by
  have hbne : (t.tar - 1 != 0) = decide (t.tar - 1 ≠ 0) := by rw [bne, beq_eq_decide, decide_not]
  simp only [TimerState.nextTar, h, Bool.or_eq_true, beq_iff_eq, hbne]

/-- TAIFG is set when TAR becomes 0 (60_exceptions.md R302, R374). -/
theorem taifg_of_count (v tar : Word) : (if tar = 0 then v ||| 1 else v).getLsbD 0 = (v.getLsbD 0 || tar == 0) := by
  by_cases h : tar = 0
  · rw [if_pos h, h]; simp
  · rw [if_neg h, beq_eq_false_iff_ne.mpr h, Bool.or_false]

/-- The captured count of a synchronised capture, its flag, its overflow and its note (60_exceptions.md R375). -/
theorem CcBlock.capture_flags (b : CcBlock) (v : Word) : (b.capture v).ccifg = true ∧
    (b.capture v).ctl.getLsbD 1 = (b.ctl.getLsbD 1 || b.unread) := by
  rw [CcBlock.ccifg, CcBlock.capture_ctl]
  cases b.unread <;> simp

/-- What a count does to a block in capture mode: nothing but SCCI, or the capture that waited (60_exceptions.md R375; log 36). -/
theorem CcBlock.synchronised_of_not_waiting {b : CcBlock} (h : b.waiting = false) (old tar : Word) (d : Nat) :
    (b.synchronised old tar d).1 = b := by
  rw [CcBlock.synchronised, h]; rfl

theorem CcBlock.synchronised_of_waiting {b : CcBlock} (h : b.waiting = true) (old tar : Word) (d : Nat) :
    ∃ v, (v = old ∨ v = tar) ∧ (b.synchronised old tar d).1 = b.capture v := by
  rw [CcBlock.synchronised, h, if_pos rfl]
  cases Config.freeBit d
  · exact ⟨tar, .inr rfl, rfl⟩
  · exact ⟨old, .inl rfl, rfl⟩

/-- A block in capture mode after a count. -/
theorem CcBlock.counted_capture (b : CcBlock) (old tar tar0 : Word) (d : Nat) (hc : b.cap = true) :
    let c := (b.counted old tar tar0 d).1
    c.scci = (if tar = b.ccr then b.cci else b.scci) ∧ c.outx = b.outx ∧
      (b.waiting = false → c.ccr = b.ccr ∧ c.ctl = b.ctl) ∧
      (b.waiting = true → (c.ccr = old ∨ c.ccr = tar) ∧ c.ccifg = true ∧
        c.ctl.getLsbD 1 = (b.ctl.getLsbD 1 || b.unread) ∧ c.unread = true) := by
  intro c
  have hcount : c = _ := b.counted_captureMode old tar tar0 d hc
  generalize hl : ({ b with scci := if tar = b.ccr then b.cci else b.scci } : CcBlock) = l at hcount
  cases hw : b.waiting with
  | false =>
    rw [CcBlock.synchronised_of_not_waiting (by rw [← hl]; exact hw)] at hcount
    rw [hcount, ← hl]
    exact ⟨rfl, rfl, fun _ => ⟨rfl, rfl⟩, nofun⟩
  | true =>
    obtain ⟨v, hv, hsync⟩ := CcBlock.synchronised_of_waiting (b := l) (by rw [← hl]; exact hw) old tar d
    obtain ⟨hflag, hcov⟩ := l.capture_flags v
    rw [hcount, hsync]
    refine ⟨by rw [← hl]; rfl, by rw [← hl]; rfl, nofun, fun _ => ⟨hv, hflag, ?_, rfl⟩⟩
    rw [hcov, ← hl]

/-- CMx's edges (60_exceptions.md R375). -/
theorem captureEdge_iff (cm : Nat) (old new : Bool) : captureEdge cm old new = true ↔ selectedEdge cm old new := by
  match cm with
  | 0 => simp [captureEdge, selectedEdge]
  | 1 => cases old <;> cases new <;> simp [captureEdge, selectedEdge]
  | 2 => cases old <;> cases new <;> simp [captureEdge, selectedEdge]
  | 3 => cases old <;> cases new <;> simp [captureEdge, selectedEdge]
  | n + 4 => simp [captureEdge, selectedEdge]

/-- An input signal's change without a capture. -/
theorem CcBlock.inputChange_of_not_edge {b : CcBlock} {tar : Word} {running second new : Bool}
    (h : ¬(running = true ∧ b.cap = true ∧ selectedEdge b.captureMode b.cci (b.setInput second new).cci)) :
    b.inputChange tar running second new = b.setInput second new := by
  rw [← captureEdge_iff, ← and_assoc, ← Bool.and_eq_true, ← Bool.and_eq_true] at h
  exact if_neg h

/-- An input signal's change on the selected edge (60_exceptions.md R375; log 36). -/
theorem CcBlock.inputChange_of_edge {b : CcBlock} {tar : Word} {running second new : Bool}
    (h : running = true ∧ b.cap = true ∧ selectedEdge b.captureMode b.cci (b.setInput second new).cci) :
    b.inputChange tar running second new =
      if b.scs then { b.setInput second new with waiting := true } else (b.setInput second new).capture tar := by
  rw [← captureEdge_iff, ← and_assoc, ← Bool.and_eq_true, ← Bool.and_eq_true] at h
  exact if_pos h

/-- The state after a count while the selected clock runs. -/
theorem envStep_timerCount {s : State} (h : s.timerClockStopped = false) :
    ∃ t, envStep .timerCount s = .ok t ∧ t.timer = (s.timer.count s.draws).1 := by
  refine ⟨_, rfl, ?_⟩
  simp only [State.timerTick, h, Bool.false_eq_true, if_false, State.setDraws_timer, State.setTimer_timer]

/-- Settles O33: a count by the mode and block by block, an input signal's change by whether it is the selected edge. -/
theorem timerCountEffect : Obligations.TimerCountEffect := by
  refine ⟨fun s hclock => ?count, fun s x second new b hb => ?input⟩
  case count =>
    obtain ⟨t, ht, htimer⟩ := envStep_timerCount hclock
    have hrun : s.timer.mode ≠ 0 → t.timer = _ := fun h => htimer.trans (TimerState.count_of_running h s.draws)
    have htar : s.timer.mode ≠ 0 → t.timer.tar = s.timer.nextTar.1 := fun h => by rw [hrun h]
    have hdown : s.timer.mode ≠ 0 → t.timer.down = s.timer.nextTar.2 := fun h => by rw [hrun h]
    refine ⟨t, ht, fun hm => ?stopped, fun hm => ?up, fun hm => ?continuous, fun hm => ?upDown, fun hm => ⟨?taifg, ?blocks⟩⟩
    case stopped => rw [htimer, TimerState.count_of_stopped hm]
    case up =>
      have hne : s.timer.mode ≠ 0 := by rw [hm]; decide
      rw [htar hne, hdown hne, TimerState.nextTar_up hm]
      exact ⟨rfl, rfl⟩
    case continuous =>
      have hne : s.timer.mode ≠ 0 := by rw [hm]; decide
      rw [htar hne, hdown hne, TimerState.nextTar_continuous hm]
      exact ⟨rfl, rfl⟩
    case upDown =>
      have hne : s.timer.mode ≠ 0 := by rw [hm]; decide
      rw [htar hne, hdown hne, TimerState.nextTar_upDown hm]
      split <;> exact ⟨rfl, rfl⟩
    case taifg =>
      rw [TimerState.taifg, hrun hm]
      exact taifg_of_count _ _
    case blocks =>
      intro x b hb
      rw [htar hm]
      obtain ⟨d, hc⟩ := countedBlocks_getElem s.timer.tar s.timer.nextTar.1 s.timer.ccr0 s.timer.blocks s.draws x b hb
      refine ⟨_, by rw [hrun hm]; exact hc, ?_⟩
      cases hcap : b.cap with
      | false =>
        obtain ⟨hflag, hscci, hccr, -⟩ := b.counted_compare s.timer.tar s.timer.nextTar.1 s.timer.ccr0 d hcap
        exact ⟨hscci, fun _ => ⟨hccr, hflag, b.counted_outputTable _ _ _ d hcap⟩, nofun⟩
      | true =>
        obtain ⟨hscci, houtx, hkept, hmade⟩ := b.counted_capture s.timer.tar s.timer.nextTar.1 s.timer.ccr0 d hcap
        exact ⟨hscci, nofun, fun _ => ⟨houtx, hkept, hmade⟩⟩
  case input =>
    have hset := TimerState.mapBlock_eq_set hb fun c => c.inputChange s.timer.tar (s.timer.mode != 0) second new
    refine ⟨_, b.inputChange s.timer.tar (s.timer.mode != 0) second new, rfl, ?_, fun y hy => ?_, rfl, ?_, fun hedge => ?_,
      fun hno => ?_⟩
    · rw [State.setTimer_timer, hset]; exact getElem?_set_of_some hb _
    · rw [State.setTimer_timer, hset]; exact List.getElem?_set_ne hy.symm
    · cases second <;> exact ⟨rfl, rfl⟩
    · obtain ⟨hmode, hcap, hsel⟩ := hedge
      rw [CcBlock.inputChange_of_edge ⟨bne_iff_ne.mpr hmode, hcap, hsel⟩]
      refine ⟨fun hscs => ?_, fun hscs => by rw [if_pos hscs]⟩
      obtain ⟨hflag, hcov⟩ := (b.setInput second new).capture_flags s.timer.tar
      rw [if_neg (by rw [hscs]; decide)]
      exact ⟨rfl, hflag, by rw [hcov, CcBlock.setInput_ctl, CcBlock.setInput_unread], rfl⟩
    · exact CcBlock.inputChange_of_not_edge fun ⟨hmode, hrest⟩ => hno ⟨bne_iff_ne.mp hmode, hrest⟩

/-! Flags under the agents (60_exceptions.md R363, R371, R377). -/

/-- Every timer flag set in `t` is set in `t'`. -/
def TimerState.KeepsFlags (t t' : TimerState) : Prop :=
  (t.taifg = true → t'.taifg = true) ∧
    ∀ (x : Nat) (b : CcBlock), t.blocks[x]? = some b → b.ccifg = true → ∃ c, t'.blocks[x]? = some c ∧ c.ccifg = true

theorem TimerState.KeepsFlags.refl (t : TimerState) : t.KeepsFlags t := ⟨id, fun _ b hb hf => ⟨b, hb, hf⟩⟩

/-- Setting further bits of a block's control word keeps its flag. -/
theorem CcBlock.ccifg_of_or {b c : CcBlock} {m : Word} (hc : c.ctl = b.ctl ||| m) (hb : b.ccifg = true) : c.ccifg = true := by
  rw [CcBlock.ccifg] at hb ⊢
  rw [hc, BitVec.getLsbD_or, hb, Bool.true_or]

/-- Changing one block by a function that keeps its flag keeps every flag. -/
theorem TimerState.keepsFlags_mapBlock (t : TimerState) (x : Nat) {f : CcBlock → CcBlock}
    (hf : ∀ b, b.ccifg = true → (f b).ccifg = true) : t.KeepsFlags (t.mapBlock x f) := by
  refine ⟨id, fun y b hb hflag => ?_⟩
  refine ⟨if x = y then f b else b, by rw [TimerState.mapBlock, List.getElem?_modify, hb]; rfl, ?_⟩
  split
  · exact hf b hflag
  · exact hflag

theorem TimerState.keepsFlags_count (t : TimerState) (d : Nat) : t.KeepsFlags (t.count d).1 := by
  by_cases hm : t.mode = 0
  · rw [TimerState.count_of_stopped hm]; exact .refl t
  · rw [TimerState.count_of_running hm]
    refine ⟨fun hflag => ?_, fun x b hb hflag => ?_⟩
    · rw [TimerState.taifg] at hflag ⊢
      rw [taifg_of_count, hflag, Bool.true_or]
    · obtain ⟨d', hc⟩ := countedBlocks_getElem t.tar t.nextTar.1 t.ccr0 t.blocks d x b hb
      obtain ⟨⟨m, -, hctl⟩, -⟩ := b.counted_kept t.tar t.nextTar.1 t.ccr0 d'
      exact ⟨_, hc, CcBlock.ccifg_of_or hctl hflag⟩

theorem TimerState.keepsFlags_clock (t : TimerState) (d : Nat) : t.KeepsFlags (t.clock d).1 := by
  unfold TimerState.clock
  split
  · exact .refl t
  · split
    · exact TimerState.keepsFlags_count { t with divider := 0 } d
    · exact .refl t

/-- A change of an input signal sets a flag at most. -/
theorem CcBlock.inputChange_ccifg (b : CcBlock) (tar : Word) (running second new : Bool) (hb : b.ccifg = true) :
    (b.inputChange tar running second new).ccifg = true := by
  have hkeep : (b.setInput second new).ccifg = true := by rw [CcBlock.ccifg, CcBlock.setInput_ctl]; exact hb
  unfold CcBlock.inputChange
  simp only
  split
  · split
    · exact hkeep
    · exact ((b.setInput second new).capture_flags tar).1
  · exact hkeep

/-- The flags of a state whose timer keeps its flags, and whose ports and nonmaskable requests are the same. -/
theorem State.irqFlag_setTimer {s : State} {t : TimerState} (h : s.timer.KeepsFlags t) {i : IrqSource}
    (hi : s.irqFlag i = true) : (s.setTimer t).irqFlag i = true := by
  cases i with
  | taifg => exact h.1 hi
  | ccifg x =>
    rw [State.irqFlag] at hi ⊢
    cases hb : s.timer.blocks[x]? with
    | none => rw [hb] at hi; cases hi
    | some b =>
      rw [hb] at hi
      obtain ⟨c, hc, hflag⟩ := h.2 x b hb hi
      rw [State.setTimer_timer, hc]
      exact hflag
  | port x k => simpa [State.irqFlag] using hi
  | nmi k => exact hi

theorem State.irqFlag_timerChange {s : State} {f : TimerState → TimerState} (h : s.timer.KeepsFlags (f s.timer))
    {i : IrqSource} (hi : s.irqFlag i = true) : (s.timerChange f).irqFlag i = true := by
  unfold State.timerChange
  split
  · exact hi
  · exact State.irqFlag_setTimer h hi

theorem State.irqFlag_timerTick {s : State} {f : TimerState → Nat → TimerState × Nat}
    (h : s.timer.KeepsFlags (f s.timer s.draws).1) {i : IrqSource} (hi : s.irqFlag i = true) :
    (s.timerTick f).irqFlag i = true := by
  unfold State.timerTick
  split
  · exact hi
  · have hset := State.irqFlag_setTimer h hi
    cases i with
    | port x k => rwa [State.irqFlag, State.setDraws_port, ← State.irqFlag]
    | _ => exact hset

/-- A port that keeps its flags keeps those of the state. -/
theorem State.irqFlag_setPort {s : State} {x : PortId} {p : PortState}
    (h : ∀ k : Fin 8, (s.port x).ifg.getLsbD k = true → p.ifg.getLsbD k = true) {i : IrqSource} (hi : s.irqFlag i = true) :
    (s.setPort x p).irqFlag i = true := by
  cases i with
  | taifg | ccifg y => rwa [State.irqFlag, State.setPort_timer]
  | nmi k => rwa [State.irqFlag, State.setPort_nmi]
  | port y k =>
    rw [State.irqFlag] at hi ⊢
    by_cases hy : y = x
    · subst hy; rw [State.setPort_port]; exact h k hi
    · rwa [State.setPort_port_ne _ _ _ _ hy]

/-- Setting a bit clears none. -/
theorem setBit_true_getLsbD {v : Byte} {k j : Fin 8} (h : v.getLsbD j = true) : (setBit v k true).getLsbD j = true := by
  rw [setBit_getLsbD _ _ _ _ j.isLt]
  split
  · rfl
  · exact h

theorem PortState.pinChange_keeps_ifg (p : PortState) (k : Fin 8) (new : Bool) {j : Fin 8} (h : p.ifg.getLsbD j = true) :
    (p.pinChange k new).ifg.getLsbD j = true := by
  rw [PortState.pinChange_ifg_getLsbD, h, Bool.true_or]

theorem PortState.maySetFlag_keeps_ifg (p : PortState) (k : Fin 8) {j : Fin 8} (h : p.ifg.getLsbD j = true) :
    (p.maySetFlag k).ifg.getLsbD j = true := by
  unfold PortState.maySetFlag
  split
  · exact setBit_true_getLsbD h
  · exact h

/-- A further nonmaskable request leaves every flag. -/
theorem State.irqFlag_requestNmi {s : State} (k : Nat) {i : IrqSource} (hi : s.irqFlag i = true) :
    (s.requestNmi k).irqFlag i = true := by
  unfold State.requestNmi
  split
  · cases i with
    | nmi j =>
      rw [State.irqFlag, List.contains_iff_mem] at hi ⊢
      exact List.mem_cons_of_mem _ hi
    | port x j => simpa [State.irqFlag] using hi
    | _ => exact hi
  · exact hi

/-- Settles O31: by the action, each of which sets flags or leaves them. -/
theorem agentsNeverClearFlags : Obligations.AgentsNeverClearFlags := by
  intro a s t i hreset hwithdraw h hi
  cases a with
  | reset => exact absurd rfl hreset
  | nmiWithdraw k => exact absurd rfl (hwithdraw k)
  | pinChange x k new => cases h; exact State.irqFlag_setPort (fun j => (s.port x).pinChange_keeps_ifg k new) hi
  | maySetFlag x k => cases h; exact State.irqFlag_setPort (fun j => (s.port x).maySetFlag_keeps_ifg k) hi
  | timerCount => cases h; exact State.irqFlag_timerTick (s.timer.keepsFlags_count s.draws) hi
  | timerClock => cases h; exact State.irqFlag_timerTick (s.timer.keepsFlags_clock s.draws) hi
  | timerSetTaifg =>
    cases h
    refine State.irqFlag_timerChange ⟨fun _ => ?_, fun x b hb hf => ⟨b, hb, hf⟩⟩ hi
    simp [TimerState.taifg]
  | timerSetCcifg x =>
    cases h
    exact State.irqFlag_timerChange (s.timer.keepsFlags_mapBlock x fun b hb => CcBlock.ccifg_of_or rfl hb) hi
  | timerSetTar v => cases h; exact State.irqFlag_timerChange ⟨id, fun x b hb hf => ⟨b, hb, hf⟩⟩ hi
  | timerSetCov x c =>
    cases h
    refine State.irqFlag_timerChange (s.timer.keepsFlags_mapBlock x fun b hb => ?_) hi
    rw [CcBlock.ccifg] at hb ⊢
    exact (setBit_getLsbD b.ctl 1 0 c (by decide)).trans hb
  | timerSetScci x c | timerSetOut x c =>
    cases h; exact State.irqFlag_timerChange (s.timer.keepsFlags_mapBlock x fun b hb => by exact hb) hi
  | timerSetCci x second new =>
    cases h
    refine State.irqFlag_timerChange (s.timer.keepsFlags_mapBlock x fun b hb => ?_) hi
    rw [CcBlock.ccifg, CcBlock.setInput_ctl]
    exact hb
  | captureInput x second new =>
    cases h
    exact State.irqFlag_setTimer (s.timer.keepsFlags_mapBlock x fun b hb => b.inputChange_ccifg _ _ _ _ hb) hi
  | nmiRequest k => cases h; exact State.irqFlag_requestNmi k hi

end Sys2Proof.Machine
end

section
/-! The proofs of 60_exceptions.md sections 2 and 3: the flag an interrupt entry clears (R312), and the return that undoes it (R310,
R320). -/

namespace Sys2Proof.Machine

/-! The flags (60_exceptions.md R301, R312). -/

/-- Clearing the flag of a block clears it, and no other block's. -/
theorem TimerState.ccifg_mapBlock_clear (t : TimerState) (x y : Nat) :
    ((t.mapBlock x fun b => { b with ctl := b.ctl &&& 0xFFFE }).blocks[y]?.map CcBlock.ccifg).getD false =
      (decide (y ≠ x) && (t.blocks[y]?.map CcBlock.ccifg).getD false) := by
  rw [TimerState.mapBlock, List.getElem?_modify]
  cases t.blocks[y]? with
  | none => simp
  | some b =>
    by_cases h : x = y
    · simp [h, CcBlock.ccifg]
    · simp [h, Ne.symm h]

/-- The flags after one is cleared: it is 0, and every other as before. -/
theorem State.irqFlag_clearIrqFlag (s : State) (i j : IrqSource) :
    (s.clearIrqFlag i).irqFlag j = (decide (j ≠ i) && s.irqFlag j) := by
  by_cases hji : j = i
  case pos =>
    rw [decide_eq_false (not_not_intro hji), Bool.false_and]
    subst hji
    cases j with
    | taifg => simp [State.clearIrqFlag, State.irqFlag, TimerState.taifg]
    | ccifg x =>
      rw [State.clearIrqFlag, State.irqFlag, State.setTimer_timer, TimerState.ccifg_mapBlock_clear,
        decide_eq_false (not_not_intro rfl), Bool.false_and]
    | port x k =>
      rw [State.clearIrqFlag, State.irqFlag, State.setPort_port]
      exact (setBit_getLsbD _ k k false k.isLt).trans (if_pos rfl)
    | nmi k => simp [State.clearIrqFlag, State.irqFlag]
  case neg =>
    rw [decide_eq_true hji, Bool.true_and]
    cases i with
    | taifg =>
      cases j with
      | taifg => exact absurd rfl hji
      | port x k => rw [State.clearIrqFlag, State.irqFlag, State.setTimer_port, State.irqFlag]
      | ccifg x | nmi k => rfl
    | ccifg x =>
      cases j with
      | ccifg y =>
        have hne : y ≠ x := fun e => hji (congrArg IrqSource.ccifg e)
        rw [State.clearIrqFlag, State.irqFlag, State.setTimer_timer, TimerState.ccifg_mapBlock_clear, decide_eq_true hne,
          Bool.true_and, State.irqFlag]
      | port y k => rw [State.clearIrqFlag, State.irqFlag, State.setTimer_port, State.irqFlag]
      | taifg | nmi k => rfl
    | port x k =>
      cases j with
      | port y l =>
        rw [State.clearIrqFlag, State.irqFlag, State.irqFlag]
        by_cases hxy : y = x
        · subst hxy
          have hne : ¬(l : Nat) = k := fun e => hji (by rw [Fin.ext e])
          rw [State.setPort_port]
          exact (setBit_getLsbD _ k l false l.isLt).trans (if_neg hne)
        · rw [State.setPort_port_ne _ _ _ _ hxy]
      | taifg | ccifg y => rw [State.clearIrqFlag, State.irqFlag, State.setPort_timer, State.irqFlag]
      | nmi l => rw [State.clearIrqFlag, State.irqFlag, State.setPort_nmi, State.irqFlag]
    | nmi k =>
      cases j with
      | nmi l =>
        have hne : l ≠ k := fun e => hji (congrArg IrqSource.nmi e)
        simp [State.clearIrqFlag, State.irqFlag, List.contains_eq_mem, hne]
      | port y l => rw [State.clearIrqFlag, State.irqFlag, State.setNmi_port, State.irqFlag]
      | taifg | ccifg y => rfl

/-- The pushes of an entry touch no flag. -/
theorem State.irqFlag_afterPushes (s : State) (m : List Host.Cell) (i : IrqSource) :
    (s.afterPushes m).irqFlag i = s.irqFlag i := by
  cases i <;> simp [State.irqFlag]

/-- SR, PC and the note of a risen GIE hold no flag: an entry's end changes flags as its clearing does. -/
theorem State.irqFlag_entered (s : State) (v : VectorEntry) (w : Word) (i : IrqSource) :
    (s.entered v w).irqFlag i = (s.clearSingleSource v).irqFlag i := by
  cases i <;> simp [State.entered, State.irqFlag]

/-! The entry, from its outcome (60_exceptions.md R310). -/

/-- An entry that completes: the pushed words are held, no other byte of memory changed, and the vector is the selected one. -/
theorem State.EntryReady.of_step {s t : State} {v : VectorEntry} (h : s.EntryReady v) (hstep : step s = .next t) :
    ∃ m w, t = (s.afterPushes m).entered v w ∧ (s.afterPushes m).HoldsWord (s.sp - 2) s.pc ∧
      (s.afterPushes m).HoldsWord (s.sp - 4) s.sr := by
  obtain ⟨s1, m, hpushPc, hpushSr, hholdsPc, hholdsSr, -⟩ := State.entryPushes_of_stackRoom h.spEven h.room
  rw [h.step_eq, outcome_next] at hstep
  obtain ⟨s1', s2, u, w, hpc, hsr, hu, -, ht⟩ := State.takeInterrupt_ok hstep
  cases hpushPc.symm.trans hpc
  cases hpushSr.symm.trans hsr
  rw [State.entryVector_afterPushes h.request m] at hu
  exact ⟨m, w, by rw [ht, hu]; rfl, hholdsPc, hholdsSr⟩

/-- Settles O17: an entry changes flags as `State.clearSingleSource` does. -/
theorem entryClearsSingleSourceFlag : Obligations.EntryClearsSingleSourceFlag := by
  intro s t v hready hstep
  obtain ⟨m, w, rfl, -⟩ := hready.of_step hstep
  have hflag : ∀ j, ((s.afterPushes m).entered v w).irqFlag j = ((s.afterPushes m).clearSingleSource v).irqFlag j :=
    fun j => (s.afterPushes m).irqFlag_entered v w j
  refine ⟨fun i hv => ?single, fun hv j => ?several⟩
  case single =>
    have hclear : ∀ j, ((s.afterPushes m).entered v w).irqFlag j = (decide (j ≠ i) && s.irqFlag j) := fun j => by
      rw [hflag, State.clearSingleSource, hv, State.irqFlag_clearIrqFlag, State.irqFlag_afterPushes]
    refine ⟨?_, fun j hj => ?_⟩
    · rw [hclear, decide_eq_false (not_not_intro rfl), Bool.false_and]
    · rw [hclear, decide_eq_true hj, Bool.true_and]
  case several =>
    have hclear : (s.afterPushes m).clearSingleSource v = s.afterPushes m := by
      unfold State.clearSingleSource
      split
      · rename_i i hi; exact absurd hi (hv i)
      · rfl
    rw [hflag, hclear, State.irqFlag_afterPushes]

/-! The return (60_exceptions.md R320, 41_single_operand.md R167). -/

/-- SR as the hardware keeps it is kept by a write (10_state.md R30). -/
theorem srWord_of_reserved {v : Word} (h : v &&& 0xFE00#16 = 0#16) : srWord v = v := by
  have hsplit : v &&& 0xFE00#16 ||| v &&& 0x01FF#16 = v := by
    rw [← BitVec.and_or_distrib_left]
    exact BitVec.and_allOnes
  rwa [h, BitVec.zero_or] at hsplit

theorem Word.sub_four_add_two (v : Word) : v - 4 + 2 = v - 2 := by bv_omega

theorem Word.sub_four_add_four (v : Word) : v - 4 + 4 = v := by bv_omega

/-- Settles O18: the pushed words are held in every such state, and RETI pops them. -/
theorem retiUndoesInterruptEntry : Obligations.RetiUndoesInterruptEntry := by
  intro s t u v hready hstep hplatform hsp hmem
  obtain ⟨m, w, rfl, hholdsPc, hholdsSr⟩ := hready.of_step hstep
  obtain ⟨htsp, -, htmem, -⟩ := (s.afterPushes m).entered_kept v w
  have hu : u.sp = s.sp - 4 := by rw [hsp, htsp, State.afterPushes_sp, evenWord_sub_four hready.spEven]
  have hheld : ∀ {a x : Word}, (∀ n ∈ cellsOf .word a, n ∈ entryCells s) → (s.afterPushes m).HoldsWord a x →
      u.HoldsWord a x := fun hcells hx =>
    hx.congr (hplatform.trans rfl) fun n hn => by rw [hmem n (hcells n hn), htmem]
  have hsr := hheld (fun n hn => List.mem_append_right _ hn) hholdsSr
  have hpc := hheld (fun n hn => List.mem_append_left _ hn) hholdsPc
  have heven : u.sp[0] = false := by rw [hu, ← evenWord_sub_four hready.spEven, evenWord_bit0]
  obtain ⟨-, -, hreti⟩ := retiResult
  refine ⟨_, hreti u s.sr s.pc heven (by rw [hu]; exact hsr.readWord) (by rw [hu, Word.sub_four_add_two]; exact hpc.readWord),
    evenWord_of_bit0 hready.pcEven, srWord_of_reserved hready.srReserved, ?sp⟩
  case sp =>
    rw [State.setPc_sp, State.setSp_sp, hu, Word.sub_four_add_four]
    exact evenWord_of_bit0 hready.spEven

end Sys2Proof.Machine
end

section
/-! The proofs of 40_operands.md: where an operand lies (R132 to R136), and the forms without a meaning (R133, R134, R140, R160). -/

namespace Sys2Proof.Machine

/-- Settles O35: each mode's location is its equation in `srcLoc`. -/
theorem sourceAddressing : Obligations.SourceAddressing :=
  fun _ _ _ _ => ⟨rfl, rfl, rfl, rfl, rfl, rfl, rfl⟩

/-- Settles O36: the increment by register and width is `autoIncrement`. -/
theorem autoIncrementAmount : Obligations.AutoIncrementAmount :=
  fun _ => ⟨fun _ => rfl, fun _ => rfl, fun _ => rfl, fun _ _ => rfl⟩

/-! Refusals. -/

/-- A form of Format I without a meaning is refused before an operand is read (log 18). -/
theorem twoOperand_of_refusal {bw : Width} {src : Src} {dst : Dst} {use : DstUse} {flags : Bool} {reason : OperandReason}
    (h : twoOperandRefusal bw src dst use flags = some reason)
    {f : BitVec bw.bits → BitVec bw.bits → Bool → Nat → Alu bw.bits} {s : State} :
    outcome (twoOperand bw src dst use flags f s) = .refused (.unspecifiedOperand reason) := by
  simp only [twoOperand, h, outcome]

/-- A form of RRC, RRA, SWPB or SXT without a meaning is refused before the operand is read (log 18). -/
theorem modifyOperand_of_refusal {bw : Width} {src : Src} {flags : Bool} {reason : OperandReason}
    (h : modifyRefusal bw src flags = some reason) {f : BitVec bw.bits → Bool → Nat → Alu bw.bits} {s : State} :
    outcome (modifyOperand bw src flags f s) = .refused (.unspecifiedOperand reason) := by
  simp only [modifyOperand, h, outcome]

/-- Flags into SR (10_state.md R31). -/
theorem twoOperandRefusal_flagsIntoSr (bw : Width) (src : Src) {use : DstUse} (hu : use ≠ .read) :
    twoOperandRefusal bw src (.reg .sr) use true = some .flagsIntoSr := by
  rw [twoOperandRefusal, if_neg hu]; rfl

/-- A byte result into PC, SP or SR (40_operands.md R140), where flags do not go to SR. -/
theorem twoOperandRefusal_byteStore (src : Src) {r : Reg} (hr : specialReg r = true) {use : DstUse} (hu : use ≠ .read)
    {flags : Bool} (hf : (flags && r == .sr) = false) :
    twoOperandRefusal .byte src (.reg r) use flags = some .byteStoreToSpecial := by
  rw [twoOperandRefusal, if_neg hu, hf, if_neg Bool.false_ne_true, if_pos ⟨rfl, hr⟩]

/-- PC as register source with a destination index word (40_operands.md R134). -/
theorem twoOperandRefusal_pcSource (bw : Width) {d : Dst} (hreg : ∀ r, d ≠ .reg r) (hcg : ∀ y, d ≠ .indexed .cg y)
    (use : DstUse) (flags : Bool) : twoOperandRefusal bw (.reg .pc) d use flags = some .pcSourceWithIndexWord := by
  cases d with
  | reg r => exact absurd rfl (hreg r)
  | indexed r y =>
    cases r with
    | cg => exact absurd rfl (hcg y)
    | _ => rfl
  | symbolic y | absolute y => rfl

/-- A constant or an immediate cannot be written back (41_single_operand.md R160). -/
theorem modifyRefusal_constant (bw : Width) {c : Src} {x : Word} (h : c = .imm x ∨ ∃ k, c = .const k) (flags : Bool) :
    modifyRefusal bw c flags = some .constantNotWritable := by
  obtain rfl | ⟨k, rfl⟩ := h <;> rfl

/-- Settles O56: each list of instructions by the reason its form is refused for. -/
theorem refusedForms : Obligations.RefusedForms := by
  intro bw src x s
  refine ⟨?flags, fun r hr => ?byteFlags, fun r hr => ?byte, fun d hreg hcg => ?pcSource, ?indexedR3, fun c hc => ?constant,
    fun r => by rw [twoOperandRefusal, if_pos rfl]⟩ <;>
    simp only [List.forall_mem_cons, List.not_mem_nil, false_implies, implies_true, and_true]
  case flags =>
    have hsr {f} : outcome (twoOperand bw src (.reg .sr) .readWrite true f s) = .refused (.unspecifiedOperand .flagsIntoSr) :=
      twoOperand_of_refusal (twoOperandRefusal_flagsIntoSr bw src (by decide))
    have hone {bw f} : outcome (modifyOperand bw (.reg .sr) true f s) = .refused (.unspecifiedOperand .flagsIntoSr) :=
      modifyOperand_of_refusal rfl
    simp only [exec_add, exec_addc, exec_sub, exec_subc, exec_dadd, exec_xor, exec_and, hsr, exec_rrc, exec_rra,
      exec_sxt, hone, and_self]
  case byteFlags =>
    have hspecial : specialReg r = true ∧ (r == .sr) = false := by obtain rfl | rfl := List.mem_pair.mp hr <;> exact ⟨rfl, rfl⟩
    obtain ⟨hspecial, hsr⟩ := hspecial
    have htwo {f} : outcome (twoOperand .byte src (.reg r) .readWrite true f s) =
        .refused (.unspecifiedOperand .byteStoreToSpecial) :=
      twoOperand_of_refusal (twoOperandRefusal_byteStore src hspecial (by decide) (by rw [hsr]; rfl))
    have hone {f} : outcome (modifyOperand .byte (.reg r) true f s) = .refused (.unspecifiedOperand .byteStoreToSpecial) :=
      modifyOperand_of_refusal (by
        rw [modifyRefusal, hsr, Bool.and_false, if_neg Bool.false_ne_true, if_pos ⟨rfl, hspecial⟩])
    simp only [exec_add, exec_addc, exec_sub, exec_subc, exec_dadd, exec_xor, exec_and, htwo, exec_rrc, exec_rra, hone,
      and_self]
  case byte =>
    have hspecial : specialReg r = true := by
      simp only [List.mem_cons, List.not_mem_nil, or_false] at hr
      obtain rfl | rfl | rfl := hr <;> rfl
    have htwo {use f} (hu : use ≠ DstUse.read) : outcome (twoOperand .byte src (.reg r) use false f s) =
        .refused (.unspecifiedOperand .byteStoreToSpecial) :=
      twoOperand_of_refusal (twoOperandRefusal_byteStore src hspecial hu rfl)
    rw [exec_mov, exec_bic, exec_bis]
    exact ⟨htwo s.movUse_ne_read, htwo (by decide), htwo (by decide)⟩
  case pcSource =>
    have htwo {use flags f} : outcome (twoOperand bw (.reg .pc) d use flags f s) =
        .refused (.unspecifiedOperand .pcSourceWithIndexWord) :=
      twoOperand_of_refusal (twoOperandRefusal_pcSource bw hreg hcg use flags)
    simp only [exec_mov, exec_add, exec_addc, exec_sub, exec_subc, exec_cmp, exec_dadd, exec_bit, exec_bic, exec_bis, exec_xor,
      exec_and, htwo, and_self]
  case indexedR3 =>
    have htwo {use flags f} : outcome (twoOperand bw src (.indexed .cg x) use flags f s) =
        .refused (.unspecifiedOperand .indexedR3) := twoOperand_of_refusal rfl
    simp only [exec_mov, exec_add, exec_addc, exec_sub, exec_subc, exec_cmp, exec_dadd, exec_bit, exec_bic, exec_bis, exec_xor,
      exec_and, htwo, and_self]
  case constant =>
    have hone {bw flags f} : outcome (modifyOperand bw c flags f s) = .refused (.unspecifiedOperand .constantNotWritable) :=
      modifyOperand_of_refusal (modifyRefusal_constant bw hc flags)
    simp only [exec_rrc, exec_rra, exec_swpb, exec_sxt, hone, and_self]

end Sys2Proof.Machine
end

section
/-! The proofs of 43_two_operand.md: the results and flags of the twelve two-operand instructions (R200 to R213), and the jumps
after a comparison (42_jumps.md R180 to R189). -/

namespace Sys2Proof.Machine

/-! Results of the shared frame. -/

/-- An instruction of the Format I frame completes with the result and flags of an operation that draws nothing. -/
theorem twoOperand_completes_noDraws {bw : Width} {src : Src} {dst : Dst} {use : DstUse} {flags : Bool}
    {f : BitVec bw.bits → BitVec bw.bits → Bool → Nat → Alu bw.bits} {s u : State} {sv dv res : BitVec bw.bits} {i : Instr}
    {fl : Option Flags} (hi : exec i s = outcome (twoOperand bw src dst use flags f s))
    (h : operandsReady bw src dst use flags s sv dv u) (hu : use ≠ .read) (hdraws : (f sv dv s.carry u.draws).draws = 0)
    (hres : (f sv dv s.carry u.draws).res = res) (hflags : (f sv dv s.carry u.draws).flags = fl) :
    completesWith i s bw (dstAfterSrc bw src dst s) u res fl := by
  have hc := twoOperand_completes hi h hu
  rwa [hdraws, hres, hflags] at hc

/-- CMP or BIT completes with the flags of an operation that draws nothing. -/
theorem twoOperand_reads_noDraws {bw : Width} {src : Src} {dst : Dst} {flags : Bool}
    {f : BitVec bw.bits → BitVec bw.bits → Bool → Nat → Alu bw.bits} {s u : State} {sv dv : BitVec bw.bits} {i : Instr}
    {fl : Option Flags} (hi : exec i s = outcome (twoOperand bw src dst .read flags f s))
    (h : operandsReady bw src dst .read flags s sv dv u) (hdraws : (f sv dv s.carry u.draws).draws = 0)
    (hflags : (f sv dv s.carry u.draws).flags = fl) : exec i s = .next (u.setFlags fl) := by
  rw [twoOperand_reads hi h, State.applyAlu_eq, hdraws, hflags]
  rfl

/-! Sums and differences without and with the carry (40_operands.md R141, R142). -/

theorem addW_false_res {w : Nat} (a b : BitVec w) : (addW a b false).res = a + b := by
  rw [addW_res, Bool.toNat_false, BitVec.add_zero]

theorem addW_false_flags {w : Nat} (a b : BitVec w) :
    (addW a b false).flags = some (sumFlags a b (a + b) (decide (2 ^ w ≤ a.toNat + b.toNat))) := by
  rw [addW_flags, Bool.toNat_false, BitVec.add_zero, Nat.add_zero]

theorem subW_true_res {w : Nat} (a b : BitVec w) : (subW a b true).res = a - b := by
  rw [subW_res, Bool.toNat_true, Nat.sub_self, BitVec.sub_zero]

theorem subW_true_flags {w : Nat} (hw : 0 < w) (a b : BitVec w) :
    (subW a b true).flags = some (differenceFlags a b (a - b) (decide (b.toNat ≤ a.toNat))) := by
  rw [subW_flags hw, Bool.toNat_true, Nat.sub_self, BitVec.sub_zero, Nat.add_zero]

/-- Settles O37: each is its sum or difference in the shared frame. -/
theorem addSubResults : Obligations.AddSubResults := by
  intro bw src dst s u sv dv h loc c
  refine ⟨?add, ?addc, ?sub, ?subc⟩
  case add =>
    exact twoOperand_completes_noDraws (exec_add bw src dst s) h (by decide) rfl (addW_false_res dv sv) (addW_false_flags dv sv)
  case addc =>
    exact twoOperand_completes_noDraws (exec_addc bw src dst s) h (by decide) rfl (addW_res dv sv s.carry)
      (addW_flags dv sv s.carry)
  case sub =>
    exact twoOperand_completes_noDraws (exec_sub bw src dst s) h (by decide) rfl (subW_true_res dv sv)
      (subW_true_flags bw.bits_pos dv sv)
  case subc =>
    exact twoOperand_completes_noDraws (exec_subc bw src dst s) h (by decide) rfl (subW_res dv sv s.carry)
      (subW_flags bw.bits_pos dv sv s.carry)

/-- Settles O38: each is its logical operation in the shared frame. -/
theorem logicResults : Obligations.LogicResults := by
  refine ⟨fun bw src dst s u sv dv h => ⟨?and, ?xor⟩, fun bw src dst s u sv dv h => ⟨?bic, ?bis⟩⟩
  case and => exact twoOperand_completes_noDraws (exec_and bw src dst s) h (by decide) rfl rfl (andW_flags sv dv)
  case xor => exact twoOperand_completes_noDraws (exec_xor bw src dst s) h (by decide) rfl rfl (xorW_flags sv dv)
  case bic => exact twoOperand_completes_noDraws (exec_bic bw src dst s) h (by decide) rfl (BitVec.and_comm _ _) rfl
  case bis => exact twoOperand_completes_noDraws (exec_bis bw src dst s) h (by decide) rfl (BitVec.or_comm _ _) rfl

/-- CMP completes with the flags of the difference. -/
theorem exec_cmp_of_ready {bw : Width} {src : Src} {dst : Dst} {s u : State} {sv dv : BitVec bw.bits}
    (h : operandsReady bw src dst .read true s sv dv u) : exec (.cmp bw src dst) s =
      .next (u.setFlags (some (differenceFlags dv sv (dv - sv) (decide (sv.toNat ≤ dv.toNat))))) :=
  twoOperand_reads_noDraws (exec_cmp bw src dst s) h rfl (subW_true_flags bw.bits_pos dv sv)

/-- Settles O39: each is its flags in the shared frame, nothing stored. -/
theorem compareAndTestResults : Obligations.CompareAndTestResults :=
  fun bw src dst s _ sv dv h =>
    ⟨exec_cmp_of_ready h, twoOperand_reads_noDraws (exec_bit bw src dst s) h rfl (andW_flags sv dv)⟩

/-- Settles O41: MOV's operation hands its source on. -/
theorem moveResult : Obligations.MoveResult :=
  fun bw src dst s _ _ _ h => twoOperand_completes_noDraws (exec_mov bw src dst s) h s.movUse_ne_read rfl rfl rfl

/-! Jumps (42_jumps.md). -/

/-- The word of a jump: the opcode's and condition's bits, and the offset (30_encoding.md R93). -/
theorem wordJump_eq_add (c : Nat) (off : BitVec 10) :
    wordJump c off = BitVec.ofNat 16 (8192 + c * 1024) + off.setWidth 16 := by
  apply BitVec.eq_of_toNat_eq
  have hoff := off.isLt
  rw [wordJump, BitVec.toNat_add, BitVec.toNat_ofNat, BitVec.toNat_ofNat, BitVec.toNat_setWidth]
  omega

theorem encode_jumpOf {c : Nat} (hc : c < 8) (off : BitVec 10) :
    encode (jumpOf c off) = [BitVec.ofNat 16 (8192 + c * 1024) + off.setWidth 16] := by
  obtain ⟨henc, -, hexpand⟩ := jumpOf_spec hc off
  rw [encode, hexpand, henc, encodeJump_eq, wordJump_eq_add]

/-- A jump on a bit that is 0. -/
theorem jumpIf_not (b : Bool) (off : BitVec 10) (s : State) :
    jumpIf (!b) off s = if b = false then s.setPc (s.pc + 2 * off.signExtend 16) else s := by cases b <;> rfl

theorem jumpIf_eq (b : Bool) (off : BitVec 10) (s : State) :
    jumpIf b off s = if b = true then s.setPc (s.pc + 2 * off.signExtend 16) else s := rfl

/-- Settles O49: the words by the encoder's jump word, the results by `jumpIf`. -/
theorem jumpResults : Obligations.JumpResults := by
  intro off s jump
  refine ⟨encode_jumpOf (c := 0) (by decide) off, congrArg _ (jumpIf_not _ off s),
    encode_jumpOf (c := 1) (by decide) off, rfl, encode_jumpOf (c := 2) (by decide) off, congrArg _ (jumpIf_not _ off s),
    encode_jumpOf (c := 3) (by decide) off, rfl, encode_jumpOf (c := 4) (by decide) off, rfl,
    encode_jumpOf (c := 5) (by decide) off, ?jge, encode_jumpOf (c := 6) (by decide) off, ?jl,
    encode_jumpOf (c := 7) (by decide) off, rfl⟩
  case jge => rw [exec_jge, jumpIf_eq]; simp only [beq_iff_eq]; rfl
  case jl => rw [exec_jl, jumpIf_eq]; simp only [bne_iff_ne, ne_eq, ite_not]; rfl

/-- The flags that the jumps test, after they were written. -/
theorem State.flags_setFlags (s : State) (f : Flags) : (s.setFlags (some f)).carry = f.c ∧
    (s.setFlags (some f)).zero = f.z ∧ (s.setFlags (some f)).negative = f.n ∧ (s.setFlags (some f)).overflow = f.v :=
  Flags.into_bits f s.sr

/-- A difference is negative as a signed number exactly when its sign is not the overflow (42_jumps.md R181). -/
theorem differenceFlags_signed {bw : Width} (dv sv : BitVec bw.bits) (c : Bool) :
    ((differenceFlags dv sv (dv - sv) c).n = (differenceFlags dv sv (dv - sv) c).v) ↔ sv.toInt ≤ dv.toInt := by
  simp only [differenceFlags, BitVec.msb_eq_toInt, BitVec.toInt_sub]
  have hs := sv.isLt
  have hd := dv.isLt
  have hslo := BitVec.le_toInt sv
  have hshi := BitVec.toInt_lt (x := sv)
  have hdlo := BitVec.le_toInt dv
  have hdhi := BitVec.toInt_lt (x := dv)
  cases bw <;> simp only [Int.bmod_def] at * <;> grind

/-- Settles O40: the flags of CMP's difference are the comparisons. -/
theorem compareThenJump : Obligations.CompareThenJump := by
  intro bw src dst s u sv dv off h
  refine ⟨_, exec_cmp_of_ready h, ?_⟩
  have hsigned := differenceFlags_signed dv sv (decide (sv.toNat ≤ dv.toNat))
  have hzero : dv - sv = 0 ↔ dv = sv := by
    rw [sub_eq_zero]
  obtain ⟨hc, hz, hn, hv⟩ := u.flags_setFlags (differenceFlags dv sv (dv - sv) (decide (sv.toNat ≤ dv.toNat)))
  generalize u.setFlags (some (differenceFlags dv sv (dv - sv) (decide (sv.toNat ≤ dv.toNat)))) = t at *
  rw [← hn, ← hv] at hsigned
  have hz : t.zero = decide (dv = sv) := hz.trans (decide_eq_decide.mpr hzero)
  have hn : t.negative = (dv - sv).msb := hn
  have hc : t.carry = decide (sv.toNat ≤ dv.toNat) := hc
  refine ⟨?jeq, ?jne, ?jc, ?jnc, ?jge, ?jl, ?jn⟩
  case jeq => rw [exec_jeq, jumpIf_eq, hz]; simp only [decide_eq_true_eq]
  case jne => rw [exec_jne, jumpIf_not, hz]; simp only [decide_eq_false_iff_not, ite_not]
  case jc => rw [exec_jc, jumpIf_eq, hc]; simp only [decide_eq_true_eq]
  case jnc => rw [exec_jnc, jumpIf_not, hc]; simp only [decide_eq_false_iff_not, ite_not]
  case jge => rw [exec_jge, jumpIf_eq]; simp only [beq_iff_eq, hsigned]
  case jl => rw [exec_jl, jumpIf_eq]; simp only [bne_iff_ne, ne_eq, hsigned, ite_not]
  case jn => rw [exec_jn, jumpIf_eq, hn]

end Sys2Proof.Machine
end

section
/-! The proofs of decimal addition (40_operands.md R144, 43_two_operand.md R208, 44_emulated.md R232) and of the emulated arithmetic
(44_emulated.md R230 to R254). -/

namespace Sys2Proof.Machine

/-! A generated constant as source. -/

/-- Whether a form has a meaning does not depend on which constant its source is. -/
theorem twoOperandRefusal_const (bw : Width) (c c' : CgConst) (dst : Dst) (use : DstUse) (flags : Bool) :
    twoOperandRefusal bw (.const c) dst use flags = twoOperandRefusal bw (.const c') dst use flags := by
  cases dst with
  | indexed r x => cases r <;> rfl
  | reg r | symbolic x | absolute x => rfl

/-- A destination that is ready under the constant 0 is ready under every generated constant. -/
theorem operandsReady_const {bw : Width} {dst : Dst} {use : DstUse} {flags : Bool} {s u : State} {sv dv : BitVec bw.bits}
    (h : operandsReady bw (.const .zero) dst use flags s sv dv u) (c : CgConst) :
    operandsReady bw (.const c) dst use flags s ((constValue c).setWidth bw.bits) dv u := by
  obtain ⟨-, hrefusal, -, hread, hu, hwritable⟩ := h
  exact ⟨rfl, (twoOperandRefusal_const bw c .zero dst use flags).trans hrefusal, rfl, hread, hu, hwritable⟩

/-- The generated constants in an instruction's width (30_encoding.md R100). -/
theorem constValue_setWidth (bw : Width) : (constValue .zero).setWidth bw.bits = 0 ∧ (constValue .one).setWidth bw.bits = 1 ∧
    (constValue .two).setWidth bw.bits = 2 ∧ (constValue .minusOne).setWidth bw.bits = BitVec.allOnes bw.bits := by
  cases bw <;> decide

/-! Digit-serial addition (40_operands.md R144). -/

/-- The value of decimal digits is below the power of ten. -/
theorem decimalValue_lt {k a : Nat} (h : decimalDigits k a = true) : decimalValue k a < 10 ^ k := by
  induction k generalizing a with
  | zero => simp [decimalValue]
  | succ k ih =>
    rw [decimalDigits, Bool.and_eq_true, decide_eq_true_eq] at h
    have hrest := ih h.2
    rw [decimalValue, Nat.pow_succ]
    omega

/-- Adding decimal digits gives decimal digits; their value and the carry out make up the sum. -/
theorem daddDigits_spec {k a b : Nat} (ha : decimalDigits k a = true) (hb : decimalDigits k b = true) (c : Bool) :
    decimalDigits k (daddDigits k a b c).1 = true ∧ (daddDigits k a b c).1 < 16 ^ k ∧
      decimalValue k (daddDigits k a b c).1 + 10 ^ k * (daddDigits k a b c).2.toNat =
        decimalValue k a + decimalValue k b + c.toNat := by
  induction k generalizing a b c with
  | zero => simp [daddDigits, decimalDigits, decimalValue]
  | succ k ih =>
    rw [decimalDigits, Bool.and_eq_true, decide_eq_true_eq] at ha hb
    obtain ⟨ha, harest⟩ := ha
    obtain ⟨hb, hbrest⟩ := hb
    simp only [daddDigits]
    obtain ⟨hdig, hlt, hval⟩ := ih harest hbrest (decide (10 ≤ a % 16 + b % 16 + c.toNat))
    generalize daddDigits k (a / 16) (b / 16) (decide (10 ≤ a % 16 + b % 16 + c.toNat)) = r at hdig hlt hval ⊢
    have hc := c.toNat_le
    generalize hd : (if 10 ≤ a % 16 + b % 16 + c.toNat then a % 16 + b % 16 + c.toNat - 10 else a % 16 + b % 16 + c.toNat) = d
    have hd9 : d ≤ 9 := by rw [← hd]; split <;> omega
    have hcarry : d + 10 * (decide (10 ≤ a % 16 + b % 16 + c.toNat)).toNat = a % 16 + b % 16 + c.toNat := by
      rw [← hd]
      split
      · rename_i hge; rw [decide_eq_true hge, Bool.toNat_true]; omega
      · rename_i hlt; rw [decide_eq_false hlt, Bool.toNat_false, Nat.mul_zero, Nat.add_zero]
    have hlow : (d + 16 * r.1) % 16 = d := by omega
    have hhigh : (d + 16 * r.1) / 16 = r.1 := by omega
    rw [decimalDigits, decimalValue, decimalValue, decimalValue, hlow, hhigh, Nat.pow_succ, Nat.pow_succ]
    refine ⟨by rw [hdig, decide_eq_true hd9]; rfl, by omega, ?value⟩
    case value =>
      have hten : 10 ^ k * 10 * r.2.toNat = 10 * (10 ^ k * r.2.toNat) := by ring
      omega

/-- The digits of zero are decimal, and its value is zero. -/
theorem decimal_zero (k : Nat) : decimalDigits k 0 = true ∧ decimalValue k 0 = 0 := by
  induction k with
  | zero => exact ⟨rfl, rfl⟩
  | succ k ih =>
    obtain ⟨hdig, hval⟩ := ih
    exact ⟨by simp [decimalDigits, hdig], by simp [decimalValue, hval]⟩

/-- What `daddW` computes of decimal operands: the decimal sum, its carry, and a free V (40_operands.md R144). -/
theorem daddW_decimal {bw : Width} {a b : BitVec bw.bits} (ha : decimalDigits (bw.bits / 4) a.toNat = true)
    (hb : decimalDigits (bw.bits / 4) b.toNat = true) (c : Bool) (d : Nat) :
    let k := bw.bits / 4
    let sum := decimalValue k a.toNat + decimalValue k b.toNat + c.toNat
    let r := daddW a b c d
    decimalDigits k r.res.toNat = true ∧ decimalValue k r.res.toNat = sum % 10 ^ k ∧ r.draws = 1 ∧
      r.flags = some { v := Config.freeBit d, n := r.res.msb, z := decide (r.res = 0), c := decide (10 ^ k ≤ sum) } := by
  intro k sum r
  obtain ⟨hdig, hlt, hval⟩ := daddDigits_spec ha hb c
  have hpow : 16 ^ k = 2 ^ bw.bits := by cases bw <;> rfl
  have hvlt := decimalValue_lt hdig
  have hr : r = daddW a b c d := rfl
  rw [daddW, ha, hb, Bool.and_self, if_pos rfl] at hr
  have hres : r.res.toNat = (daddDigits k a.toNat b.toNat c).1 := by
    rw [hr]
    exact Nat.mod_eq_of_lt (hpow ▸ hlt)
  have hcarry : (daddDigits k a.toNat b.toNat c).2 = decide (10 ^ k ≤ sum) ∧
      decimalValue k (daddDigits k a.toNat b.toNat c).1 = sum % 10 ^ k := by
    change _ + 10 ^ k * _ = sum at hval
    cases hc : (daddDigits k a.toNat b.toNat c).2 with
    | false =>
      rw [hc, Bool.toNat_false, Nat.mul_zero, Nat.add_zero] at hval
      rw [← hval]
      exact ⟨(decide_eq_false (Nat.not_le.mpr hvlt)).symm, (Nat.mod_eq_of_lt hvlt).symm⟩
    | true =>
      rw [hc, Bool.toNat_true, Nat.mul_one] at hval
      rw [← hval, Nat.add_mod_right, Nat.mod_eq_of_lt hvlt]
      exact ⟨(decide_eq_true (Nat.le_add_left _ _)).symm, rfl⟩
  refine ⟨by rw [hres]; exact hdig, by rw [hres]; exact hcarry.2, by rw [hr], ?flags⟩
  case flags =>
    rw [← hcarry.1, hr]
    simp only [beq_eq_decide]
    rfl

/-- What `daddW` computes on a digit above 9: a result and flags of which nothing is known (40_operands.md R144; log 10). -/
theorem daddW_invalid {w : Nat} (a b : BitVec w) (c : Bool) (d : Nat) : ∃ f, (daddW a b c d).flags = some f := by
  unfold daddW
  split <;> exact ⟨_, rfl⟩

/-- DADD or DADC with decimal operands. -/
theorem decimalAdd_completes {bw : Width} {src : Src} {dst : Dst} {s u : State} {sv dv : BitVec bw.bits} {i : Instr}
    (hi : exec i s = outcome (twoOperand bw src dst .readWrite true (fun sv dv c d => daddW dv sv c d) s))
    (h : operandsReady bw src dst .readWrite true s sv dv u) (hs : decimalDigits (bw.bits / 4) sv.toNat = true)
    (hd : decimalDigits (bw.bits / 4) dv.toNat = true) :
    let k := bw.bits / 4
    let sum := decimalValue k dv.toNat + decimalValue k sv.toNat + s.carry.toNat
    ∃ (res : BitVec bw.bits) (v : Bool), decimalDigits k res.toNat = true ∧ decimalValue k res.toNat = sum % 10 ^ k ∧
      completesWith i s bw (dstAfterSrc bw src dst s) (u.setDraws (u.draws + 1)) res
        (some { v := v, n := res.msb, z := decide (res = 0), c := decide (10 ^ k ≤ sum) }) := by
  intro k sum
  obtain ⟨hdig, hval, hdraws, hflags⟩ := daddW_decimal hd hs s.carry u.draws
  have hc := twoOperand_completes hi h (by decide)
  rw [hdraws, hflags] at hc
  exact ⟨_, _, hdig, hval, hc⟩

/-- DADD or DADC with any operands: some result and some flags. -/
theorem decimalAdd_completes_invalid {bw : Width} {src : Src} {dst : Dst} {s u : State} {sv dv : BitVec bw.bits} {i : Instr}
    (hi : exec i s = outcome (twoOperand bw src dst .readWrite true (fun sv dv c d => daddW dv sv c d) s))
    (h : operandsReady bw src dst .readWrite true s sv dv u) :
    ∃ (res : BitVec bw.bits) (f : Flags) (n : Nat),
      completesWith i s bw (dstAfterSrc bw src dst s) (u.setDraws n) res (some f) := by
  obtain ⟨f, hf⟩ := daddW_invalid dv sv s.carry u.draws
  have hc := twoOperand_completes hi h (by decide)
  rw [hf] at hc
  exact ⟨_, f, _, hc⟩

/-- Settles O42: the digit-serial sum is the decimal sum; DADC is DADD of the constant 0. -/
theorem decimalAddResult : Obligations.DecimalAddResult := by
  refine ⟨fun bw src dst s u sv dv => fun h hs hd => decimalAdd_completes (exec_dadd bw src dst s) h hs hd,
    fun bw dst s u dv => ?dadc, fun bw src dst s u sv dv h _ => decimalAdd_completes_invalid (exec_dadd bw src dst s) h,
    fun bw dst s u dv h _ => decimalAdd_completes_invalid (exec_dadc bw dst s) h⟩
  case dadc =>
    intro k sum h hd
    have hzero : (0 : BitVec bw.bits).toNat = 0 := by cases bw <;> rfl
    obtain ⟨hdig, hval⟩ := decimal_zero k
    have hdadc := decimalAdd_completes (exec_dadc bw dst s) h (by rw [hzero]; exact hdig) hd
    simp only [hzero, hval, Nat.add_zero, k] at hdadc
    exact hdadc

/-! Emulated arithmetic (44_emulated.md sections 1, 2 and 4). -/

/-- Settles O50: by the instruction, and every expansion is a core instruction. -/
theorem emulatedMeansExpansion : Obligations.EmulatedMeansExpansion :=
  fun i s => ⟨exec_expand i s, i.expand_coreForm.expand_eq⟩

/-- Small numbers in an instruction's width. -/
theorem Width.toNat_small (bw : Width) :
    (0 : BitVec bw.bits).toNat = 0 ∧ (1 : BitVec bw.bits).toNat = 1 ∧ (2 : BitVec bw.bits).toNat = 2 := by
  cases bw <;> exact ⟨rfl, rfl, rfl⟩

/-- TST's flags: minus nothing there is no borrow and no overflow (44_emulated.md R254). -/
theorem differenceFlags_zero {bw : Width} (dv : BitVec bw.bits) :
    differenceFlags dv 0 (dv - 0) (decide ((0 : BitVec bw.bits).toNat ≤ dv.toNat)) =
      { v := false, n := dv.msb, z := decide (dv = 0), c := true } := by
  obtain ⟨hzero, -, -⟩ := Width.toNat_small bw
  have hsub : dv - 0 = dv := sub_zero dv
  simp only [differenceFlags, hsub, hzero, Nat.zero_le, decide_true, bne_self_eq_false, Bool.and_false]

/-- Settles O51: each is its sum, difference or complement with a generated constant in the shared frame. -/
theorem emulatedArithmeticResults : Obligations.EmulatedArithmeticResults := by
  refine ⟨fun bw dst s u dv h => ?operations, fun bw dst s u dv h => ?tst⟩
  case tst =>
    exact twoOperand_reads_noDraws (exec_tst bw dst s) h rfl
      ((subW_true_flags bw.bits_pos dv 0).trans (congrArg some (differenceFlags_zero dv)))
  intro loc w c
  obtain ⟨hzero, hone, htwo⟩ := Width.toNat_small bw
  obtain ⟨-, kone, ktwo, kall⟩ := constValue_setWidth bw
  have hadd : dv + 0 = dv := add_zero dv
  have hsub : dv - 0 = dv := sub_zero dv
  have h1 := kone ▸ operandsReady_const h .one
  have h2 := ktwo ▸ operandsReady_const h .two
  have hall := kall ▸ operandsReady_const h .minusOne
  have hlt : dv.toNat < 2 ^ bw.bits := dv.isLt
  refine ⟨?adc, ?inc, ?incd, ?sbc, ?dec, ?decd, ?inv⟩
  case adc =>
    refine twoOperand_completes_noDraws (exec_adc bw dst s) h (by decide) rfl ((addW_res dv 0 s.carry).trans (by rw [hadd])) ?_
    rw [addW_flags, hadd, hzero, Nat.add_zero]
  case inc =>
    refine twoOperand_completes_noDraws (exec_inc bw dst s) h1 (by decide) rfl (addW_false_res dv 1) ?_
    rw [addW_false_flags, hone, decide_eq_decide.mpr (show 2 ^ bw.bits ≤ dv.toNat + 1 ↔ dv.toNat + 1 = 2 ^ bw.bits by omega)]
  case incd =>
    refine twoOperand_completes_noDraws (exec_incd bw dst s) h2 (by decide) rfl (addW_false_res dv 2) ?_
    rw [addW_false_flags, htwo]
  case sbc =>
    refine twoOperand_completes_noDraws (exec_sbc bw dst s) h (by decide) rfl ((subW_res dv 0 s.carry).trans (by rw [hsub])) ?_
    rw [subW_flags bw.bits_pos, hsub, hzero, Nat.zero_add]
  case dec =>
    have hne : 1 ≤ dv.toNat ↔ dv ≠ 0 := by
      rw [ne_eq, ← BitVec.toNat_inj, hzero]; omega
    refine twoOperand_completes_noDraws (exec_dec bw dst s) h1 (by decide) rfl (subW_true_res dv 1) ?_
    rw [subW_true_flags bw.bits_pos, hone, decide_eq_decide.mpr hne]
  case decd =>
    refine twoOperand_completes_noDraws (exec_decd bw dst s) h2 (by decide) rfl (subW_true_res dv 2) ?_
    rw [subW_true_flags bw.bits_pos, htwo]
  case inv =>
    have hxor : BitVec.allOnes bw.bits ^^^ dv = ~~~dv := BitVec.allOnes_xor
    have hmsb : (BitVec.allOnes bw.bits).msb = true := by cases bw <;> rfl
    refine twoOperand_completes_noDraws (exec_inv bw dst s) hall (by decide) rfl hxor ?_
    rw [xorW_flags, hxor, hmsb, Bool.true_and]

/-! RLA and RLC (44_emulated.md R239, R240). -/

/-- The second operand of RLA and RLC lies where the first does: its index word lies 2 further on (44_emulated.md R239). -/
theorem dstAfterSrc_again {bw : Width} {dst : Dst} {s : State} (hpc : s.pc[0] = false)
    (hwf : dst.asSrc.wellFormed = true) (hwd : dst.wellFormed = true) :
    dstAfterSrc bw dst.asSrc dst.again s = (srcLoc bw dst.asSrc s).1 := by
  rw [dstAfterSrc_eq]
  cases dst with
  | reg r =>
    cases r with
    | cg => exact absurd hwf (by decide)
    | _ => rfl
  | indexed r x =>
    cases r with
    | pc => exact absurd hwd Bool.false_ne_true
    | _ => rfl
  | symbolic x =>
    have hnext : s.skipWord.pc = s.pc + 2 := evenWord_add_two hpc
    have hcancel : s.pc + 2 + (x - 2) = s.pc + x := by bv_omega
    simp only [Dst.asSrc, Dst.again, srcLoc, dstLoc, hnext, hcancel]
  | absolute x => rfl

/-- Twice a number, and its old top bit as the carry (44_emulated.md R239). -/
theorem add_self_carry {bw : Width} (v : BitVec bw.bits) (c : Bool) :
    decide (2 ^ bw.bits ≤ v.toNat + v.toNat + c.toNat) = v.msb := by
  rw [BitVec.msb_eq_decide, decide_eq_decide]
  have hc := c.toNat_le
  cases bw <;> simp only [Width.bits] <;> omega

/-- The flags of a rotation to the left: V where the sign changes (44_emulated.md R239, R240). -/
theorem sumFlags_self {bw : Width} (v res : BitVec bw.bits) (c : Bool) :
    sumFlags v v res (decide (2 ^ bw.bits ≤ v.toNat + v.toNat + c.toNat)) =
      { v := res.msb != v.msb, n := res.msb, z := decide (res = 0), c := v.msb } := by
  simp only [sumFlags, add_self_carry, beq_self_eq_true, Bool.true_and]

theorem add_self_eq_shiftLeft {w : Nat} (v : BitVec w) : v + v = v <<< 1 := by
  apply BitVec.eq_of_toNat_eq
  rw [BitVec.toNat_add, BitVec.toNat_shiftLeft, Nat.shiftLeft_eq, pow_one, Nat.mul_two]

/-- The bit that a shift leaves free takes the carry. -/
theorem add_self_add_carry {bw : Width} (v : BitVec bw.bits) (c : Bool) :
    v + v + BitVec.ofNat bw.bits c.toNat = v <<< 1 ||| BitVec.ofNat bw.bits c.toNat := by
  have hdisjoint : v <<< 1 &&& BitVec.ofNat bw.bits c.toNat = 0#bw.bits := by
    ext i hi
    cases c with
    | false => simp
    | true => simp only [BitVec.getElem_and, BitVec.getElem_shiftLeft, Bool.toNat_true, BitVec.getElem_one]; grind
  rw [add_self_eq_shiftLeft, BitVec.add_eq_or_of_and_eq_zero _ _ hdisjoint]

/-- Settles O52: the sum of the operand with itself is the rotation, at the place `dstAfterSrc_again` gives. -/
theorem rotateLeftResults : Obligations.RotateLeftResults := by
  intro bw dst s u v hpc hwf h loc flags
  obtain ⟨hsrc, hdst⟩ := Bool.and_eq_true_iff.mp hwf
  have hloc : dstAfterSrc bw dst.asSrc dst.again s = loc := dstAfterSrc_again hpc hsrc hdst
  refine ⟨hloc ▸ ?rla, hloc ▸ ?rlc⟩
  case rla =>
    refine twoOperand_completes_noDraws (exec_rla bw dst s) h (by decide) rfl
      ((addW_false_res v v).trans (add_self_eq_shiftLeft v)) ?_
    have hflags := sumFlags_self v (v + v) false
    rw [Bool.toNat_false, Nat.add_zero] at hflags
    rw [addW_false_flags, hflags, add_self_eq_shiftLeft]
  case rlc =>
    refine twoOperand_completes_noDraws (exec_rlc bw dst s) h (by decide) rfl
      ((addW_res v v s.carry).trans (add_self_add_carry v s.carry)) ?_
    rw [addW_flags, sumFlags_self, add_self_add_carry]

end Sys2Proof.Machine
end

section
/-! The proofs of 41_single_operand.md: rotations, exchanges, PUSH and CALL (R160 to R166). -/

namespace Sys2Proof.Machine

/-! Results of the shared frame (41_single_operand.md R160). -/

/-- With its operand ready RRC, RRA, SWPB or SXT completes with the result and flags of `f`. -/
theorem modifyOperand_completes {bw : Width} {src : Src} {flags : Bool} {f : BitVec bw.bits → Bool → Nat → Alu bw.bits}
    {s u : State} {v : BitVec bw.bits} {i : Instr} (hi : exec i s = outcome (modifyOperand bw src flags f s))
    (h : modifyReady bw src flags s v u) :
    completesWith i s bw (srcLoc bw src s).1 (u.setDraws (u.draws + (f v s.carry u.draws).draws))
      (f v s.carry u.draws).res (f v s.carry u.draws).flags := by
  obtain ⟨hwf, hrefusal, heval, hwritable⟩ := h
  have hcarry : u.carry = s.carry := by
    rw [(evalSrc_ok heval).1, State.carry, (srcState_frame bw src s hwf).2, State.carry]
  have hrun : modifyOperand bw src flags f s =
      writeLoc bw (srcLoc bw src s).1 (f v s.carry u.draws).res (u.applyAlu (f v s.carry u.draws)) := by
    simp only [modifyOperand, hrefusal, heval, hcarry]
  obtain ⟨t, ht⟩ := writeLoc_of_writable (s := u.applyAlu (f v s.carry u.draws)) (f v s.carry u.draws).res
    (by rw [writableLoc_congr (s := u) (by simp) (by simp)]; exact hwritable)
  rw [completesWith, ← State.applyAlu_eq]
  exact ⟨t, ht, by rw [hi, hrun, ht, outcome]⟩

/-! Rotations to the right (41_single_operand.md R161, R163). -/

/-- RRC's result: the bits one place down, the carry at the top. -/
theorem rrcW_res {w : Nat} (v : BitVec w) (c : Bool) (d : Nat) :
    (∀ i, i + 1 < w → (rrcW v c d).res.getLsbD i = v.getLsbD (i + 1)) ∧ (0 < w → (rrcW v c d).res.msb = c) := by
  have hbit : ∀ i, (rrcW v c d).res.getLsbD i = (v.getLsbD (i + 1) || (c && decide (i + 1 = w))) := by
    intro i
    simp only [rrcW, BitVec.getLsbD_or, BitVec.getLsbD_ushiftRight, Nat.add_comm 1 i]
    cases c with
    | false => simp
    | true => rw [if_pos rfl, BitVec.getLsbD_twoPow]; grind
  refine ⟨fun i hi => ?low, fun hw => ?top⟩
  case low => rw [hbit, decide_eq_false (Nat.ne_of_lt hi), Bool.and_false, Bool.or_false]
  case top =>
    have hlast : w - 1 + 1 = w := Nat.sub_add_cancel hw
    rw [BitVec.msb_eq_getLsbD_last, hbit, hlast, BitVec.getLsbD_of_ge _ _ (Nat.le_refl w), decide_eq_true rfl, Bool.and_true,
      Bool.false_or]

/-- RRC's flags: N is the old carry, V free where the two readings differ (log 9). -/
theorem rrcW_flags {w : Nat} (hw : 0 < w) (v : BitVec w) (c : Bool) (d : Nat) : (rrcW v c d).flags =
    some { v := c && !v.msb && Config.freeBit d, n := c, z := decide ((rrcW v c d).res = 0), c := v.getLsbD 0 } := by
  have hn : (rrcW v c d).flags =
      some { v := c && !v.msb && Config.freeBit d, n := (rrcW v c d).res.msb, z := decide ((rrcW v c d).res = 0),
             c := v.getLsbD 0 } := by
    simp only [rrcW, beq_eq_decide]
  rw [hn, (rrcW_res v c d).2 hw]

/-- RRA's result: the bits one place down, the sign kept. -/
theorem rraW_res {w : Nat} (v : BitVec w) :
    (∀ i, i + 1 < w → (rraW v).res.getLsbD i = v.getLsbD (i + 1)) ∧ (rraW v).res.msb = v.msb := by
  refine ⟨fun i hi => ?_, BitVec.msb_sshiftRight⟩
  rw [rraW, BitVec.getLsbD_sshiftRight, Nat.add_comm 1 i, if_pos hi, decide_eq_false (by omega), Bool.not_false, Bool.true_and]

/-- RRA's flags: N is the sign, which stays. -/
theorem rraW_flags {w : Nat} (v : BitVec w) :
    (rraW v).flags = some { v := false, n := v.msb, z := decide ((rraW v).res = 0), c := v.getLsbD 0 } := by
  have hn : (rraW v).flags =
      some { v := false, n := (rraW v).res.msb, z := decide ((rraW v).res = 0), c := v.getLsbD 0 } := by
    simp only [rraW, beq_eq_decide]
  rw [hn, (rraW_res v).2]

/-- Settles O43: the results bit by bit, the flags as the operations write them. -/
theorem rotateRightResults : Obligations.RotateRightResults := by
  intro bw src s u v h loc
  obtain ⟨hrrcLow, hrrcTop⟩ := rrcW_res v s.carry u.draws
  obtain ⟨hrraLow, hrraTop⟩ := rraW_res v
  have hrrc := modifyOperand_completes (exec_rrc bw src s) h
  have hrra := modifyOperand_completes (exec_rra bw src s) h
  rw [rrcW_flags bw.bits_pos] at hrrc
  rw [rraW_flags] at hrra
  refine ⟨⟨_, _, _, hrrcLow, hrrcTop bw.bits_pos, ?overflow, hrrc⟩, _, hrraLow, hrraTop, hrra⟩
  case overflow =>
    rintro (hc | hv)
    · rw [hc, Bool.false_and, Bool.false_and]
    · rw [hv, Bool.not_true, Bool.and_false, Bool.false_and]

/-! SWPB and SXT (41_single_operand.md R162, R164). -/

theorem swpbW_res (v : Word) : (swpbW v).res.extractLsb' 0 8 = v.extractLsb' 8 8 ∧
    (swpbW v).res.extractLsb' 8 8 = v.extractLsb' 0 8 := by
  constructor
  · exact BitVec.extractLsb'_append_eq_right
  · exact BitVec.extractLsb'_append_eq_left

theorem sxtW_res (v : Word) {i : Nat} (hi : i < 16) :
    (sxtW v).res.getLsbD i = if i < 8 then v.getLsbD i else v.getLsbD 7 := by
  simp only [sxtW, BitVec.getLsbD_signExtend, BitVec.msb_setWidth, BitVec.getLsbD_setWidth, hi, decide_true, Bool.true_and]
  split <;> simp_all

/-- SXT's flags are those of its result (40_operands.md R143). -/
theorem sxtW_flags (v : Word) : (sxtW v).flags = some (resultFlags (sxtW v).res false) := by
  simp only [sxtW, logicFlags, resultFlags, beq_eq_decide, bne, decide_not]

/-- Settles O44: the results byte by byte and bit by bit. -/
theorem swapAndExtendResults : Obligations.SwapAndExtendResults := by
  refine ⟨fun src s u v h => ⟨(swpbW v).res, (swpbW_res v).1, (swpbW_res v).2, ?swpb⟩,
    fun src s u v h => ⟨(sxtW v).res, fun i hi => ?low, fun i hi h8 => ?high, ?sxt⟩⟩
  case swpb => exact modifyOperand_completes (exec_swpb src s) h
  case low => rw [sxtW_res v (Nat.lt_trans hi (by decide)), if_pos hi]
  case high => rw [sxtW_res v hi, if_neg (Nat.not_lt.mpr h8)]
  case sxt =>
    have hc := modifyOperand_completes (exec_sxt src s) h
    rwa [sxtW_flags] at hc

/-! PUSH and CALL (41_single_operand.md R165, R166). -/

/-- Evaluating a source keeps an even SP and an even PC even (10_state.md R22, R23). -/
theorem srcState_even {bw : Width} {src : Src} {s : State} (hwf : src.wellFormed = true) :
    (s.sp[0] = false → (srcState bw src s).sp[0] = false) ∧ (s.pc[0] = false → (srcState bw src s).pc[0] = false) := by
  simp only [srcState, State.noteRead_sp, State.noteRead_pc]
  cases src with
  | reg r | indirect r | const c => exact ⟨id, id⟩
  | indexed r x | symbolic x | absolute x | imm v => exact ⟨id, fun _ => evenWord_bit0 _⟩
  | autoinc r =>
    cases r with
    | pc | sr | cg => exact absurd hwf (by decide)
    | sp => exact ⟨fun _ => evenWord_bit0 _, id⟩
    | gp i => exact ⟨id, id⟩

/-- A push to RAM from an even SP, in either width: SP is 2 less, and the value is read there (20_memory.md R74). -/
theorem State.push_ram {s : State} {bw : Width} (v : BitVec bw.bits) (hsp : s.sp[0] = false)
    (hlow : s.isRam (s.sp - 2) = true) (hhigh : s.isRam (s.sp - 1) = true) :
    ∃ t, s.push bw v = .ok t ∧ t.sp = s.sp - 2 ∧ t.load bw (s.sp - 2) = .ok v ∧ t.pc = s.pc ∧ t.sr = s.sr := by
  have hpushed : ∃ t, s.push bw v = .ok t ∧ t.load bw (s.sp - 2) = .ok v := by
    cases bw with
    | word =>
      obtain ⟨m, hpush, hholds, -⟩ := State.push_word_changes_mem v hsp hlow hhigh
      exact ⟨_, hpush, hholds.readWord⟩
    | byte =>
      have heven := evenWord_sub_two hsp
      have hram : (s.setSp (s.sp - 2)).isRam (evenWord (s.sp - 2)) = true := by rw [heven]; exact hlow
      refine ⟨_, State.writeByte_ram v hram, ?_⟩
      rw [heven]
      exact State.readByte_setMem_write_same (s := s.setSp (s.sp - 2)) v (.inl (State.kindAt_of_isRam hlow))
  obtain ⟨t, hpush, hload⟩ := hpushed
  obtain ⟨-, hpc, htsp, hsr, -⟩ := State.push_frame hpush
  exact ⟨t, hpush, by rw [htsp, evenWord_sub_two hsp], hload, hpc, hsr⟩

/-- Settles O45: the operand is evaluated, then pushed. -/
theorem pushResult : Obligations.PushResult := by
  refine ⟨fun bw src s u v hsp hne h hlow hhigh => ?operand, fun bw s hsp hlow hhigh => ?sp⟩
  case operand =>
    obtain ⟨hwf, heval⟩ := h
    obtain ⟨rfl, -⟩ := evalSrc_ok heval
    obtain ⟨t, hpush, htsp, hload, hpc, hsr⟩ := State.push_ram v ((srcState_even hwf).1 hsp) hlow hhigh
    have hvalue : pushValue bw src s = .ok (v, srcState bw src s) := by
      unfold pushValue
      split
      · exact absurd rfl hne
      · exact heval
    refine ⟨t, ?_, htsp, hload, hpc, hsr.trans (srcState_frame bw src s hwf).2⟩
    simp only [exec_push, pushOperand, hvalue, hpush, outcome]
  case sp =>
    obtain ⟨t, hpush, htsp, hload, -⟩ := State.push_ram ((pushedSp s.sp).setWidth bw.bits) hsp hlow hhigh
    refine ⟨t, pushedSp s.sp, ?_, ?_, htsp, hload⟩
    · unfold pushedSp
      split
      · exact .inl rfl
      · exact .inr rfl
    · simp only [exec_push, pushOperand, pushValue, hpush, outcome]

/-- CALL with a readable operand and RAM at the new top of the stack. -/
theorem exec_call_of_ready {src : Src} {s u : State} {v : Word} (hsp : s.sp[0] = false) (h : sourceReady .word src s v u)
    (hlow : u.isRam (u.sp - 2) = true) (hhigh : u.isRam (u.sp - 1) = true) :
    ∃ m, exec (.call src) s = .next (((u.setSp (u.sp - 2)).setMem m).setPc v) ∧
      ((u.setSp (u.sp - 2)).setMem m).HoldsWord (u.sp - 2) u.pc ∧ u.sp[0] = false := by
  obtain ⟨hwf, heval⟩ := h
  obtain ⟨rfl, -⟩ := evalSrc_ok heval
  have heven := (srcState_even (bw := .word) hwf).1 hsp
  obtain ⟨m, hpush, hholds, -⟩ := State.push_word_changes_mem (srcState .word src s).pc heven hlow hhigh
  exact ⟨m, by simp only [exec_call, callOperand, heval, hpush, outcome], hholds, heven⟩

/-- Settles O46: the operand is evaluated, PC pushed, PC loaded. -/
theorem callResult : Obligations.CallResult := by
  intro src s u v hsp h hlow hhigh
  obtain ⟨m, hexec, hholds, heven⟩ := exec_call_of_ready hsp h hlow hhigh
  obtain ⟨hwf, heval⟩ := h
  obtain ⟨rfl, -⟩ := evalSrc_ok heval
  exact ⟨_, hexec, evenWord_sub_two heven, hholds.readWord, rfl, (srcState_frame .word src s hwf).2⟩

end Sys2Proof.Machine
end

section
/-! The proofs of 44_emulated.md sections 3 and 4: BR, RET, POP, CLR, and the instructions on single bits of SR. -/

namespace Sys2Proof.Machine

/-- A destination that can be written where it was located can be written after it was read or not. -/
theorem writableLoc_noteDst {bw : Width} {loc : Loc} {s : State} (use : DstUse) (h : writableLoc bw loc s = true) :
    writableLoc bw loc (s.noteDst bw use loc) = true := by
  rwa [writableLoc_congr (s := s) (s.noteDst_platform bw use loc) ((s.noteDst_frame bw use loc).timer nofun)]

/-- MOV, BR, CLR, POP or RET with an evaluated source and a destination that can be written. -/
theorem move_completes {bw : Width} {src : Src} {dst : Dst} {s : State} {sv dv : BitVec bw.bits} {i : Instr}
    (hi : exec i s = outcome (twoOperand bw src dst s.movUse false (fun sv _ _ _ => movW sv) s))
    (hwf : src.wellFormed = true) (hrefusal : twoOperandRefusal bw src dst s.movUse false = none)
    (heval : evalSrc bw src s = .ok (sv, srcState bw src s))
    (hread : readDst bw s.movUse (dstAfterSrc bw src dst s) (dstLocated bw src dst s) = .ok dv)
    (hwritable : writableLoc bw (dstAfterSrc bw src dst s) (dstLocated bw src dst s) = true) :
    completesWith i s bw (dstAfterSrc bw src dst s)
      ((dstLocated bw src dst s).noteDst bw s.movUse (dstAfterSrc bw src dst s)) sv none :=
  twoOperand_completes_noDraws (f := fun sv _ _ _ => movW sv) hi
    ⟨hwf, hrefusal, heval, hread, rfl, fun _ => writableLoc_noteDst _ hwritable⟩ s.movUse_ne_read rfl rfl rfl

/-- MOV of a word to PC, as BR and RET are, completes with the evaluated source in PC. -/
theorem exec_of_mov_pc {src : Src} {s u : State} {v : Word} {i : Instr}
    (hi : exec i s = outcome (twoOperand .word src (.reg .pc) s.movUse false (fun sv _ _ _ => movW sv) s))
    (h : sourceReady .word src s v u) : exec i s = .next (u.setPc v) := by
  obtain ⟨hwf, heval⟩ := h
  obtain ⟨rfl, -⟩ := evalSrc_ok heval
  have hread : ∃ dv, readDst .word s.movUse (.reg .pc) (srcState .word src s) = .ok dv := by
    rw [State.movUse, readDst]
    split <;> exact ⟨_, rfl⟩
  obtain ⟨dv, hdv⟩ := hread
  obtain ⟨t, hwrite, hexec⟩ := move_completes (dst := .reg .pc) hi hwf rfl heval hdv rfl
  have ht : (srcState .word src s).setPc v = t := Except.ok.inj hwrite
  rw [hexec, ← ht]

/-- The top of the stack as an autoincremented source: SP 2 more, and the note of the read (44_emulated.md R245, R250). -/
theorem evalSrc_autoinc_sp {bw : Width} {s : State} {v : BitVec bw.bits} (h : s.load bw s.sp = .ok v) :
    srcState bw (.autoinc .sp) s = (s.setSp (s.sp + 2)).noteLoad bw s.sp ∧
      evalSrc bw (.autoinc .sp) s = .ok (v, srcState bw (.autoinc .sp) s) := by
  have hload : (s.setSp (s.sp + 2)).load bw s.sp = .ok v :=
    (State.load_congr bw s.sp rfl rfl (fun x => s.setSp_port _ x) rfl rfl).trans h
  have hread : readLoc bw (srcLoc bw (.autoinc .sp) s).1 (srcLoc bw (.autoinc .sp) s).2 = .ok v := hload
  exact ⟨rfl, by rw [evalSrc, hread]⟩

/-- RET with a readable word on the stack (44_emulated.md R245). -/
theorem exec_ret_of_readWord {s : State} {v : Word} (h : s.readWord s.sp = .ok v) :
    exec .ret s = .next (((s.setSp (s.sp + 2)).noteLoad .word s.sp).setPc v) := by
  obtain ⟨hstate, heval⟩ := evalSrc_autoinc_sp (bw := .word) h
  rw [exec_of_mov_pc (exec_ret s) ⟨rfl, heval⟩, hstate]

/-- Settles O55: each is MOV with its source, the destination as located after it. -/
theorem branchReturnPopClear : Obligations.BranchReturnPopClear := by
  refine ⟨fun src s u v h => exec_of_mov_pc (exec_br src s) h, fun s v h => exec_ret_of_readWord h, fun bw dst s v dv => ?pop,
    fun bw dst s dv => ?clr⟩
  case pop =>
    intro use p loc q hload hrefusal hread hwritable
    obtain ⟨-, heval⟩ := evalSrc_autoinc_sp hload
    exact move_completes (exec_pop bw dst s) rfl hrefusal heval hread hwritable
  case clr =>
    intro use loc q hrefusal hread hwritable
    have heval : evalSrc bw (.const .zero) s = .ok (0, srcState bw (.const .zero) s) := by cases bw <;> rfl
    exact move_completes (exec_clr bw dst s) rfl hrefusal heval hread hwritable

/-- Settles O47: the pushed word is held in every such state, and RET takes it. -/
theorem retUndoesCall : Obligations.RetUndoesCall := by
  intro src s u t w v hsp hpc h hlow hhigh hexec hplatform hwsp hmem
  obtain ⟨m, hcall, hholds, heven⟩ := exec_call_of_ready hsp h hlow hhigh
  obtain ⟨hwf, heval⟩ := h
  obtain ⟨rfl, -⟩ := evalSrc_ok heval
  cases hcall.symm.trans hexec
  have htop : w.sp = (srcState .word src s).sp - 2 := hwsp.trans (evenWord_sub_two heven)
  have hheld : w.HoldsWord ((srcState .word src s).sp - 2) (srcState .word src s).pc := by
    refine hholds.congr (hplatform.trans (srcState_platform .word src s).symm) fun n hn => hmem n ?_
    rwa [← hwsp, htop]
  refine ⟨_, exec_ret_of_readWord (by rw [htop]; exact hheld.readWord), ?pc, ?sp, rfl, rfl⟩
  case pc => exact evenWord_of_bit0 ((srcState_even hwf).2 hpc)
  case sp =>
    change evenWord (w.sp + 2) = _
    rw [htop, sub_add_cancel, evenWord_of_bit0 heven]

/-- NOP, MOV of a constant to R3, changes nothing (44_emulated.md R244). -/
theorem exec_nop_eq (s : State) : exec .nop s = .next s := by
  have hread : readDst .word s.movUse .discard s = .ok 0 := by
    rw [State.movUse, readDst]
    split <;> rfl
  obtain ⟨t, hwrite, hexec⟩ := move_completes (src := .const .zero) (dst := .reg .cg) (exec_nop s) rfl rfl rfl hread rfl
  have ht : s = t := Except.ok.inj hwrite
  rw [hexec, ← ht]

/-- Settles O54: the words by evaluating the encoder, each result by the rule of BIC or BIS with a constant and SR. -/
theorem clrnClrzDintEintNop : Obligations.ClrnClrzDintEintNop := by
  refine ⟨⟨rfl, rfl, rfl, rfl, rfl, rfl, rfl⟩, fun s => ⟨?clrn, ?clrz, ?dint, ?eint, exec_nop_eq s⟩⟩
  case clrn => exact exec_of_bic_const_sr (c := .four) (exec_clrn s)
  case clrz => exact exec_of_bic_const_sr (c := .two) (exec_clrz s)
  case dint => exact exec_of_bic_const_sr (c := .eight) (exec_dint s)
  case eint => exact exec_of_bis_const_sr (c := .eight) (exec_eint s)

end Sys2Proof.Machine
end

section
/-! The frames: what each instruction leaves unchanged (40_operands.md R137, R139; 41_single_operand.md, 43_two_operand.md,
44_emulated.md). -/

namespace Sys2Proof.Machine

/-! Frames of the parts. -/

/-- A part that keeps all of SR takes nothing from what another part keeps. -/
theorem kept_all (kept : Word) : 0xFFFF &&& kept = kept :=
  BitVec.allOnes_and

/-- A frame says nothing of PC and SR among its registers, so that it may drop them. -/
theorem Framed.mono_regs {s t : State} {c d : Reg → Prop} {kept : Word} {store : Option (Width × Word)}
    (h : Framed s t c kept store) (hc : ∀ r, r ≠ .pc → r ≠ .sr → c r → d r) : Framed s t d kept store :=
  { h with regs := fun r hpc hsr hn => h.regs r hpc hsr fun hr => hn (hc r hpc hsr hr) }

/-- Loading PC at the end leaves a frame as it is. -/
theorem Framed.setPc {s t : State} {c : Reg → Prop} {kept : Word} {store : Option (Width × Word)}
    (h : Framed s t c kept store) (v : Word) : Framed s (t.setPc v) c kept store where
  regs r hpc hsr hn := (State.readReg_writeReg_other t .pc r v hpc).trans (h.regs r hpc hsr hn)
  sr := h.sr
  mem := h.mem
  ports x hx := (t.setPc_port v x).trans (h.ports x hx)
  timer := h.timer
  unread := h.unread
  nmi := h.nmi
  gieRose := h.gieRose
  agenda := h.agenda
  platform := h.platform

/-- A write of SR changes no register under `regs`, and may change every bit of SR. -/
theorem State.setSr_frame (s : State) (v : Word) : Framed s (s.setSr v) (fun _ => False) 0 none where
  regs r _ hsr _ := State.readReg_writeReg_other s .sr r v hsr
  sr := by simp
  mem _ _ := rfl
  ports x _ := s.setSr_port v x
  timer _ := rfl
  unread h := h
  nmi := rfl
  gieRose := rfl
  agenda := rfl
  platform := rfl

/-- An operation without flags keeps SR. -/
theorem State.applyAlu_frame_noFlags (s : State) {w : Nat} {r : Alu w} (hr : r.flags = none) :
    Framed s (s.applyAlu r) (fun _ => False) 0xFFFF none :=
  { s.applyAlu_frame r with sr := by rw [State.applyAlu_sr, hr, State.setFlags_none] }

/-- SR's bits kept by a write to a destination: all, unless SR is the destination. -/
def srKeptAt (loc : Loc) : Word := if loc = .reg .sr then 0 else 0xFFFF

/-- What writing a result keeps, whatever the location. -/
theorem writeLoc_frame_srKeptAt {bw : Width} {loc : Loc} {res : BitVec bw.bits} {s t : State}
    (h : writeLoc bw loc res s = .ok t) : Framed s t (fun r => loc = .reg r) (srKeptAt loc) (storedAt bw loc) := by
  unfold srKeptAt
  by_cases hsr : loc = .reg .sr
  · subst hsr
    cases h
    exact (s.setSr_frame _).mono (fun _ => False.elim) rfl
  · rw [if_neg hsr]
    exact (writeLoc_frame h hsr).1

theorem dstLoc_eq_reg {dst : Dst} {s : State} {r : Reg} (h : (dstLoc dst s).1 = .reg r) : dst = .reg r := by
  cases dst with
  | reg q =>
    cases q with
    | cg => cases h
    | _ => exact congrArg Dst.reg (Loc.reg.inj h)
  | indexed q x | symbolic x | absolute x => cases h

theorem srcLoc_eq_reg {bw : Width} {src : Src} {s : State} {r : Reg} (h : (srcLoc bw src s).1 = .reg r) : src = .reg r := by
  cases src with
  | reg q => exact congrArg Src.reg (Loc.reg.inj h)
  | _ => cases h

/-- SR is the location exactly when it is the destination. -/
theorem srKeptAt_dstLoc (dst : Dst) (s : State) : srKeptAt (dstLoc dst s).1 = if dst = .reg .sr then 0 else 0xFFFF := by
  unfold srKeptAt
  by_cases h : dst = .reg .sr
  · subst h; rfl
  · rw [if_neg h, if_neg fun e => h (dstLoc_eq_reg e)]

theorem srKeptAt_srcLoc (bw : Width) (src : Src) (s : State) :
    srKeptAt (srcLoc bw src s).1 = if src = .reg .sr then 0 else 0xFFFF := by
  unfold srKeptAt
  by_cases h : src = .reg .sr
  · subst h; rfl
  · rw [if_neg h, if_neg fun e => h (srcLoc_eq_reg e)]

/-! The Format I frame (43_two_operand.md R200). -/

/-- Evaluating both operands changes an autoincremented register, PC, what is read of TACCRx, and the draws at most. -/
theorem operands_frame (bw : Width) {src : Src} (dst : Dst) (use : DstUse) (s : State) (hwf : src.wellFormed = true) :
    Framed s ((dstLocated bw src dst s).noteDst bw use (dstAfterSrc bw src dst s)) (fun r => src = .autoinc r) 0xFFFF none := by
  have hsrc := (srcState_frame bw src s hwf).1
  have hdst := hsrc.trans (dstLoc_frame dst (srcState bw src s)).1
  have hall := hdst.trans ((dstLocated bw src dst s).noteDst_frame bw use (dstAfterSrc bw src dst s))
  exact hall.mono (fun r hr => hr.elim (fun h => h.elim id False.elim) False.elim) rfl

/-- The frame of a Format I instruction that writes its destination, from those of its flags and its store. -/
theorem twoOperand_frame {bw : Width} {src : Src} {dst : Dst} {use : DstUse} {flags : Bool}
    {f : BitVec bw.bits → BitVec bw.bits → Bool → Nat → Alu bw.bits} {s t : State} {kept : Word}
    (h : twoOperand bw src dst use flags f s = .ok t) (hwf : src.wellFormed = true) (hu : use ≠ .read)
    (hflags : ∀ sv dv u, Framed u (u.applyAlu (f sv dv u.carry u.draws)) (fun _ => False) kept none)
    (hsr : srKeptAt (dstAfterSrc bw src dst s) &&& kept = kept) :
    Framed s t (changedBy src dst) kept (storedAt bw (dstAfterSrc bw src dst s)) := by
  obtain ⟨-, sv, dv, u, -, -, rfl, hend⟩ := twoOperand_ok h
  rw [if_neg hu] at hend
  have hread := (operands_frame bw dst use s hwf).mono (fun _ => id) (kept_all kept)
  have hwrite := (writeLoc_frame_srKeptAt hend).mono (fun _ => id) hsr
  refine ((hread.trans (hflags sv dv _)).trans hwrite).mono (fun r hr => ?_) (BitVec.and_self)
  obtain (hsrc | hno) | hdst := hr
  · exact .inr hsrc
  · exact hno.elim
  · exact .inl (dstLoc_eq_reg hdst)

/-- The frame of a Format I instruction that only reads (CMP, BIT, TST). -/
theorem twoOperand_read_frame {bw : Width} {src : Src} {dst : Dst} {flags : Bool}
    {f : BitVec bw.bits → BitVec bw.bits → Bool → Nat → Alu bw.bits} {s t : State} {i : Instr}
    (hi : exec i s = outcome (twoOperand bw src dst .read flags f s)) (hwf : src.wellFormed = true) (h : exec i s = .next t) :
    Framed s t (fun r => src = .autoinc r) notFlags none := by
  rw [hi, outcome_next] at h
  obtain ⟨-, sv, dv, u, -, -, rfl, hend⟩ := twoOperand_ok h
  cases hend
  have hread := (operands_frame bw dst .read s hwf).mono (kept' := notFlags) (fun _ => id) rfl
  exact (hread.trans (State.applyAlu_frame _ _)).mono (fun r hr => hr.elim id False.elim) rfl

/-- A flag-writing instruction that stores does not store into SR (10_state.md R31). -/
theorem dst_ne_sr_of_flags {bw : Width} {src : Src} {dst : Dst} {use : DstUse} (hu : use ≠ .read)
    (h : twoOperandRefusal bw src dst use true = none) : dst ≠ .reg .sr := by
  rintro rfl
  rw [twoOperandRefusal_flagsIntoSr bw src hu] at h
  cases h

/-- The frame of a flag-writing Format I instruction that stores. -/
theorem flagWriting_frame {bw : Width} {src : Src} {dst : Dst}
    {f : BitVec bw.bits → BitVec bw.bits → Bool → Nat → Alu bw.bits} {s t : State} {i : Instr}
    (hi : exec i s = outcome (twoOperand bw src dst .readWrite true f s)) (hwf : src.wellFormed = true)
    (h : exec i s = .next t) : Framed s t (changedBy src dst) notFlags (storedAt bw (dstAfterSrc bw src dst s)) := by
  rw [hi, outcome_next] at h
  refine twoOperand_frame h hwf (by decide) (fun sv dv u => u.applyAlu_frame _) ?_
  obtain ⟨hrefusal, -⟩ := twoOperand_ok h
  rw [dstAfterSrc, srKeptAt_dstLoc, if_neg (dst_ne_sr_of_flags (by decide) hrefusal)]
  rfl

/-- The frame of a Format I instruction that stores and writes no flags. -/
theorem flagless_frame {bw : Width} {src : Src} {dst : Dst} {use : DstUse}
    {f : BitVec bw.bits → BitVec bw.bits → Bool → Nat → Alu bw.bits} {s t : State} {i : Instr}
    (hi : exec i s = outcome (twoOperand bw src dst use false f s)) (hu : use ≠ .read)
    (hf : ∀ sv dv c d, (f sv dv c d).flags = none) (hwf : src.wellFormed = true) (h : exec i s = .next t) :
    Framed s t (changedBy src dst) (if dst = .reg .sr then 0 else 0xFFFF) (storedAt bw (dstAfterSrc bw src dst s)) := by
  rw [hi, outcome_next] at h
  refine twoOperand_frame h hwf hu (fun sv dv u => ?_) ?_
  · exact (u.applyAlu_frame_noFlags (hf sv dv _ _)).mono (fun _ => id) (kept_all _)
  · rw [dstAfterSrc, srKeptAt_dstLoc, BitVec.and_self]

/-- With a constant as source only the destination is named. -/
theorem changedBy_const {c : CgConst} {dst : Dst} {r : Reg} (h : changedBy (.const c) dst r) : dst = .reg r :=
  h.elim id nofun

/-- RLA and RLC name one operand. -/
theorem changedBy_again {dst : Dst} {r : Reg} (h : changedBy dst.asSrc dst.again r) : dst = .reg r := by
  cases dst with
  | reg q => exact h.elim id nofun
  | indexed q x | symbolic x | absolute x => exact h.elim nofun nofun

/-- Settles O57: the flag-writing frame for each, with a constant or the operand itself as source for the emulated ones. -/
theorem flagWritingFrame : Obligations.FlagWritingFrame := by
  refine ⟨fun bw src dst s t hwf => ?core, fun bw dst s t => ?constant, fun bw dst s t hwf => ?rotate⟩ <;>
    simp only [List.forall_mem_cons, List.not_mem_nil, false_implies, implies_true, and_true]
  case core =>
    exact ⟨flagWriting_frame (exec_add bw src dst s) hwf, flagWriting_frame (exec_addc bw src dst s) hwf,
      flagWriting_frame (exec_sub bw src dst s) hwf, flagWriting_frame (exec_subc bw src dst s) hwf,
      flagWriting_frame (exec_dadd bw src dst s) hwf, flagWriting_frame (exec_xor bw src dst s) hwf,
      flagWriting_frame (exec_and bw src dst s) hwf⟩
  case constant =>
    have hframe {i c f} (hi : exec i s = outcome (twoOperand bw (.const c) dst .readWrite true f s)) (h : exec i s = .next t) :
        Framed s t (fun r => dst = .reg r) notFlags (storedAt bw (dstLoc dst s).1) :=
      (flagWriting_frame hi rfl h).mono (fun _ => changedBy_const) rfl
    exact ⟨hframe (exec_adc bw dst s), hframe (exec_dadc bw dst s), hframe (exec_sbc bw dst s), hframe (exec_inc bw dst s),
      hframe (exec_incd bw dst s), hframe (exec_dec bw dst s), hframe (exec_decd bw dst s), hframe (exec_inv bw dst s)⟩
  case rotate =>
    exact ⟨fun h => (flagWriting_frame (exec_rla bw dst s) hwf h).mono (fun _ => changedBy_again) rfl,
      fun h => (flagWriting_frame (exec_rlc bw dst s) hwf h).mono (fun _ => changedBy_again) rfl⟩

/-- Settles O58: the frame of the instructions that only read. -/
theorem compareFrame : Obligations.CompareFrame := by
  refine ⟨fun bw src dst s t hwf => ?core, fun bw dst s t h => ?tst⟩
  case core =>
    simp only [List.forall_mem_cons, List.not_mem_nil, false_implies, implies_true, and_true]
    exact ⟨twoOperand_read_frame (exec_cmp bw src dst s) hwf, twoOperand_read_frame (exec_bit bw src dst s) hwf⟩
  case tst => exact (twoOperand_read_frame (exec_tst bw dst s) rfl h).mono (fun _ => nofun) rfl

/-- The frame of MOV and its emulated spellings. -/
theorem move_frame {bw : Width} {src : Src} {dst : Dst} {s t : State} {i : Instr}
    (hi : exec i s = outcome (twoOperand bw src dst s.movUse false (fun sv _ _ _ => movW sv) s))
    (hwf : src.wellFormed = true) (h : exec i s = .next t) :
    Framed s t (changedBy src dst) (if dst = .reg .sr then 0 else 0xFFFF) (storedAt bw (dstAfterSrc bw src dst s)) :=
  flagless_frame hi s.movUse_ne_read (fun _ _ _ _ => rfl) hwf h

/-- Settles O59: the flagless frame for each; BR and RET store into PC, POP and RET take `@SP+`. -/
theorem moveFrame : Obligations.MoveFrame := by
  refine ⟨fun bw src dst s t hwf => ?core, fun src s t hwf h => ?br, fun s t h => ?ret, fun bw dst s t h => ?pop,
    fun bw dst s t h => ?clr⟩
  case core =>
    simp only [List.forall_mem_cons, List.not_mem_nil, false_implies, implies_true, and_true]
    exact ⟨move_frame (exec_mov bw src dst s) hwf,
      flagless_frame (exec_bic bw src dst s) (by decide) (fun _ _ _ _ => rfl) hwf,
      flagless_frame (exec_bis bw src dst s) (by decide) (fun _ _ _ _ => rfl) hwf⟩
  case br =>
    refine (move_frame (exec_br src s) hwf h).mono_regs fun r hpc _ hr => hr.elim (fun hd => ?_) id
    exact absurd (Dst.reg.inj hd).symm hpc
  case ret =>
    refine (move_frame (exec_ret s) rfl h).mono_regs fun r hpc _ hr => hr.elim (fun hd => ?_) fun hs => (Src.autoinc.inj hs).symm
    exact absurd (Dst.reg.inj hd).symm hpc
  case pop =>
    have hframe := move_frame (exec_pop bw dst s) rfl h
    rw [dstAfterSrc_eq] at hframe
    exact hframe.mono_regs fun r _ _ hr => hr.elim .inr fun hs => .inl (Src.autoinc.inj hs).symm
  case clr => exact (move_frame (exec_clr bw dst s) rfl h).mono_regs fun r _ _ => changedBy_const

/-! The single-operand frames (41_single_operand.md R160 to R167). -/

/-- The frame of RRC, RRA, SWPB and SXT, from those of its flags and its store. -/
theorem modifyOperand_frame {bw : Width} {src : Src} {flags : Bool} {f : BitVec bw.bits → Bool → Nat → Alu bw.bits}
    {s t : State} {kept : Word} (h : modifyOperand bw src flags f s = .ok t) (hwf : src.wellFormed = true)
    (hflags : ∀ v u, Framed u (u.applyAlu (f v u.carry u.draws)) (fun _ => False) kept none)
    (hsr : srKeptAt (srcLoc bw src s).1 &&& kept = kept) :
    Framed s t (fun r => src = .reg r ∨ src = .autoinc r) kept (storedAt bw (srcLoc bw src s).1) := by
  obtain ⟨-, v, u, -, rfl, hwrite⟩ := modifyOperand_ok h
  have hread := (srcState_frame bw src s hwf).1.mono (fun _ => id) (kept_all kept)
  have hstore := (writeLoc_frame_srKeptAt hwrite).mono (fun _ => id) hsr
  refine ((hread.trans (hflags v _)).trans hstore).mono (fun r hr => ?_) BitVec.and_self
  obtain (hsrc | hno) | hloc := hr
  · exact .inr hsrc
  · exact hno.elim
  · exact .inl (srcLoc_eq_reg hloc)

/-- The frame of RRC, RRA and SXT, which write flags and so do not store into SR (10_state.md R31). -/
theorem modify_flagWriting_frame {bw : Width} {src : Src} {f : BitVec bw.bits → Bool → Nat → Alu bw.bits} {s t : State}
    {i : Instr} (hi : exec i s = outcome (modifyOperand bw src true f s)) (hwf : src.wellFormed = true)
    (h : exec i s = .next t) :
    Framed s t (fun r => src = .reg r ∨ src = .autoinc r) notFlags (storedAt bw (srcLoc bw src s).1) := by
  rw [hi, outcome_next] at h
  obtain ⟨hrefusal, -⟩ := modifyOperand_ok h
  have hne : src ≠ .reg .sr := by rintro rfl; cases hrefusal
  refine modifyOperand_frame h hwf (fun v u => u.applyAlu_frame _) ?_
  rw [srKeptAt_srcLoc, if_neg hne]
  rfl

/-- The frame of a push of what an operand's evaluation left. -/
theorem push_after_srcState_frame {bw : Width} {src : Src} {s t : State} {v : BitVec bw.bits} (hwf : src.wellFormed = true)
    (h : (srcState bw src s).push bw v = .ok t) :
    Framed s t (fun r => r = .sp ∨ src = .autoinc r) 0xFFFF (some (bw, evenWord ((srcLoc bw src s).2.sp - 2))) := by
  have hsp : (srcState bw src s).sp = (srcLoc bw src s).2.sp := State.noteRead_sp _ _ _
  have hpush := (State.push_frame h).1
  rw [hsp] at hpush
  exact ((srcState_frame bw src s hwf).1.trans hpush).mono (fun _ => Or.symm) rfl

/-- Two pops, the first word gone to SR, change SP, SR, and what is read of TACCRx at most (41_single_operand.md R167). -/
theorem State.afterPops_frame (s : State) (sr : Word) : Framed s (s.afterPops sr) (· = .sp) 0 none := by
  have hpop : ∀ u : State, ∀ a v, Framed u ((u.noteLoad .word a).setSp v) (· = .sp) 0 none := fun u a v =>
    ((u.noteRead_frame .word (.mem a)).trans (State.writeReg_frame _ .sp v (by decide))).mono
      (fun _ hr => hr.elim False.elim id) rfl
  have hfirst := (hpop s s.sp (s.sp + 2)).trans (State.setSr_frame _ sr)
  exact (hfirst.trans (hpop _ _ _)).mono (fun _ hr => hr.elim (fun h => h.elim id False.elim) id) rfl

/-- Settles O60: the frame of the modified operand, of the push, and of the two pops. -/
theorem singleOperandFrame : Obligations.SingleOperandFrame := by
  refine ⟨fun bw src s t hwf => ?rotate, fun src s t hwf h => modify_flagWriting_frame (exec_sxt src s) hwf h,
    fun src s t hwf h => ?swpb, fun bw src s t hwf h => ?push, fun src s t hwf h => ?call, fun s t h => ?reti⟩
  case rotate =>
    simp only [List.forall_mem_cons, List.not_mem_nil, false_implies, implies_true, and_true]
    exact ⟨modify_flagWriting_frame (exec_rrc bw src s) hwf, modify_flagWriting_frame (exec_rra bw src s) hwf⟩
  case swpb =>
    rw [exec_swpb, outcome_next] at h
    refine modifyOperand_frame h hwf (fun v u => (u.applyAlu_frame_noFlags rfl).mono (fun _ => id) (kept_all _)) ?_
    rw [srKeptAt_srcLoc, BitVec.and_self]
  case push =>
    rw [exec_push, outcome_next] at h
    obtain ⟨v, -, hpush⟩ := pushOperand_ok h
    exact push_after_srcState_frame hwf hpush
  case call =>
    rw [exec_call, outcome_next] at h
    obtain ⟨target, u, -, hpush, rfl⟩ := callOperand_ok h
    exact (push_after_srcState_frame hwf hpush).setPc target
  case reti =>
    rw [exec_reti, outcome_next] at h
    obtain ⟨sr, pc, -, -, rfl⟩ := State.returnFromInterrupt_ok h
    exact (s.afterPops_frame sr).setPc pc

end Sys2Proof.Machine
end
